-- ==== Sys2Proof/Word.lean ====
section
/-! DEFINITION. The bit vectors of the block: bytes and 32-bit register values (00_scope.md R10, R12, R14). -/

namespace Sys2Proof

/-- An octet (R10: "A byte (octet) is 8 bits"). -/
abbrev Byte := BitVec 8

/-- A register value (R10: "Registers are 32 bits"). -/
abbrev Word := BitVec 32

/-- A finite sequence of octets, the first (leftmost) one at index 0 (R12). -/
abbrev Octets := List Byte

end Sys2Proof
end

