-- ==== Sys2Proof/Config.lean ====
section
/-! DEFINITION. The parameters of an implementation (00_scope.md R6 to R9) and the free values: the digests of the hash primitive
(R6) and the octets of the random source (R11). -/

namespace Sys2Proof

/-- The parameters of the step relation that are numbers (00_scope.md R7, R8, R9; 92_eei_decisions.md D3, D8, D27). They are carried
in State and no step writes them: log entry 1 (DESIGN CHOICE). -/
structure Params where
  /-- CAP, the capacity in bytes of each buffer (R8). -/
  cap : Nat
  /-- HMAX, the largest digest size the block accepts (R7). -/
  hmax : Nat
  /-- BASE, the bus address of offset 0 (R9). -/
  base : Nat
deriving DecidableEq, Repr

/-- The constraints the spec puts on the parameters: `1 <= CAP <= 4096` (R8), `1 <= HMAX` (R7), BASE a multiple of 0x8000 (R9). That
HMAX is below 2^32, so that a digest size fits the 32-bit register HLEN, is log entry 9 (DEDUCED). -/
def Params.wf (p : Params) : Bool :=
  decide (1 ≤ p.cap) && decide (p.cap ≤ 4096) && decide (1 ≤ p.hmax) && decide (p.hmax < 4294967296) && p.base % 0x8000 == 0

/-- The defaults: CAP = 4096 (R8), HMAX = 64 (R7). BASE is OPEN in the spec (R9); 0 here is log entry 2 (DESIGN CHOICE). -/
def Params.default : Params := { cap := 4096, hmax := 64, base := 0 }

/-- FREE VALUE (log entry 3): octet `i` of the digest of message `m` under the hash primitive numbered `id` (R6: "The hash primitive
is a parameter of the model"). -/
opaque Config.digestOctet : (id : Nat) → (m : Octets) → (i : Nat) → Byte

/-- FREE VALUE (log entry 4): octet `n` of the stream `rho` of the random source numbered `id` (R11: "The model quantifies over every
`rho`"). -/
opaque Config.rhoOctet : (id : Nat) → (n : Nat) → Byte

end Sys2Proof
end

