-- ==== Sys2Proof/Syntax.lean ====
section
/-! DEFINITION. The commands of MGFX-1, one constructor for each row of spec/opcode_table.json (30_encoding.md R92). A command has no
operand fields: R93 takes every operand from fixed registers and buffers. -/

namespace Sys2Proof

/-- The eight commands (30_encoding.md R92), in the table's order. -/
inductive Instr where
  /-- I2OSP, OP 0x01. -/
  | i2osp
  /-- XOR, OP 0x02. -/
  | xor
  /-- MGF1, OP 0x03. -/
  | mgf1
  /-- OAEPENC, OP 0x04. -/
  | oaepenc
  /-- OAEPDEC, OP 0x05. -/
  | oaepdec
  /-- P15ENC, OP 0x06. -/
  | p15enc
  /-- P15DEC, OP 0x07. -/
  | p15dec
  /-- CLR, OP 0x08. -/
  | clr
deriving DecidableEq, Repr

end Sys2Proof
end

