-- ==== Sys2Proof/WellFormed.lean ====
section
/-! DEFINITION. Which command words are legal (30_encoding.md R90, R92, R94). A term of Instr has no operand that could be out of
range, so every term is well formed; the checks of the spec are on the command word: the reserved field and the opcode. -/

namespace Sys2Proof

/-- Every command is well formed: CMD32 "has no register fields, no immediate and no mode bits" (R90). -/
def Instr.wf : Instr → Bool
  | .i2osp | .xor | .mgf1 | .oaepenc | .oaepdec | .p15enc | .p15dec | .clr => true

/-- The field OP, bits 7:0 (R90). -/
def CommandWord.op (w : Word) : BitVec 8 := w.extractLsb' 0 8

/-- The field RSV, bits 31:8 (R90). -/
def CommandWord.rsv (w : Word) : BitVec 24 := w.extractLsb' 8 24

/-- RSV must be 0 (R90, R94). -/
def CommandWord.rsvZero (w : Word) : Bool := CommandWord.rsv w == 0

/-- OP is one of 0x01 to 0x08 (R92, R94). -/
def CommandWord.opDefined (w : Word) : Bool :=
  decide (1 ≤ (CommandWord.op w).toNat) && decide ((CommandWord.op w).toNat ≤ 8)

/-- A legal command word (R94: "Every word not matched by rule R92 is illegal"). -/
def CommandWord.wf (w : Word) : Bool := CommandWord.rsvZero w && CommandWord.opDefined w

end Sys2Proof
end

