-- ==== Sys2Proof/Decode.lean ====
section
/-! DEFINITION. The decoder of command words and the encoder (30_encoding.md R90 to R95). -/

namespace Sys2Proof

/-- Why a command word is illegal (30_encoding.md R94). -/
inductive DecodeError where
  /-- The reserved field is not zero: "any word with a non-zero RSV field whatever its OP". -/
  | reservedNotZero (rsv : BitVec 24)
  /-- OP is 0x00 or in 0x09 .. 0xFF. -/
  | opcodeUndefined (op : BitVec 8)
deriving DecidableEq, Repr

/-- The command an opcode selects (R91, R92). -/
def decodeOp (op : BitVec 8) : Option Instr :=
  match op.toNat with
  | 0x01 => some .i2osp
  | 0x02 => some .xor
  | 0x03 => some .mgf1
  | 0x04 => some .oaepenc
  | 0x05 => some .oaepdec
  | 0x06 => some .p15enc
  | 0x07 => some .p15dec
  | 0x08 => some .clr
  | _ => none

/-- Decoding a command word (R91): the reserved field is tested first, then the opcode. Total: "every 32-bit word either selects
exactly one of the eight commands or raises UsageFault". -/
def decode (w : Word) : Except DecodeError Instr :=
  if CommandWord.rsv w ≠ 0 then .error (.reservedNotZero (CommandWord.rsv w))
  else
    match decodeOp (CommandWord.op w) with
    | some i => .ok i
    | none => .error (.opcodeUndefined (CommandWord.op w))

/-- OP of each command (R92). -/
def Instr.opcode : Instr → BitVec 8
  | .i2osp => 0x01
  | .xor => 0x02
  | .mgf1 => 0x03
  | .oaepenc => 0x04
  | .oaepdec => 0x05
  | .p15enc => 0x06
  | .p15dec => 0x07
  | .clr => 0x08

/-- The command word of a command: OP in bits 7:0 and zero in RSV (R90, R92). -/
def encode (i : Instr) : Word := (0 : BitVec 24) ++ i.opcode

/-- The word whose low `nbits` bits are those of `w`, every higher bit zero: a command word is one 32-bit word (R90, R95). -/
def tableWord (nbits w : Nat) : Word := BitVec.ofNat 32 (w % 2 ^ nbits)

/-- The command the decoder reads from the table's word: none where the decoder refuses, or where more than 32 bits are given (R95:
"Every command is exactly one 32-bit CMD write"). -/
def decodeTableWord (nbits w : Nat) : Option Instr :=
  if nbits ≤ 32 then (decode (tableWord nbits w)).toOption else none

end Sys2Proof
end

