-- ==== Sys2Proof/Machine/State.lean ====
section
/-! DEFINITION. The state of the machine as plain data (10_state.md R20 to R43), the state after reset (R43), and the reasons a step can
stop. -/

namespace Sys2Proof.Machine

/-- The completion kinds of STATUS.ERR (10_state.md R29, 60_exceptions.md R180). -/
inductive ErrKind where
  /-- 0, OK. -/
  | ok
  /-- 1, EncodingError. -/
  | enc
  /-- 2, DecodingError. -/
  | dec
  /-- 3, UsageFault. -/
  | use
deriving DecidableEq, Repr

/-- The phases of the MGF1 pipeline (41_mgf1.md R122). -/
inductive MgfPhase where
  /-- M_INIT -/
  | init
  /-- M_I2OSP -/
  | i2osp
  /-- M_HASH -/
  | hash
  /-- M_APPEND -/
  | append
  /-- M_TRUNC -/
  | trunc
deriving DecidableEq, Repr

/-- The sequencer's phase (10_state.md R40, R41; the lists of 44_control.md R172). The phases that run the MGF1 phases inside (R133, R137)
carry the MGF1 phase they are in. -/
inductive Phase where
  | idle
  /-- FAIL, with the kind that was raised (60_exceptions.md R186). -/
  | fail (kind : ErrKind)
  | iConv
  | xXor
  | mgf1 (m : MgfPhase)
  | eCheck
  | ePs
  | eDb
  | eSeed
  | eDbMask (m : MgfPhase)
  | eXorDb
  | eSeedMask (m : MgfPhase)
  | eXorSeed
  | eEmit
  | dCheck
  | dSplit
  | dSeedMask (m : MgfPhase)
  | dXorSeed
  | dDbMask (m : MgfPhase)
  | dXorDb
  | dLhash
  | dCmp
  | dScan
  | dEmit
  | pCheck
  | pDraw
  | pFix
  | pEmit
  | qLen
  | qTag
  | qScan
  | qPs
  | qEmit
  | kClr
deriving DecidableEq, Repr

/-- The scratch (10_state.md R38; `c4`, `d` and `hashOk` are the pipeline's and the comparator's outputs, log entry 12). Not mapped on the
bus. -/
structure Scratch where
  /-- C, the MGF1 counter. -/
  c : Nat
  /-- N, the number of MGF1 iterations (41_mgf1.md R121). -/
  n : Nat
  /-- T, the MGF1 accumulator. -/
  t : Octets
  /-- c4, the counter as four octets (stage 2 of 41_mgf1.md R122). -/
  c4 : Octets
  /-- D, the digest just returned (stage 4 of R122). -/
  d : Octets
  /-- lHash, and lHash2 in OAEPDEC. -/
  lHash : Octets
  /-- PS, the padding string. -/
  ps : Octets
  /-- DB, the data block. -/
  db : Octets
  seed : Octets
  dbMask : Octets
  maskedDb : Octets
  seedMask : Octets
  maskedSeed : Octets
  k : Nat
  /-- emLen, which may be -1 (10_state.md R22). -/
  emLen : Int
  mLen : Nat
  psLen : Nat
  /-- j, the OAEP separator's index, or none. -/
  j : Option Nat
  /-- s, the PKCS1-v1.5 separator's index, or none. -/
  sep : Option Nat
  /-- i, the padding position being visited (43_pkcs1v15.md R150, P_FIX). -/
  i : Nat
  /-- hashOk (42_oaep.md R135, D_CMP). -/
  hashOk : Bool
deriving DecidableEq, Repr

/-- All scratch zero (10_state.md R38, R43). -/
def Scratch.zero : Scratch :=
  { c := 0, n := 0, t := [], c4 := [], d := [], lHash := [], ps := [], db := [], seed := [], dbMask := [], maskedDb := [],
    seedMask := [], maskedSeed := [], k := 0, emLen := 0, mLen := 0, psLen := 0, j := none, sep := none, i := 0, hashOk := false }

/-- The four byte buffers (10_state.md R36). -/
inductive Buf where
  | a
  | b
  | l
  | o
deriving DecidableEq, Repr

/-- The registers of the map of 20_memory.md R61. -/
inductive Reg where
  | cmd
  | status
  | hlen
  | olen
  | keybits
  | xlo
  | xhi
  | alen
  | blen
  | llen
  | mlen
deriving DecidableEq, Repr

/-- The buffers' contents: (offset from BASE, octet) pairs, offsets strictly rising, no octet 0x00; an offset not listed reads 0x00 (10_state.md
R43; log entry 14). -/
abbrev Memory := List Host.Cell

/-- An event on a side port (00_scope.md R17: "each call is one event"). -/
inductive Event where
  /-- DigestSize(), sampled by the latch of 10_state.md R33. -/
  | digestSize
  /-- Hash(m): the octets sent to the hash primitive. -/
  | hash (m : Octets)
  /-- Rand(n). -/
  | rand (n : Nat)
deriving DecidableEq, Repr

/-- The environment: the attached collaborators (00_scope.md R6, R11), not state of the block (10_state.md R20, R42). -/
structure Env where
  /-- HASHLEN, the attached primitive's `digest_size` (R6). -/
  hashLen : Nat
  /-- Which hash primitive is attached (log entry 3). -/
  hashId : Nat
  /-- The (message, digest) pairs that are fixed; every other digest is free (log entry 3). -/
  hashKnown : List (Octets × Octets)
  /-- How many more requests the primitive answers: none when it answers all (log entry 5). -/
  hashAnswers : Option Nat
  /-- The next octets of rho that are fixed; the ones after them are free (log entry 4). -/
  rhoAhead : Octets
  /-- Which random source is attached (log entry 4). -/
  rhoId : Nat
  /-- rc, the cursor into rho (R11). -/
  rc : Nat
  /-- How many more octets the source delivers: none when it delivers all (log entry 5). -/
  randAnswers : Option Nat
  /-- The events so far, oldest first (log entry 6). -/
  events : List Event
deriving DecidableEq, Repr

/-- What the host or the environment does next (log entry 7). Addresses are absolute bus addresses (20_memory.md R67), widths are in
bytes. -/
inductive Input where
  /-- A bus read. -/
  | read (addr width : Nat)
  /-- A bus write of the low `width` bytes of `data`. -/
  | write (addr width : Nat) (data : Word)
  /-- The reset input is asserted and released (70_reset_and_hazards.md R210). -/
  | reset
  /-- A 32-bit write of `w` to CMD, and reset asserted after `n` phases of the command it starts (R210; log entry 10). -/
  | cut (w : Word) (n : Nat)
  /-- While reset is asserted another hash primitive and another random source are attached (R212; log entry 15). -/
  | exchange (hashLen hashId : Nat) (hashKnown : List (Octets × Octets)) (rhoId : Nat) (rhoAhead : Octets)
  /-- The hash primitive will answer so many more requests, none for all (R221; log entry 5). -/
  | hashAnswers (n : Option Nat)
  /-- The random source will deliver so many more octets, none for all (R221; log entry 5). -/
  | randAnswers (n : Option Nat)
  /-- No access in this step. -/
  | wait
deriving DecidableEq, Repr

/-- A response on the bus (20_memory.md R62 to R65). -/
inductive Response where
  /-- A 32-bit read returned a value. -/
  | word (v : Word)
  /-- An 8-bit read returned a value. -/
  | byte (v : Byte)
  /-- A write completed. -/
  | done
deriving DecidableEq, Repr

/-- The host side of the bus (log entry 7). -/
structure Bus where
  /-- What comes next, first entry first. -/
  inputs : List Input
  /-- The responses given so far, oldest first. -/
  responses : List Response
deriving DecidableEq, Repr

/-- The machine: the block (10_state.md R20), its parameters, and the environment it is attached to. -/
structure State where
  /-- The parameters CAP, HMAX, BASE; no step writes them (log entry 1). -/
  cfg : Params
  keybits : Word
  xlo : Word
  xhi : Word
  alen : Word
  blen : Word
  llen : Word
  mlen : Word
  /-- STATUS.ERR (R29). -/
  err : ErrKind
  /-- STATUS.HV (R30). -/
  hv : Bool
  /-- STATUS.LASTOP (R31). -/
  lastOp : BitVec 8
  hlen : Word
  olen : Word
  /-- Buffers A, B, L, O (R36). -/
  mem : Memory
  scratch : Scratch
  phase : Phase
  env : Env
  bus : Bus
deriving DecidableEq, Repr

/-- Why a bus access gets the bus's error response (20_memory.md R66). -/
inductive BusErrorCause where
  /-- The address is not in the block's 0x8000 bytes. -/
  | outside
  /-- A width other than 32 bits below offset 0x1000, or other than 8 bits from there on. -/
  | width
  /-- A 32-bit access whose offset is not a multiple of 4. -/
  | misaligned
  /-- An offset the map of R61 leaves unmapped. -/
  | unmapped
deriving DecidableEq, Repr

/-- What stops the machine with a fault: nothing. Every failure the spec describes is a completion of the command (60_exceptions.md R180,
R186), which is a next state (log entry 16). -/
inductive Fault where
deriving DecidableEq, Repr

/-- What the machine has no step for. -/
inductive Refusal where
  /-- Raised by `exec` alone, for an instruction that has no meaning yet. Safe: it stops where the hardware goes on. -/
  | notModelled (mnemonic : String)
  /-- Raised by `step` for a bus access the block does not accept (20_memory.md R66: "A model should treat a refused access as having no step
  in the block"). Safe: nothing can be proved of a program that makes one. -/
  | busError (cause : BusErrorCause) (addr width : Nat)
deriving DecidableEq, Repr

/-- The environment beside a block that has just been reset. The spec gives it no values (10_state.md R43: "not the block's"), but for
HASHLEN = 20, "The source's default" (00_scope.md R6): log entries 3 to 6 (DESIGN CHOICE). -/
def Env.initial : Env :=
  { hashLen := 20, hashId := 0, hashKnown := [], hashAnswers := none, rhoAhead := [], rhoId := 0, rc := 0, randAnswers := none,
    events := [] }

/-- The machine right after reset (10_state.md R43), with the default parameters (log entry 2). -/
def State.reset : State :=
  { cfg := Params.default, keybits := 0, xlo := 0, xhi := 0, alen := 0, blen := 0, llen := 0, mlen := 0, err := .ok, hv := false,
    lastOp := 0, hlen := 0, olen := 0, mem := [], scratch := Scratch.zero, phase := .idle, env := Env.initial,
    bus := { inputs := [], responses := [] } }

end Sys2Proof.Machine
end

