-- ==== Sys2Proof/Machine/Flags.lean ====
section
/-! DEFINITION. The STATUS fields and the kind of a failure. The block "has no condition codes and no arithmetic flags" (10_state.md R35):
ERR, HV and LASTOP are its only flags. -/

namespace Sys2Proof.Machine

/-- The code of a completion kind in STATUS.ERR (10_state.md R29, 60_exceptions.md R180). -/
def ErrKind.code : ErrKind → BitVec 2
  | .ok => 0
  | .enc => 1
  | .dec => 2
  | .use => 3

/-- STATUS as it reads (10_state.md R28): ERR in bits 1:0, HV in bit 2, LASTOP in bits 15:8, zero elsewhere. -/
def statusWord (s : State) : Word :=
  (0 : BitVec 16) ++ s.lastOp ++ (0 : BitVec 5) ++ BitVec.ofBool s.hv ++ s.err.code

/-- `KindOf(cmd)`, the kind of a failure inside `i2osp`, `xor` and `mgf` (60_exceptions.md R183). No such failure can arise in CLR; R183
does not name it. -/
def kindOf : Instr → ErrKind
  | .i2osp | .xor | .mgf1 | .oaepenc | .p15enc | .clr => .enc
  | .oaepdec | .p15dec => .dec

/-- The commands that need hLen, and no others (10_state.md R33). -/
def usesHash : Instr → Bool
  | .mgf1 | .oaepenc | .oaepdec => true
  | .i2osp | .xor | .p15enc | .p15dec | .clr => false

end Sys2Proof.Machine
end

