-- ==== Sys2Proof/Machine/Ops.lean ====
section
/-! DEFINITION. The operations over memory, octet strings, registers, the side ports and the bus, the command start sequence and the
completion sequence, "this hardware's trap entry" (60_exceptions.md R185, R186). There is no return instruction: after completion the
block is IDLE (R189). -/

namespace Sys2Proof.Machine

/-! ### Memory -/

/-- What an offset with no entry reads as: 0x00, the reset value of every buffer byte (10_state.md R43). -/
abbrev Memory.unlisted : Byte := 0

/-- The octet at an offset (20_memory.md R64). -/
def Memory.read : Memory → Nat → Byte
  | [], _ => Memory.unlisted
  | (k, v) :: m, a => if k = a then v else Memory.read m a

/-- Store an octet, keeping the canonical form: writing 0x00 removes the entry. -/
def Memory.write : Memory → Nat → Byte → Memory
  | [], a, b => if b = Memory.unlisted then [] else [(a, b)]
  | (k, v) :: m, a, b =>
    if a < k then (if b = Memory.unlisted then (k, v) :: m else (a, b) :: (k, v) :: m)
    else if a = k then (if b = Memory.unlisted then m else (a, b) :: m)
    else (k, v) :: Memory.write m a b

/-- Set `n` octets from `base` on to 0x00. -/
def Memory.clear (m : Memory) (base n : Nat) : Memory :=
  m.filter fun c => !(decide (base ≤ c.1) && decide (c.1 < base + n))

/-- The octet string of `n` octets from `base` on, the lowest address first (20_memory.md R68). -/
def Memory.load (m : Memory) (base n : Nat) : Octets :=
  (List.range n).map fun i => Memory.read m (base + i)

/-- Store an octet string from `base` on, the first octet at the lowest address (20_memory.md R68). -/
def Memory.store : Memory → Nat → Octets → Memory
  | m, _, [] => m
  | m, base, b :: bs => Memory.store (Memory.write m base b) (base + 1) bs

/-- The canonical form: offsets strictly rising, no entry equal to what an unlisted offset reads as. -/
def Memory.wf : Memory → Bool
  | [] => true
  | (_, v) :: [] => v != Memory.unlisted
  | (k, v) :: (k', v') :: m => v != Memory.unlisted && decide (k < k') && Memory.wf ((k', v') :: m)

/-- The window offset of a buffer (10_state.md R36, 20_memory.md R61). -/
def Buf.window : Buf → Nat
  | .a => 0x1000
  | .b => 0x2000
  | .l => 0x3000
  | .o => 0x4000

/-- `buf[B][i]`. -/
def bufRead (s : State) (bf : Buf) (i : Nat) : Byte := s.mem.read (bf.window + i)

/-- `buf[B][i] <- v`. -/
def bufWrite (bf : Buf) (i : Nat) (v : Byte) (s : State) : State := { s with mem := s.mem.write (bf.window + i) v }

/-- `buf[B][0:n]`. -/
def bufLoad (s : State) (bf : Buf) (n : Nat) : Octets := s.mem.load bf.window n

/-- `buf[B][0:len(r)] <- r`. -/
def bufStore (bf : Buf) (r : Octets) (s : State) : State := { s with mem := s.mem.store bf.window r }

/-- `buf[B][i] <- 0x00 for every i in 0 .. CAP-1`. -/
def bufClear (bf : Buf) (s : State) : State := { s with mem := s.mem.clear bf.window s.cfg.cap }

/-! ### Octet strings -/

/-- `n` octets of value 0x00 (00_scope.md R12). -/
def zeros (n : Nat) : Octets := List.replicate n 0

/-- The four octets of an integer, most significant first (40_byte_vector.md R110). -/
def i2ospOctets (x : Nat) : Octets :=
  [BitVec.ofNat 8 (x / 16777216 % 256), BitVec.ofNat 8 (x / 65536 % 256), BitVec.ofNat 8 (x / 256 % 256), BitVec.ofNat 8 (x % 256)]

/-- `i2osp(x)`; none where it raises (R110). The operand is never negative (10_state.md R23). -/
def i2osp (x : Nat) : Option Octets := if x ≥ 4294967296 then none else some (i2ospOctets x)

/-- `xor(a, b)`; none where it raises: it "must never silently truncate or pad" (40_byte_vector.md R112). -/
def xorOctets (a b : Octets) : Option Octets :=
  if a.length ≠ b.length then none else some (List.zipWith (· ^^^ ·) a b)

/-- The least index at or after `i`, counting the first octet of the string as index `i`, that holds `v`. Every index is visited, found or not
(42_oaep.md R137, 43_pkcs1v15.md R156). -/
def scanFor (v : Byte) : Nat → Octets → Option Nat
  | _, [] => none
  | i, x :: xs =>
    let later := scanFor v (i + 1) xs
    if x = v then some i else later

/-- Whether the first `n` octets of two strings agree; all of them are compared (42_oaep.md R135 D_CMP, R137). -/
def sameOctets (n : Nat) (a b : Octets) : Bool :=
  (List.range n).all fun i => a.getD i 0 == b.getD i 0

/-! ### Registers -/

/-- The register's offset (20_memory.md R61). -/
def Reg.offset : Reg → Nat
  | .cmd => 0x000
  | .status => 0x004
  | .hlen => 0x008
  | .olen => 0x00C
  | .keybits => 0x010
  | .xlo => 0x014
  | .xhi => 0x018
  | .alen => 0x01C
  | .blen => 0x020
  | .llen => 0x024
  | .mlen => 0x028

/-- The register at an offset (20_memory.md R61). -/
def regAt : Nat → Option Reg
  | 0x000 => some .cmd
  | 0x004 => some .status
  | 0x008 => some .hlen
  | 0x00C => some .olen
  | 0x010 => some .keybits
  | 0x014 => some .xlo
  | 0x018 => some .xhi
  | 0x01C => some .alen
  | 0x020 => some .blen
  | 0x024 => some .llen
  | 0x028 => some .mlen
  | _ => none

/-- The value a register read returns (20_memory.md R62): CMD reads 0, STATUS is composed, the others are stored. -/
def readReg (s : State) : Reg → Word
  | .cmd => 0
  | .status => statusWord s
  | .hlen => s.hlen
  | .olen => s.olen
  | .keybits => s.keybits
  | .xlo => s.xlo
  | .xhi => s.xhi
  | .alen => s.alen
  | .blen => s.blen
  | .llen => s.llen
  | .mlen => s.mlen

/-- A register write other than to CMD (20_memory.md R63): an operand register stores all 32 bits, a write to STATUS, HLEN or OLEN is ignored.
A write to CMD starts a command and does not come here; CMD holds nothing (10_state.md R27). -/
def writeReg (r : Reg) (v : Word) (s : State) : State :=
  match r with
  | .cmd | .status | .hlen | .olen => s
  | .keybits => { s with keybits := v }
  | .xlo => { s with xlo := v }
  | .xhi => { s with xhi := v }
  | .alen => { s with alen := v }
  | .blen => { s with blen := v }
  | .llen => { s with llen := v }
  | .mlen => { s with mlen := v }

/-! ### The side ports -/

/-- Record an event on a side port. -/
def record (e : Event) (s : State) : State := { s with env := { s.env with events := s.env.events ++ [e] } }

/-- `H(m)`, of length HASHLEN (00_scope.md R6, R17): the fixed digest where the environment fixes one, free octets elsewhere. -/
def hashValue (e : Env) (m : Octets) : Octets :=
  (List.range e.hashLen).map fun i => ((e.hashKnown.lookup m).getD []).getD i (Config.digestOctet e.hashId m i)

/-- `Hash(m)` (00_scope.md R17, 20_memory.md R77): the digest and the state after the transaction, or none while the primitive does not
answer (70_reset_and_hazards.md R221). -/
def hashPort (m : Octets) (s : State) : Option (Octets × State) :=
  if s.env.hashAnswers = some 0 then none
  else
    some (hashValue s.env m,
      { s with env := { s.env with hashAnswers := s.env.hashAnswers.map (· - 1), events := s.env.events ++ [.hash m] } })

/-- `rho[rc + i]` (00_scope.md R11): the fixed octet where the environment fixes one, a free octet after those. -/
def rhoAt (e : Env) (i : Nat) : Byte := e.rhoAhead.getD i (Config.rhoOctet e.rhoId (e.rc + i))

/-- `rho[rc : rc+n]`. -/
def rhoNext (e : Env) (n : Nat) : Octets := (List.range n).map (rhoAt e)

/-- The environment after `Rand(n)` (00_scope.md R17): rc advances by `n`. -/
def Env.afterRand (e : Env) (n : Nat) : Env :=
  { e with rhoAhead := e.rhoAhead.drop n, rc := e.rc + n, randAnswers := e.randAnswers.map (· - n), events := e.events ++ [.rand n] }

/-- Whether the source delivers `n` more octets. -/
def Env.delivers (e : Env) (n : Nat) : Bool :=
  match e.randAnswers with
  | none => true
  | some k => decide (n ≤ k)

/-- `Rand(n)` (00_scope.md R17, 20_memory.md R78): the octets and the state after, or none while the source does not deliver them
(70_reset_and_hazards.md R221). -/
def randPort (n : Nat) (s : State) : Option (Octets × State) :=
  if s.env.delivers n then some (rhoNext s.env n, { s with env := s.env.afterRand n }) else none

/-! ### Start and completion of a command -/

/-- Answer an access on the bus. -/
def respond (r : Response) (s : State) : State := { s with bus := { s.bus with responses := s.bus.responses ++ [r] } }

/-- Steps 1 and 2 of the command start sequence (60_exceptions.md R185), for every word written to CMD: O and OLEN are cleared, LASTOP is
bits 7:0 of the word. -/
def startSequence (w : Word) (s : State) : State :=
  { bufClear .o s with olen := 0, lastOp := CommandWord.op w }

/-- `raise K`: the sequencer goes to FAIL (60_exceptions.md R186; 44_control.md R174). -/
def raise (k : ErrKind) (s : State) : State := { s with phase := .fail k }

/-- What both completions end with (60_exceptions.md R186): ERR is written, all scratch is zeroed, the phase is IDLE, the CMD write completes on
the bus. -/
def finish (k : ErrKind) (s : State) : State :=
  respond .done { s with err := k, scratch := Scratch.zero, phase := .idle }

/-- `complete OK` (60_exceptions.md R186). -/
def completeOk (s : State) : State := finish .ok s

/-- The completion of a raise (60_exceptions.md R186): O and OLEN are cleared, then as for every completion with the kind's code. -/
def completeFail (k : ErrKind) (s : State) : State := finish k { bufClear .o s with olen := 0 }

/-- `buf[O][0:len(r)] <- r ; x[OLEN] <- len(r) ; complete OK`, the end of every command that has a result. -/
def emit (r : Octets) (s : State) : State :=
  completeOk { bufStore .o r s with olen := BitVec.ofNat 32 r.length }

/-! ### Reset -/

/-- The state the reset input leaves (70_reset_and_hazards.md R210, 10_state.md R43): every piece of the block's state at its reset value; the
parameters and the environment are untouched; an abandoned CMD write gets no response (log entry 10). -/
def resetBlock (s : State) : State := { State.reset with cfg := s.cfg, env := s.env, bus := s.bus }

/-- Reset with another hash primitive and another random source attached while it is asserted (70_reset_and_hazards.md R212; log entry 15). -/
def exchangeCollaborators (hashLen hashId : Nat) (hashKnown : List (Octets × Octets)) (rhoId : Nat) (rhoAhead : Octets) (s : State) : State :=
  let t := resetBlock s
  { t with env := { t.env with hashLen := hashLen, hashId := hashId, hashKnown := hashKnown, rhoId := rhoId, rhoAhead := rhoAhead } }

end Sys2Proof.Machine
end

