-- ==== Sys2Proof/Machine/Operands.lean ====
section
/-! DEFINITION. Where each command takes its operands from (30_encoding.md R93), all unsigned, and the capacity checks on them
(60_exceptions.md R184). Integer arithmetic is exact (00_scope.md R13, 40_byte_vector.md R114). -/

namespace Sys2Proof.Machine

/-- `x = x[XHI] * 2^32 + x[XLO]` (10_state.md R23). -/
def operandX (s : State) : Nat := 4294967296 * s.xhi.toNat + s.xlo.toNat

/-- `buf[A][0:x[ALEN]]`: `a` of XOR, `seed` of MGF1, `msg` of the encode commands, `EM` of the decode commands (10_state.md R24). -/
def operandA (s : State) : Octets := bufLoad s .a s.alen.toNat

/-- `buf[B][0:x[BLEN]]` (10_state.md R24). -/
def operandB (s : State) : Octets := bufLoad s .b s.blen.toNat

/-- The label, `buf[L][0:x[LLEN]]` (10_state.md R24, R37). -/
def label (s : State) : Octets := bufLoad s .l s.llen.toNat

/-- `length = x[MLEN]` (10_state.md R25). -/
def maskLength (s : State) : Nat := s.mlen.toNat

/-- `k = floor(x[KEYBITS] / 8)` (10_state.md R22). -/
def keyBytes (s : State) : Nat := s.keybits.toNat / 8

/-- `emLen = k - 1`, which may be -1 (10_state.md R22). -/
def emLength (s : State) : Int := (keyBytes s : Int) - 1

/-- `hLen`, the value of HLEN (10_state.md R32, R33). -/
def hLen (s : State) : Nat := s.hlen.toNat

/-- The result in buffer O, `buf[O][0:x[OLEN]]` (10_state.md R34, R36). -/
def result (s : State) : Octets := bufLoad s .o s.olen.toNat

/-- The capacity conditions of 60_exceptions.md R184 that make a decoded command raise UsageFault. -/
def capacityFault (i : Instr) (s : State) : Bool :=
  match i with
  | .i2osp | .clr => false
  | .xor => decide (s.alen.toNat > s.cfg.cap) || decide (s.blen.toNat > s.cfg.cap)
  | .mgf1 => decide (s.alen.toNat > s.cfg.cap) || decide (maskLength s > s.cfg.cap)
  | .oaepenc => decide (s.alen.toNat > s.cfg.cap) || decide (s.llen.toNat > s.cfg.cap) || decide (emLength s > (s.cfg.cap : Int))
  | .oaepdec => decide (s.alen.toNat > s.cfg.cap) || decide (s.llen.toNat > s.cfg.cap)
  | .p15enc => decide (s.alen.toNat > s.cfg.cap) || decide (emLength s > (s.cfg.cap : Int))
  | .p15dec => decide (s.alen.toNat > s.cfg.cap)

end Sys2Proof.Machine
end

