-- ==== Sys2Proof/Machine/ByteVector.lean ====
section
/-! DEFINITION. The phases of I2OSP and XOR (40_byte_vector.md R111, R113). -/

namespace Sys2Proof.Machine

/-- I_CONV (40_byte_vector.md R111). -/
def phaseIConv (s : State) : State :=
  match i2osp (operandX s) with
  | none => raise (kindOf .i2osp) s
  | some r => emit r s

/-- X_XOR (40_byte_vector.md R113). -/
def phaseXXor (s : State) : State :=
  match xorOctets (operandA s) (operandB s) with
  | none => raise (kindOf .xor) s
  | some r => emit r s

end Sys2Proof.Machine
end

