-- ==== Sys2Proof/Machine/Control.lean ====
section
/-! DEFINITION. The phase of CLR (44_control.md R170). -/

namespace Sys2Proof.Machine

/-- K_CLR: buffers A, B, L and every operand register to zero; HLEN and HV are kept (44_control.md R170). -/
def phaseKClr (s : State) : State :=
  completeOk
    { bufClear .l (bufClear .b (bufClear .a s)) with keybits := 0, xlo := 0, xhi := 0, alen := 0, blen := 0, llen := 0, mlen := 0 }

end Sys2Proof.Machine
end

