-- ==== Sys2Proof/Machine/Mgf1.lean ====
section
/-! DEFINITION. The function `mgf` as the five-stage pipeline of 41_mgf1.md R122, one phase a call, and the command MGF1 (R123). -/

namespace Sys2Proof.Machine

/-- One phase of `mgf(seed, length)` (41_mgf1.md R120, R122), run for the command `cmd`. `here` names the phase that holds an MGF1 phase;
`done` is what takes the mask, `T[0:length]`. While the primitive does not answer, M_HASH stays (70_reset_and_hazards.md R221). -/
def mgfPhase (cmd : Instr) (seed : Octets) (length : Nat) (here : MgfPhase → Phase) (done : Octets → State → State) (m : MgfPhase)
    (s : State) : State :=
  match m with
  | .init => { s with scratch := { s.scratch with c := 0, t := [], n := length / hLen s + 1 }, phase := here .i2osp }
  | .i2osp =>
    match i2osp s.scratch.c with
    | none => raise (kindOf cmd) s
    | some c4 => { s with scratch := { s.scratch with c4 := c4 }, phase := here .hash }
  | .hash =>
    match hashPort (seed ++ s.scratch.c4) s with
    | none => s
    | some (d, s') => { s' with scratch := { s'.scratch with d := d }, phase := here .append }
  | .append =>
    if s.scratch.c + 1 < s.scratch.n then
      { s with scratch := { s.scratch with t := s.scratch.t ++ s.scratch.d, c := s.scratch.c + 1 }, phase := here .i2osp }
    else { s with scratch := { s.scratch with t := s.scratch.t ++ s.scratch.d }, phase := here .trunc }
  | .trunc =>
    if s.scratch.t.length < length then raise (kindOf cmd) s
    else done (s.scratch.t.take length) s

/-- The phases of MGF1 (41_mgf1.md R123): the seed is operand A, the mask goes to buffer O. -/
def phaseMgf1 (m : MgfPhase) (s : State) : State :=
  mgfPhase .mgf1 (operandA s) (maskLength s) .mgf1 emit m s

end Sys2Proof.Machine
end

