-- ==== Sys2Proof/Machine/Oaep.lean ====
section
/-! DEFINITION. The phases of the OAEP codec: OAEPENC (42_oaep.md R130) and OAEPDEC (R135). -/

namespace Sys2Proof.Machine

/-! ### Encode -/

/-- The encode length check (42_oaep.md R130 E_CHECK, R131): both conditions, in integer arithmetic. -/
def oaepTooLong (mLen hLen : Nat) (emLen : Int) : Bool :=
  decide ((mLen : Int) > emLen - 2 * hLen - 1) || decide (emLen < 2 * hLen + 1)

/-- E_CHECK -/
def phaseECheck (s : State) : State :=
  let t := { s with scratch := { s.scratch with k := keyBytes s, emLen := emLength s, mLen := (operandA s).length } }
  if oaepTooLong t.scratch.mLen (hLen s) t.scratch.emLen then raise .enc t
  else { t with phase := .ePs }

/-- E_PS -/
def phaseEPs (s : State) : State :=
  { s with
    scratch := { s.scratch with ps := zeros (s.scratch.emLen - s.scratch.mLen - 2 * hLen s - 1).toNat }
    phase := .eDb }

/-- E_DB: one Hash event, on the label. -/
def phaseEDb (s : State) : State :=
  match hashPort (label s) s with
  | none => s
  | some (lHash, t) =>
    { t with scratch := { t.scratch with lHash := lHash, db := lHash ++ t.scratch.ps ++ [1] ++ operandA s }, phase := .eSeed }

/-- E_SEED: one Rand event (42_oaep.md R134). -/
def phaseESeed (s : State) : State :=
  match randPort (hLen s) s with
  | none => s
  | some (seed, t) => { t with scratch := { t.scratch with seed := seed }, phase := .eDbMask .init }

/-- E_DBMASK -/
def phaseEDbMask (m : MgfPhase) (s : State) : State :=
  mgfPhase .oaepenc s.scratch.seed (s.scratch.emLen - hLen s).toNat .eDbMask
    (fun r t => { t with scratch := { t.scratch with dbMask := r }, phase := .eXorDb }) m s

/-- E_XORDB -/
def phaseEXorDb (s : State) : State :=
  match xorOctets s.scratch.db s.scratch.dbMask with
  | none => raise (kindOf .oaepenc) s
  | some r => { s with scratch := { s.scratch with maskedDb := r }, phase := .eSeedMask .init }

/-- E_SEEDMASK -/
def phaseESeedMask (m : MgfPhase) (s : State) : State :=
  mgfPhase .oaepenc s.scratch.maskedDb (hLen s) .eSeedMask
    (fun r t => { t with scratch := { t.scratch with seedMask := r }, phase := .eXorSeed }) m s

/-- E_XORSEED -/
def phaseEXorSeed (s : State) : State :=
  match xorOctets s.scratch.seed s.scratch.seedMask with
  | none => raise (kindOf .oaepenc) s
  | some r => { s with scratch := { s.scratch with maskedSeed := r }, phase := .eEmit }

/-- E_EMIT -/
def phaseEEmit (s : State) : State := emit (s.scratch.maskedSeed ++ s.scratch.maskedDb) s

/-! ### Decode -/

/-- D_CHECK -/
def phaseDCheck (s : State) : State :=
  if (operandA s).length < 2 * hLen s + 1 then raise .dec s else { s with phase := .dSplit }

/-- D_SPLIT -/
def phaseDSplit (s : State) : State :=
  { s with
    scratch := { s.scratch with maskedSeed := (operandA s).take (hLen s), maskedDb := (operandA s).drop (hLen s) }
    phase := .dSeedMask .init }

/-- D_SEEDMASK -/
def phaseDSeedMask (m : MgfPhase) (s : State) : State :=
  mgfPhase .oaepdec s.scratch.maskedDb (hLen s) .dSeedMask
    (fun r t => { t with scratch := { t.scratch with seedMask := r }, phase := .dXorSeed }) m s

/-- D_XORSEED -/
def phaseDXorSeed (s : State) : State :=
  match xorOctets s.scratch.maskedSeed s.scratch.seedMask with
  | none => raise (kindOf .oaepdec) s
  | some r => { s with scratch := { s.scratch with seed := r }, phase := .dDbMask .init }

/-- D_DBMASK -/
def phaseDDbMask (m : MgfPhase) (s : State) : State :=
  mgfPhase .oaepdec s.scratch.seed ((operandA s).length - hLen s) .dDbMask
    (fun r t => { t with scratch := { t.scratch with dbMask := r }, phase := .dXorDb }) m s

/-- D_XORDB -/
def phaseDXorDb (s : State) : State :=
  match xorOctets s.scratch.maskedDb s.scratch.dbMask with
  | none => raise (kindOf .oaepdec) s
  | some r => { s with scratch := { s.scratch with db := r }, phase := .dLhash }

/-- D_LHASH: one Hash event, on the label. -/
def phaseDLhash (s : State) : State :=
  match hashPort (label s) s with
  | none => s
  | some (lHash, t) => { t with scratch := { t.scratch with lHash := lHash }, phase := .dCmp }

/-- D_CMP -/
def phaseDCmp (s : State) : State :=
  { s with scratch := { s.scratch with hashOk := sameOctets (hLen s) s.scratch.db s.scratch.lHash }, phase := .dScan }

/-- D_SCAN: the first 0x01 after the hash prefix; it "reports both the hash comparison and the scan" (42_oaep.md R137). -/
def phaseDScan (s : State) : State :=
  let t := { s with scratch := { s.scratch with j := scanFor 1 (hLen s) (s.scratch.db.drop (hLen s)) } }
  if !t.scratch.hashOk || t.scratch.j.isNone then raise .dec t else { t with phase := .dEmit }

/-- D_EMIT: everything after the separator. `j` is never none here (42_oaep.md R135). -/
def phaseDEmit (s : State) : State := emit (s.scratch.db.drop (s.scratch.j.getD 0 + 1)) s

end Sys2Proof.Machine
end

