-- ==== Sys2Proof/Machine/Pkcs1.lean ====
section
/-! DEFINITION. The phases of the PKCS1-v1.5 codec: P15ENC (43_pkcs1v15.md R150) and P15DEC (R155). -/

namespace Sys2Proof.Machine

/-! ### Encode -/

/-- P_CHECK -/
def phasePCheck (s : State) : State :=
  let t := { s with scratch := { s.scratch with k := keyBytes s, emLen := emLength s, mLen := (operandA s).length } }
  if (t.scratch.mLen : Int) > t.scratch.emLen - 10 then raise .enc t else { t with phase := .pDraw }

/-- P_DRAW: one Rand event for all positions (43_pkcs1v15.md R152). -/
def phasePDraw (s : State) : State :=
  let psLen := (s.scratch.emLen - s.scratch.mLen - 2).toNat
  match randPort psLen s with
  | none => s
  | some (ps, t) => { t with scratch := { t.scratch with psLen := psLen, ps := ps, i := 0 }, phase := .pFix }

/-- P_FIX, one visit of a position: a zero octet is replaced by one fresh octet and the position is visited again, a non-zero one is left and the
next position follows (43_pkcs1v15.md R150, R152; log entry 8). -/
def phasePFix (s : State) : State :=
  if s.scratch.i < s.scratch.psLen then
    if s.scratch.ps.getD s.scratch.i 0 = 0 then
      match randPort 1 s with
      | none => s
      | some (r, t) => { t with scratch := { t.scratch with ps := t.scratch.ps.set t.scratch.i (r.headD 0) } }
    else { s with scratch := { s.scratch with i := s.scratch.i + 1 } }
  else { s with phase := .pEmit }

/-- P_EMIT -/
def phasePEmit (s : State) : State := emit ([2] ++ s.scratch.ps ++ [0] ++ operandA s) s

/-! ### Decode -/

/-- Q_LEN -/
def phaseQLen (s : State) : State :=
  if (operandA s).length < 10 then raise .dec s else { s with phase := .qTag }

/-- Q_TAG -/
def phaseQTag (s : State) : State :=
  if (operandA s).getD 0 0 ≠ 2 then raise .dec s else { s with phase := .qScan }

/-- Q_SCAN: the first 0x00 "anywhere in `EM`" (43_pkcs1v15.md R157). -/
def phaseQScan (s : State) : State :=
  let t := { s with scratch := { s.scratch with sep := scanFor 0 0 (operandA s) } }
  if t.scratch.sep.isNone then raise .dec t else { t with phase := .qPs }

/-- Q_PS: `PS = EM[1:s]` (43_pkcs1v15.md R157). -/
def phaseQPs (s : State) : State :=
  let t := { s with scratch := { s.scratch with ps := ((operandA s).take (s.scratch.sep.getD 0)).drop 1 } }
  if t.scratch.ps.length < 8 then raise .dec t else { t with phase := .qEmit }

/-- Q_EMIT: everything after the separator. `s` is never none here (43_pkcs1v15.md R155). -/
def phaseQEmit (s : State) : State := emit ((operandA s).drop (s.scratch.sep.getD 0 + 1)) s

end Sys2Proof.Machine
end

