-- ==== Sys2Proof/Machine/Sequencer.lean ====
section
/-! DEFINITION. The sequencer: the start of a command (60_exceptions.md R185), one phase (44_control.md R171, R172), and running phases
until the command completes. -/

namespace Sys2Proof.Machine

/-- The first phase of each command (44_control.md R172). -/
def firstPhase : Instr → Phase
  | .i2osp => .iConv
  | .xor => .xXor
  | .mgf1 => .mgf1 .init
  | .oaepenc => .eCheck
  | .oaepdec => .dCheck
  | .p15enc => .pCheck
  | .p15dec => .qLen
  | .clr => .kClr

/-- The latch of hLen (10_state.md R33), then the command's first phase. -/
def latch (i : Instr) (s : State) : State :=
  if s.hv then { s with phase := firstPhase i }
  else
    let t := record .digestSize s
    if t.env.hashLen < 1 ∨ t.env.hashLen > t.cfg.hmax then raise .use t
    else { t with hlen := BitVec.ofNat 32 t.env.hashLen, hv := true, phase := firstPhase i }

/-- The command start sequence for a legal word (60_exceptions.md R185): O, OLEN and LASTOP, the capacity checks, the latch for the commands
that need hLen, the first phase. The order is the priority of R188. -/
def beginCommand (i : Instr) (s : State) : State :=
  let t := startSequence (encode i) s
  if capacityFault i t then raise .use t
  else if usesHash i then latch i t
  else { t with phase := firstPhase i }

/-- The start sequence for an illegal word (30_encoding.md R94): step 3 raises UsageFault. -/
def beginIllegal (w : Word) (s : State) : State := raise .use (startSequence w s)

/-- The start sequence for any word written to CMD (60_exceptions.md R185 step 3). -/
def beginWord (w : Word) (s : State) : State :=
  match decode w with
  | .ok i => beginCommand i s
  | .error _ => beginIllegal w s

/-- One phase of the running command (10_state.md R41): nothing but a CMD write leaves IDLE, and FAIL goes to IDLE through the completion
sequence. -/
def seqStep (s : State) : State :=
  match s.phase with
  | .idle => s
  | .fail k => completeFail k s
  | .iConv => phaseIConv s
  | .xXor => phaseXXor s
  | .mgf1 m => phaseMgf1 m s
  | .eCheck => phaseECheck s
  | .ePs => phaseEPs s
  | .eDb => phaseEDb s
  | .eSeed => phaseESeed s
  | .eDbMask m => phaseEDbMask m s
  | .eXorDb => phaseEXorDb s
  | .eSeedMask m => phaseESeedMask m s
  | .eXorSeed => phaseEXorSeed s
  | .eEmit => phaseEEmit s
  | .dCheck => phaseDCheck s
  | .dSplit => phaseDSplit s
  | .dSeedMask m => phaseDSeedMask m s
  | .dXorSeed => phaseDXorSeed s
  | .dDbMask m => phaseDDbMask m s
  | .dXorDb => phaseDXorDb s
  | .dLhash => phaseDLhash s
  | .dCmp => phaseDCmp s
  | .dScan => phaseDScan s
  | .dEmit => phaseDEmit s
  | .pCheck => phasePCheck s
  | .pDraw => phasePDraw s
  | .pFix => phasePFix s
  | .pEmit => phasePEmit s
  | .qLen => phaseQLen s
  | .qTag => phaseQTag s
  | .qScan => phaseQScan s
  | .qPs => phaseQPs s
  | .qEmit => phaseQEmit s
  | .kClr => phaseKClr s

/-- At most `n` phases, stopping when the command has completed. -/
def seqRun : Nat → State → State
  | 0, s => s
  | n + 1, s => if s.phase = .idle then s else seqRun n (seqStep s)

/-- How many phases one transition runs at most. Every command whose collaborators answer completes within it, but for a P15ENC that redraws
more than 3 * CAP octets, which later steps go on with (log entry 8, DESIGN CHOICE). -/
def phaseBudget (s : State) : Nat := 4 * s.cfg.cap + 64

/-- A whole command as one transition (10_state.md R40: "A model may therefore execute a command as one atomic transition"). Where a
collaborator does not answer the command is still running after it, and the bus stays held (70_reset_and_hazards.md R221). -/
def runCommand (i : Instr) (s : State) : State := seqRun (phaseBudget s) (beginCommand i s)

/-- An illegal word as one transition (30_encoding.md R94): "exactly the effects of the command start sequence and a UsageFault completion". -/
def runIllegal (w : Word) (s : State) : State := seqRun (phaseBudget s) (beginIllegal w s)

end Sys2Proof.Machine
end

