-- ==== Sys2Proof/Machine/Bus.lean ====
section
/-! DEFINITION. The host's side of the bus port (20_memory.md R60 to R73): which accesses the block accepts, what they do, and what the next
entry of the list of inputs leads to. -/

namespace Sys2Proof.Machine

/-- What an accepted access reaches (20_memory.md R61). -/
inductive Target where
  | reg (r : Reg)
  | buf (bf : Buf) (i : Nat)
deriving DecidableEq, Repr

/-- The size of the host space (20_memory.md R60). -/
def hostSpace : Nat := 0x8000

/-- The bus address of an offset (20_memory.md R67). -/
def busAddress (p : Params) (off : Nat) : Nat := p.base + off

/-- The offset of a bus address, if it is one of the block's (20_memory.md R60). -/
def offsetOf (p : Params) (addr : Nat) : Option Nat :=
  if p.base ≤ addr ∧ addr - p.base < hostSpace then some (addr - p.base) else none

/-- The buffer whose window holds an offset (20_memory.md R61). -/
def windowAt (off : Nat) : Option Buf :=
  match off / 0x1000 with
  | 1 => some .a
  | 2 => some .b
  | 3 => some .l
  | 4 => some .o
  | _ => none

/-- Which location an access of `width` bytes at an offset reaches, or why it is refused (20_memory.md R61, R66, R71; log entry 11). -/
def locate (p : Params) (off width : Nat) : Except BusErrorCause Target :=
  if off < 0x1000 then
    if width ≠ 4 then .error .width
    else if off % 4 ≠ 0 then .error .misaligned
    else
      match regAt off with
      | some r => .ok (.reg r)
      | none => .error .unmapped
  else if width ≠ 1 then .error .width
  else
    match windowAt off with
    | some bf => if off - bf.window < p.cap then .ok (.buf bf (off - bf.window)) else .error .unmapped
    | none => .error .unmapped

/-- Which location an access at a bus address reaches, or why it is refused. -/
def target (p : Params) (addr width : Nat) : Except BusErrorCause Target :=
  match offsetOf p addr with
  | some off => locate p off width
  | none => .error .outside

/-- A read (20_memory.md R62, R64): it returns a value and has no other effect. -/
def readTarget (t : Target) (s : State) : State :=
  match t with
  | .reg r => respond (.word (readReg s r)) s
  | .buf bf i => respond (.byte (bufRead s bf i)) s

/-- A write other than to CMD (20_memory.md R63, R65): a write to O is ignored, as is one to a read-only register. A byte write stores the low
eight bits of the data. -/
def writeTarget (t : Target) (v : Word) (s : State) : State :=
  match t with
  | .reg r => respond .done (writeReg r v s)
  | .buf .o _ => respond .done s
  | .buf bf i => respond .done (bufWrite bf i (v.extractLsb' 0 8) s)

/-- The state with the first entry of the list of inputs taken off. -/
def dropInput (s : State) : State := { s with bus := { s.bus with inputs := s.bus.inputs.tail } }

/-- What one step is to do. -/
inductive Action where
  /-- Go to a state. -/
  | goto (s : State)
  /-- Run the command word just written to CMD. -/
  | command (w : Word) (s : State)
  /-- There is no step: the access is refused. -/
  | refuse (cause : BusErrorCause) (addr width : Nat)
deriving DecidableEq, Repr

/-- Serve a read when the bus is free. -/
def serveRead (addr width : Nat) (s : State) : Action :=
  match target s.cfg addr width with
  | .ok t => .goto (readTarget t (dropInput s))
  | .error c => .refuse c addr width

/-- Serve a write when the bus is free: a write to CMD starts a command (20_memory.md R63). -/
def serveWrite (addr width : Nat) (v : Word) (s : State) : Action :=
  match target s.cfg addr width with
  | .ok (.reg .cmd) => .command v (dropInput s)
  | .ok t => .goto (writeTarget t v (dropInput s))
  | .error c => .refuse c addr width

/-- What the next step does: the environment's entries act at once; a bus access is served when the block is IDLE, and waits while a command
holds the bus, which then runs one more phase (20_memory.md R70, R73). With no input the block stays as it is, or the running command
runs one more phase (log entry 7). -/
def nextAction (s : State) : Action :=
  match s.bus.inputs with
  | [] => .goto (seqStep s)
  | .wait :: _ => .goto (seqStep (dropInput s))
  | .reset :: _ => .goto (resetBlock (dropInput s))
  | .exchange hashLen hashId hashKnown rhoId rhoAhead :: _ =>
    .goto (exchangeCollaborators hashLen hashId hashKnown rhoId rhoAhead (dropInput s))
  | .hashAnswers n :: _ => .goto { dropInput s with env := { s.env with hashAnswers := n } }
  | .randAnswers n :: _ => .goto { dropInput s with env := { s.env with randAnswers := n } }
  | .read addr width :: _ => if s.phase = .idle then serveRead addr width s else .goto (seqStep s)
  | .write addr width v :: _ => if s.phase = .idle then serveWrite addr width v s else .goto (seqStep s)
  | .cut w n :: _ =>
    if s.phase = .idle then .goto (resetBlock (seqRun n (beginWord w (dropInput s)))) else .goto (seqStep s)

/-- The state with a write of a word to CMD as what the host does next, the bus free. -/
def withCommandWrite (w : Word) (s : State) : State :=
  { s with
    phase := .idle
    bus := { s.bus with inputs := .write (busAddress s.cfg Reg.cmd.offset) 4 w :: s.bus.inputs } }

end Sys2Proof.Machine
end

