-- ==== Sys2Proof/Machine/Commands.lean ====
section
/-! DEFINITION. The meaning of each command: its start sequence and its phases, run to completion. What the phases do is in ByteVector,
Mgf1, Oaep, Pkcs1 and Control. -/

namespace Sys2Proof.Machine

/-- I2OSP (40_byte_vector.md R111). -/
def execI2osp (s : State) : Host.Outcome State Fault Refusal := .next (runCommand .i2osp s)

/-- XOR (40_byte_vector.md R113). -/
def execXor (s : State) : Host.Outcome State Fault Refusal := .next (runCommand .xor s)

/-- MGF1 (41_mgf1.md R123). -/
def execMgf1 (s : State) : Host.Outcome State Fault Refusal := .next (runCommand .mgf1 s)

/-- OAEPENC (42_oaep.md R130). -/
def execOaepenc (s : State) : Host.Outcome State Fault Refusal := .next (runCommand .oaepenc s)

/-- OAEPDEC (42_oaep.md R135). -/
def execOaepdec (s : State) : Host.Outcome State Fault Refusal := .next (runCommand .oaepdec s)

/-- P15ENC (43_pkcs1v15.md R150). -/
def execP15enc (s : State) : Host.Outcome State Fault Refusal := .next (runCommand .p15enc s)

/-- P15DEC (43_pkcs1v15.md R155). -/
def execP15dec (s : State) : Host.Outcome State Fault Refusal := .next (runCommand .p15dec s)

/-- CLR (44_control.md R170). -/
def execClr (s : State) : Host.Outcome State Fault Refusal := .next (runCommand .clr s)

end Sys2Proof.Machine
end

