-- ==== Sys2Proof/Machine/Dispatch.lean ====
section
/-! DEFINITION. One arm for each command of spec/opcode_table.json. -/

namespace Sys2Proof.Machine

def exec (i : Instr) (s : State) : Host.Outcome State Fault Refusal :=
  match i with
  | .i2osp => Sys2Proof.Machine.execI2osp s
  | .xor => Sys2Proof.Machine.execXor s
  | .mgf1 => Sys2Proof.Machine.execMgf1 s
  | .oaepenc => Sys2Proof.Machine.execOaepenc s
  | .oaepdec => Sys2Proof.Machine.execOaepdec s
  | .p15enc => Sys2Proof.Machine.execP15enc s
  | .p15dec => Sys2Proof.Machine.execP15dec s
  | .clr => Sys2Proof.Machine.execClr s

end Sys2Proof.Machine
end

