-- ==== Sys2Proof/Machine/Step.lean ====
section
/-! DEFINITION. One step of the machine: the next entry of the list of inputs, a CMD write running its whole command through `exec`. -/

namespace Sys2Proof.Machine

/-- One step. A word written to CMD is decoded (30_encoding.md R91): a legal one runs its command, an illegal one completes with UsageFault
(R94). A refused access has no step (20_memory.md R66). -/
def step (s : State) : Host.Outcome State Fault Refusal :=
  match nextAction s with
  | .goto t => .next t
  | .command w t =>
    match decode w with
    | .ok i => exec i t
    | .error _ => .next (runIllegal w t)
  | .refuse cause addr width => .refused (.busError cause addr width)

/-- The state whose next step takes the table's word as the command word: there is no instruction fetch (20_memory.md R76), a command is the
data of one CMD write (log entry 13). -/
def State.withFetchWord (s : State) (nbits w : Nat) : State := withCommandWrite (tableWord nbits w) s

end Sys2Proof.Machine
end

