-- ==== Sys2Proof/Safety.lean ====
section
/-! DEFINITION. The terms the claims use: what `mgf` returns and which events it makes, the states a command ends in, and the invariant that
every step keeps. -/

namespace Sys2Proof.Machine

/-! ### The mask and the event lists -/

/-- What `mgf(seed, length)` returns (41_mgf1.md R120), written without the pipeline: the digests of `seed || i2osp(C)` for `C = 0 ..
floor(length / hLen)` in counter order, cut to `length` octets. -/
def mask (e : Env) (h : Nat) (seed : Octets) (length : Nat) : Octets :=
  ((List.range (length / h + 1)).flatMap fun c => hashValue e (seed ++ i2ospOctets c)).take length

/-- The Hash events of `mgf(seed, length)`, in order (41_mgf1.md R121). -/
def maskEvents (h : Nat) (seed : Octets) (length : Nat) : List Event :=
  (List.range (length / h + 1)).map fun c => Event.hash (seed ++ i2ospOctets c)

/-- The environment after more events. -/
def Env.logged (e : Env) (evs : List Event) : Env := { e with events := e.events ++ evs }

/-- The collaborators answer every request (70_reset_and_hazards.md R212). -/
def Env.answersAll (e : Env) : Prop := e.hashAnswers = none ∧ e.randAnswers = none

/-- The same hash primitive and random source are attached (70_reset_and_hazards.md R212). -/
def Env.sameCollaborators (e e' : Env) : Prop :=
  e'.hashLen = e.hashLen ∧ e'.hashId = e.hashId ∧ e'.hashKnown = e.hashKnown ∧ e'.rhoId = e.rhoId

/-! ### How a command ends -/

/-- The state with hLen latched (10_state.md R33). -/
def withLatch (s : State) : State :=
  if s.hv then s
  else { s with hlen := BitVec.ofNat 32 s.env.hashLen, hv := true, env := s.env.logged [.digestSize] }

/-- The digest size is one the latch accepts: it has been latched, or the attached primitive's lies in `1..HMAX` (10_state.md R33). -/
def digestUsable (s : State) : Prop := s.hv = true ∨ (1 ≤ s.env.hashLen ∧ s.env.hashLen ≤ s.cfg.hmax)

/-- The latched digest size is the attached primitive's, and lies in `1..HMAX` (10_state.md R32). Part of `Inv`. -/
def latchAgrees (s : State) : Prop := s.hv = true → hLen s = s.env.hashLen ∧ 1 ≤ hLen s ∧ hLen s ≤ s.cfg.hmax

/-- The state a successful command `i` leaves (60_exceptions.md R185, R186), started in `s`, with result `r`, after the side-port events that
turn the environment into `e`. -/
def okState (i : Instr) (r : Octets) (e : Env) (s : State) : State :=
  { s with
    mem := (s.mem.clear 0x4000 s.cfg.cap).store 0x4000 r
    olen := BitVec.ofNat 32 r.length
    err := .ok
    lastOp := i.opcode
    scratch := Scratch.zero
    phase := .idle
    env := e
    bus := { s.bus with responses := s.bus.responses ++ [.done] } }

/-- The state a failed command leaves (60_exceptions.md R185, R186): LASTOP is `op`, the kind is `k`. -/
def failState (op : BitVec 8) (k : ErrKind) (e : Env) (s : State) : State :=
  { s with
    mem := s.mem.clear 0x4000 s.cfg.cap
    olen := 0
    err := k
    lastOp := op
    scratch := Scratch.zero
    phase := .idle
    env := e
    bus := { s.bus with responses := s.bus.responses ++ [.done] } }

/-- The octets of OAEPENC (42_oaep.md R130): `maskedSeed || maskedDB` for a seed, `h` being hLen. -/
def oaepEncoded (e : Env) (h : Nat) (lbl msg : Octets) (emLen : Nat) (seed : Octets) : Octets :=
  let db := hashValue e lbl ++ zeros (emLen - msg.length - 2 * h - 1) ++ [1] ++ msg
  let maskedDb := List.zipWith (· ^^^ ·) db (mask e h seed (emLen - h))
  List.zipWith (· ^^^ ·) seed (mask e h maskedDb h) ++ maskedDb

/-- The masked data block inside the octets of OAEPENC. -/
def oaepMaskedDb (e : Env) (h : Nat) (lbl msg : Octets) (emLen : Nat) (seed : Octets) : Octets :=
  List.zipWith (· ^^^ ·) (hashValue e lbl ++ zeros (emLen - msg.length - 2 * h - 1) ++ [1] ++ msg) (mask e h seed (emLen - h))

/-- The seed OAEPDEC recovers (42_oaep.md R135). -/
def oaepSeed (e : Env) (h : Nat) (em : Octets) : Octets :=
  List.zipWith (· ^^^ ·) (em.take h) (mask e h (em.drop h) h)

/-- The data block OAEPDEC recovers (42_oaep.md R135). -/
def oaepDataBlock (e : Env) (h : Nat) (em : Octets) : Octets :=
  List.zipWith (· ^^^ ·) (em.drop h) (mask e h (oaepSeed e h em) (em.length - h))

/-- The message OAEPDEC finds in a data block, or none (42_oaep.md R135, R136): the hash prefix agrees, and the message follows the first 0x01
after it. -/
def oaepMessage (h : Nat) (lHash db : Octets) : Option Octets :=
  if db.take h ≠ lHash then none
  else
    match (db.drop h).findIdx? (· == 1) with
    | none => none
    | some j => some (db.drop (h + j + 1))

/-- The message P15DEC finds in an encoded message, or none (43_pkcs1v15.md R155, R157): `s` is the index of the first 0x00, `PS = EM[1:s]`. -/
def p15Message (em : Octets) : Option Octets :=
  if em.length < 10 ∨ em.getD 0 0 ≠ 2 then none
  else
    match em.findIdx? (· == 0) with
    | none => none
    | some s => if ((em.take s).drop 1).length < 8 then none else some (em.drop (s + 1))

/-- The padding string of P15ENC (43_pkcs1v15.md R152) from the octets first drawn and the octets that follow them in `rho`: positions in ascending
order, a 0x00 replaced by the next non-zero octet. With it the number of further octets drawn; none if the given octets do not suffice. -/
def redraw : Octets → Octets → Option (Octets × Nat)
  | [], _ => some ([], 0)
  | x :: xs, later =>
    if x ≠ 0 then (redraw xs later).map fun r => (x :: r.1, r.2)
    else
      match later.dropWhile (· == 0) with
      | [] => none
      | y :: ys => (redraw xs ys).map fun r => (y :: r.1, (later.takeWhile (· == 0)).length + 1 + r.2)

/-- The length of the padding string of P15ENC (43_pkcs1v15.md R150), where the message fits. -/
def p15PsLen (s : State) : Nat := (emLength s).toNat - s.alen.toNat - 2

/-- The environment after P15ENC has drawn `n` octets at once and then `used` single ones (43_pkcs1v15.md R152). -/
def Env.afterPadding (e : Env) (n used : Nat) : Env :=
  { e with
    rhoAhead := e.rhoAhead.drop (n + used)
    rc := e.rc + (n + used)
    events := e.events ++ .rand n :: List.replicate used (.rand 1) }

/-! ### Phases and reset -/

/-- The phases that can follow each MGF1 phase (41_mgf1.md R122), and `after` the last. -/
def nextMgfPhases (here : MgfPhase → Phase) (after : Phase) : MgfPhase → List Phase
  | .init => [here .i2osp]
  | .i2osp => [here .hash]
  | .hash => [here .hash, here .append]
  | .append => [here .i2osp, here .trunc]
  | .trunc => [after]

/-- The phases that can follow each phase (44_control.md R172). M_HASH, E_DB, D_LHASH, E_SEED, P_DRAW and P_FIX can follow themselves: they wait for
their collaborator, and P_FIX is a loop. -/
def nextPhases : Phase → List Phase
  | .idle => [.idle]
  | .fail _ => [.idle]
  | .iConv | .xXor => [.idle, .fail .enc]
  | .mgf1 m => nextMgfPhases .mgf1 .idle m
  | .eCheck => [.ePs, .fail .enc]
  | .ePs => [.eDb]
  | .eDb => [.eDb, .eSeed]
  | .eSeed => [.eSeed, .eDbMask .init]
  | .eDbMask m => nextMgfPhases .eDbMask .eXorDb m
  | .eXorDb => [.eSeedMask .init]
  | .eSeedMask m => nextMgfPhases .eSeedMask .eXorSeed m
  | .eXorSeed => [.eEmit]
  | .eEmit => [.idle]
  | .dCheck => [.dSplit, .fail .dec]
  | .dSplit => [.dSeedMask .init]
  | .dSeedMask m => nextMgfPhases .dSeedMask .dXorSeed m
  | .dXorSeed => [.dDbMask .init]
  | .dDbMask m => nextMgfPhases .dDbMask .dXorDb m
  | .dXorDb => [.dLhash]
  | .dLhash => [.dLhash, .dCmp]
  | .dCmp => [.dScan]
  | .dScan => [.dEmit, .fail .dec]
  | .dEmit => [.idle]
  | .pCheck => [.pDraw, .fail .enc]
  | .pDraw => [.pDraw, .pFix]
  | .pFix => [.pFix, .pEmit]
  | .pEmit => [.idle]
  | .qLen => [.qTag, .fail .dec]
  | .qTag => [.qScan, .fail .dec]
  | .qScan => [.qPs, .fail .dec]
  | .qPs => [.qEmit, .fail .dec]
  | .qEmit => [.idle]
  | .kClr => [.idle]

/-- The environment and the host's list with other counts of answers (log entry 5) and another list: what inputs other than reset and an exchange do
to a running command. -/
def served (hashAnswers randAnswers : Option Nat) (inputs : List Input) (s : State) : State :=
  { s with
    env := { s.env with hashAnswers := hashAnswers, randAnswers := randAnswers }
    bus := { s.bus with inputs := inputs } }

/-- The states that command `i`, started in `s`, comes to: those between its phases, those after it, and those in which a collaborator has fallen
silent or answers again in the meantime (10_state.md R41, 70_reset_and_hazards.md R221). What `exec` leaves is one of them, and so is what every
later step leaves while no reset comes. -/
inductive Reaches (i : Instr) (s : State) : State → Prop where
  /-- The start sequence has run. -/
  | start : Reaches i s (beginCommand i s)
  /-- One phase more. -/
  | phase {t : State} : Reaches i s t → Reaches i s (seqStep t)
  /-- An input of the environment, or a `wait`, has been taken. -/
  | served {t : State} (hashAnswers randAnswers : Option Nat) (inputs : List Input) :
    Reaches i s t → Reaches i s (served hashAnswers randAnswers inputs t)

/-- Every piece of the block's state is at its reset value (10_state.md R43). -/
structure AtReset (s : State) : Prop where
  keybits : s.keybits = 0
  xlo : s.xlo = 0
  xhi : s.xhi = 0
  alen : s.alen = 0
  blen : s.blen = 0
  llen : s.llen = 0
  mlen : s.mlen = 0
  status : statusWord s = 0
  hlen : s.hlen = 0
  olen : s.olen = 0
  bytes : ∀ a, s.mem.read a = 0
  scratch : s.scratch = Scratch.zero
  phase : s.phase = .idle

/-! ### The invariant -/

/-- Which kinds a command can report (60_exceptions.md R181 to R184), by the opcode in LASTOP. -/
def kindFits (k : ErrKind) (op : BitVec 8) : Prop :=
  match k with
  | .ok => True
  | .enc => op = 1 ∨ op = 2 ∨ op = 4 ∨ op = 6
  | .dec => op = 5 ∨ op = 7
  | .use => True

/-- The pipeline's registers inside `mgf` with mask length `length` (41_mgf1.md R120, R121): `T` holds one digest for each counter done. -/
def MgfInv (length : Nat) (m : MgfPhase) (s : State) : Prop :=
  match m with
  | .init => True
  | .i2osp | .hash => s.scratch.n = length / hLen s + 1 ∧ s.scratch.c < s.scratch.n ∧ s.scratch.t.length = s.scratch.c * hLen s
  | .append =>
    s.scratch.n = length / hLen s + 1 ∧ s.scratch.c < s.scratch.n ∧ s.scratch.t.length = s.scratch.c * hLen s ∧
      s.scratch.d.length = hLen s
  | .trunc => s.scratch.t.length = (length / hLen s + 1) * hLen s

/-- What holds of every phase of OAEPENC: the command, the latch, and the capacity checks it has passed. -/
def EncRunning (s : State) : Prop :=
  s.lastOp = 4 ∧ s.hv = true ∧ s.alen.toNat ≤ s.cfg.cap ∧ s.llen.toNat ≤ s.cfg.cap ∧ emLength s ≤ (s.cfg.cap : Int)

/-- After E_CHECK: the lengths are those of 42_oaep.md R132. -/
def EncChecked (s : State) : Prop :=
  EncRunning s ∧ s.scratch.emLen = emLength s ∧ s.scratch.mLen = s.alen.toNat ∧ 2 * (hLen s : Int) + 1 ≤ emLength s ∧
    (s.alen.toNat : Int) ≤ emLength s - 2 * hLen s - 1

/-- What holds of every phase of OAEPDEC. -/
def DecRunning (s : State) : Prop :=
  s.lastOp = 5 ∧ s.hv = true ∧ s.alen.toNat ≤ s.cfg.cap ∧ s.llen.toNat ≤ s.cfg.cap

/-- After D_CHECK. -/
def DecChecked (s : State) : Prop := DecRunning s ∧ 2 * hLen s + 1 ≤ s.alen.toNat

/-- After D_SPLIT. -/
def DecSplit (s : State) : Prop :=
  DecChecked s ∧ s.scratch.maskedSeed.length = hLen s ∧ s.scratch.maskedDb.length = s.alen.toNat - hLen s

/-- What holds of every phase of P15ENC. -/
def P15Running (s : State) : Prop := s.lastOp = 6 ∧ s.alen.toNat ≤ s.cfg.cap ∧ emLength s ≤ (s.cfg.cap : Int)

/-- After P_CHECK. -/
def P15Checked (s : State) : Prop :=
  P15Running s ∧ s.scratch.emLen = emLength s ∧ s.scratch.mLen = s.alen.toNat ∧ (s.alen.toNat : Int) ≤ emLength s - 10

/-- After P_DRAW. -/
def P15Drawn (s : State) : Prop :=
  P15Checked s ∧ s.scratch.ps.length = s.scratch.psLen ∧ (s.scratch.psLen : Int) = emLength s - s.alen.toNat - 2

/-- What holds in each phase: the lengths the rules compute (42_oaep.md R132, 43_pkcs1v15.md R154) and the checks passed so far. -/
def PhaseInv (s : State) : Prop :=
  match s.phase with
  | .idle => True
  | .fail k => k ≠ .ok ∧ kindFits k s.lastOp
  | .iConv => s.lastOp = 1
  | .xXor => s.lastOp = 2 ∧ s.alen.toNat ≤ s.cfg.cap ∧ s.blen.toNat ≤ s.cfg.cap
  | .mgf1 m => s.lastOp = 3 ∧ s.hv = true ∧ s.alen.toNat ≤ s.cfg.cap ∧ maskLength s ≤ s.cfg.cap ∧ MgfInv (maskLength s) m s
  | .eCheck => EncRunning s
  | .ePs => EncChecked s
  | .eDb => EncChecked s ∧ (s.scratch.ps.length : Int) = emLength s - s.alen.toNat - 2 * hLen s - 1
  | .eSeed => EncChecked s ∧ (s.scratch.db.length : Int) = emLength s - hLen s
  | .eDbMask m =>
    EncChecked s ∧ (s.scratch.db.length : Int) = emLength s - hLen s ∧ s.scratch.seed.length = hLen s ∧
      MgfInv (emLength s - hLen s).toNat m s
  | .eXorDb =>
    EncChecked s ∧ (s.scratch.db.length : Int) = emLength s - hLen s ∧ s.scratch.seed.length = hLen s ∧
      (s.scratch.dbMask.length : Int) = emLength s - hLen s
  | .eSeedMask m =>
    EncChecked s ∧ s.scratch.seed.length = hLen s ∧ (s.scratch.maskedDb.length : Int) = emLength s - hLen s ∧ MgfInv (hLen s) m s
  | .eXorSeed =>
    EncChecked s ∧ s.scratch.seed.length = hLen s ∧ (s.scratch.maskedDb.length : Int) = emLength s - hLen s ∧
      s.scratch.seedMask.length = hLen s
  | .eEmit => EncChecked s ∧ (s.scratch.maskedDb.length : Int) = emLength s - hLen s ∧ s.scratch.maskedSeed.length = hLen s
  | .dCheck => DecRunning s
  | .dSplit => DecChecked s
  | .dSeedMask m => DecSplit s ∧ MgfInv (hLen s) m s
  | .dXorSeed => DecSplit s ∧ s.scratch.seedMask.length = hLen s
  | .dDbMask m => DecSplit s ∧ s.scratch.seed.length = hLen s ∧ MgfInv (s.alen.toNat - hLen s) m s
  | .dXorDb => DecSplit s ∧ s.scratch.dbMask.length = s.alen.toNat - hLen s
  | .dLhash | .dCmp | .dScan => DecSplit s ∧ s.scratch.db.length = s.alen.toNat - hLen s
  | .dEmit =>
    DecSplit s ∧ s.scratch.db.length = s.alen.toNat - hLen s ∧ s.scratch.hashOk = true ∧
      ∃ j, s.scratch.j = some j ∧ hLen s ≤ j ∧ j < s.scratch.db.length
  | .pCheck => P15Running s
  | .pDraw => P15Checked s
  | .pFix => P15Drawn s ∧ s.scratch.i ≤ s.scratch.psLen ∧ ∀ k < s.scratch.i, s.scratch.ps.getD k 0 ≠ 0
  | .pEmit => P15Drawn s ∧ ∀ k < s.scratch.psLen, s.scratch.ps.getD k 0 ≠ 0
  | .qLen => s.lastOp = 7 ∧ s.alen.toNat ≤ s.cfg.cap
  | .qTag => s.lastOp = 7 ∧ s.alen.toNat ≤ s.cfg.cap ∧ 10 ≤ s.alen.toNat
  | .qScan => s.lastOp = 7 ∧ s.alen.toNat ≤ s.cfg.cap ∧ 10 ≤ s.alen.toNat
  | .qPs | .qEmit =>
    s.lastOp = 7 ∧ s.alen.toNat ≤ s.cfg.cap ∧ 10 ≤ s.alen.toNat ∧ ∃ k, s.scratch.sep = some k ∧ k < s.alen.toNat
  | .kClr => s.lastOp = 8

/-- The offset belongs to one of the four buffers (20_memory.md R61). -/
def inBuffers (cap off : Nat) : Prop := ∃ bf : Buf, bf.window ≤ off ∧ off < bf.window + cap

/-- The invariant of the machine. -/
structure Inv (s : State) : Prop where
  /-- The parameters lie in their ranges (00_scope.md R7 to R9). -/
  cfg : s.cfg.wf = true
  /-- The four octets of I2OSP fit in O (log entry 17): OLEN "in `0..CAP`" (10_state.md R34) and OLEN = 4 (40_byte_vector.md R111) hold together
  for no smaller CAP. -/
  room : 4 ≤ s.cfg.cap
  /-- The memory is in canonical form (log entry 14). -/
  memWf : s.mem.wf = true
  /-- Nothing is stored outside the buffers (20_memory.md R61). -/
  mapped : ∀ c ∈ s.mem, inBuffers s.cfg.cap c.1
  /-- HLEN is a digest size in `1..HMAX` while HV = 1 (10_state.md R32), the attached primitive's (00_scope.md R6). -/
  latched : latchAgrees s
  /-- HLEN reads 0 while HV = 0 (10_state.md R32). -/
  unlatched : s.hv = false → s.hlen = 0
  /-- OLEN is in `0..CAP` (10_state.md R34). -/
  olenCap : s.olen.toNat ≤ s.cfg.cap
  /-- "`buf[O][i] = 0x00` for every `i >= x[OLEN]` at all times" (10_state.md R36). -/
  oTail : ∀ i, s.olen.toNat ≤ i → i < s.cfg.cap → bufRead s .o i = 0
  /-- OLEN is 0 after a failure (10_state.md R34, 60_exceptions.md R187). -/
  failed : s.err ≠ .ok → s.olen = 0
  /-- The kind is one the last command can report (60_exceptions.md R181, R182). -/
  kind : s.phase = .idle → kindFits s.err s.lastOp
  /-- All scratch is zero between commands (10_state.md R38). -/
  idleScratch : s.phase = .idle → s.scratch = Scratch.zero
  /-- OLEN is 0 while a command runs (60_exceptions.md R185). -/
  running : s.phase ≠ .idle → s.olen = 0
  /-- What holds in the phase the sequencer is in. -/
  phase : PhaseInv s

end Sys2Proof.Machine
end

