-- ==== Sys2Proof/Certificates/Slice0/Obligations.lean ====
section
/-! DEFINITION. The statements about the machine, one definition each; OBLIGATIONS.json lists them with the rules they come from. -/

open Sys2Proof Sys2Proof.Machine

/-! ### Encoding -/

/-- 30_encoding.md R91, R92: the decoder reads back every command's word. -/
def Obligations.DecodeReadsEncodedWords : Prop :=
  ∀ i : Instr, i.wf = true ∧ decode (encode i) = .ok i ∧ decodeTableWord 32 (encode i).toNat = some i

/-- 30_encoding.md R92: a word selects a row when it equals the row's `match` (the mask is 0xFFFFFFFF), so decode and encode agree in both
directions on all 2^32 words. -/
def Obligations.WordsSelectTheirRows : Prop :=
  (∀ (w : Word) (i : Instr), decode w = .ok i ↔ w &&& 0xFFFFFFFF#32 = encode i) ∧
    encode .i2osp = 0x00000001#32 ∧ encode .xor = 0x00000002#32 ∧ encode .mgf1 = 0x00000003#32 ∧ encode .oaepenc = 0x00000004#32 ∧
    encode .oaepdec = 0x00000005#32 ∧ encode .p15enc = 0x00000006#32 ∧ encode .p15dec = 0x00000007#32 ∧ encode .clr = 0x00000008#32

/-- 30_encoding.md R92: words written out bit by bit, RSV in bits 31:8 and OP in bits 7:0. -/
def Obligations.TableWordsBitByBit : Prop :=
  decode 0b000000000000000000000000_00000001#32 = .ok .i2osp ∧ decode 0b000000000000000000000000_00000011#32 = .ok .mgf1 ∧
    decode 0b000000000000000000000000_00000100#32 = .ok .oaepenc ∧ decode 0b000000000000000000000000_00000111#32 = .ok .p15dec ∧
    decode 0b000000000000000000000000_00001000#32 = .ok .clr

/-- 30_encoding.md R94: which words are illegal, and that one has exactly the effects of the start sequence and a UsageFault completion: no
side-port event (the environment is unchanged), the result cleared, LASTOP written. -/
def Obligations.IllegalWordsRaiseUsageFault : Prop :=
  (∀ w : Word, (∃ e, decode w = .error e) ↔
    (w.extractLsb' 8 24 ≠ 0#24 ∨ w.extractLsb' 0 8 = 0x00#8 ∨ 0x09 ≤ (w.extractLsb' 0 8).toNat)) ∧
    ∀ (s : State) (w : Word) (rest : List Input), s.phase = .idle → (∃ e, decode w = .error e) →
      s.bus.inputs = .write s.cfg.base 4 w :: rest →
      step s = .next (failState (w.extractLsb' 0 8) .use s.env { s with bus := { s.bus with inputs := rest } })

/-! ### The step -/

/-- A step runs the decoded command: a CMD write of a legal word, with the bus free, is `exec` of the command on the state with the write taken off
the list of inputs (20_memory.md R63, R76); `withFetchWord` sets up exactly that. -/
def Obligations.StepRunsWrittenCommand : Prop :=
  (∀ (s : State) (i : Instr) (w : Word) (rest : List Input), s.phase = .idle → decode w = .ok i →
    s.bus.inputs = .write s.cfg.base 4 w :: rest → step s = exec i { s with bus := { s.bus with inputs := rest } }) ∧
    ∀ (s : State) (i : Instr) (nbits w : Nat), decodeTableWord nbits w = some i →
      step (s.withFetchWord nbits w) = exec i { s with phase := .idle }

/-- Nothing but a refused bus access has no step: a step never faults, and it is refused only when the block is IDLE and the next entry is a read or a
write (20_memory.md R66). -/
def Obligations.OnlyRefusedAccessesStop : Prop :=
  ∀ s : State, (∃ t, step s = .next t) ∨
    (s.phase = .idle ∧ ∃ addr width c, step s = .refused (.busError c addr width) ∧
      ∃ rest, s.bus.inputs = .read addr width :: rest ∨ ∃ v, s.bus.inputs = .write addr width v :: rest)

/-- 20_memory.md R66: exactly which accesses to the block's 0x8000 bytes are refused; such an access has no step. -/
def Obligations.RefusedAccesses : Prop :=
  ∀ (s : State) (off width : Nat) (v : Word) (rest : List Input), s.phase = .idle → off < 0x8000 →
    (s.bus.inputs = .read (s.cfg.base + off) width :: rest ∨ s.bus.inputs = .write (s.cfg.base + off) width v :: rest) →
    ((∃ c, step s = .refused (.busError c (s.cfg.base + off) width)) ↔
      ((off < 0x1000 ∧ width ≠ 4) ∨ (width = 4 ∧ off % 4 ≠ 0) ∨ (0x1000 ≤ off ∧ width ≠ 1) ∨ (0x002C ≤ off ∧ off < 0x1000) ∨
        0x5000 ≤ off ∨ (0x1000 ≤ off ∧ s.cfg.cap ≤ off % 0x1000)))

/-- 20_memory.md R62: a register read returns the register's value and has no other effect. -/
def Obligations.RegisterReads : Prop :=
  ∀ (s : State) (off : Nat) (v : Word) (rest : List Input), s.phase = .idle →
    (off, v) ∈ [(0x000, 0), (0x004, statusWord s), (0x008, s.hlen), (0x00C, s.olen), (0x010, s.keybits), (0x014, s.xlo), (0x018, s.xhi),
      (0x01C, s.alen), (0x020, s.blen), (0x024, s.llen), (0x028, s.mlen)] →
    s.bus.inputs = .read (s.cfg.base + off) 4 :: rest →
    step s = .next { s with bus := { inputs := rest, responses := s.bus.responses ++ [.word v] } }

/-- 20_memory.md R63: an operand register stores all 32 bits and nothing else changes; a write to STATUS, HLEN or OLEN changes nothing; a write to CMD
runs the command. -/
def Obligations.RegisterWrites : Prop :=
  ∀ (s : State) (off : Nat) (v : Word) (rest : List Input), s.phase = .idle → s.bus.inputs = .write (s.cfg.base + off) 4 v :: rest →
    let t := { s with bus := { inputs := rest, responses := s.bus.responses ++ [Response.done] } }
    (off = 0x010 → step s = .next { t with keybits := v }) ∧ (off = 0x014 → step s = .next { t with xlo := v }) ∧
    (off = 0x018 → step s = .next { t with xhi := v }) ∧ (off = 0x01C → step s = .next { t with alen := v }) ∧
    (off = 0x020 → step s = .next { t with blen := v }) ∧ (off = 0x024 → step s = .next { t with llen := v }) ∧
    (off = 0x028 → step s = .next { t with mlen := v }) ∧ (off = 0x004 ∨ off = 0x008 ∨ off = 0x00C → step s = .next t) ∧
    (off = 0x000 → step s = match decode v with
      | .ok i => exec i { s with bus := { s.bus with inputs := rest } }
      | .error _ => .next (failState (v.extractLsb' 0 8) .use s.env { s with bus := { s.bus with inputs := rest } }))

/-- 20_memory.md R64: a buffer read returns the byte and has no other effect, whatever the length registers hold; a byte of O at or beyond OLEN
reads 0x00 (10_state.md R36). -/
def Obligations.BufferReads : Prop :=
  ∀ (s : State) (w i : Nat) (rest : List Input), s.phase = .idle → s.cfg.wf = true → w ∈ [0x1000, 0x2000, 0x3000, 0x4000] →
    i < s.cfg.cap →
    s.bus.inputs = .read (s.cfg.base + (w + i)) 1 :: rest →
    step s = .next { s with bus := { inputs := rest, responses := s.bus.responses ++ [.byte (s.mem.read (w + i))] } } ∧
      (Inv s → w = 0x4000 → s.olen.toNat ≤ i → s.mem.read (w + i) = 0)

/-- 20_memory.md R65: a buffer write stores the byte in A, B or L and changes nothing else; in O it does nothing. -/
def Obligations.BufferWrites : Prop :=
  ∀ (s : State) (w i : Nat) (v : Word) (rest : List Input), s.phase = .idle → s.cfg.wf = true → s.mem.wf = true → i < s.cfg.cap →
    s.bus.inputs = .write (s.cfg.base + (w + i)) 1 v :: rest →
    let t := { s with bus := { inputs := rest, responses := s.bus.responses ++ [Response.done] } }
    (w ∈ [0x1000, 0x2000, 0x3000] → ∃ m, step s = .next { t with mem := m } ∧ m.wf = true ∧
      ∀ a, m.read a = if a = w + i then v.extractLsb' 0 8 else s.mem.read a) ∧
    (w = 0x4000 → step s = .next t)

/-- 20_memory.md R70: while a command runs, the block accepts no access: a step with an access at the head of the host's list, with an empty list, or
with a `wait` (which is taken off; log entry 7, DESIGN CHOICE, for the last two) is one phase of the command and leaves the rest of the list as it
is; the CMD write gets its one response exactly when the command completes. -/
def Obligations.CommandHoldsBus : Prop :=
  ∀ s s' : State, s.phase ≠ .idle →
    (s' = s ∧ (s.bus.inputs = [] ∨ ∃ rest, (∃ addr width, s.bus.inputs = .read addr width :: rest) ∨
        (∃ addr width v, s.bus.inputs = .write addr width v :: rest) ∨ ∃ w n, s.bus.inputs = .cut w n :: rest)) ∨
      (∃ rest, s.bus.inputs = .wait :: rest ∧ s' = { s with bus := { s.bus with inputs := rest } }) →
    step s = .next (seqStep s') ∧ (seqStep s').bus.inputs = s'.bus.inputs ∧
      (((seqStep s').phase ≠ .idle ∧ (seqStep s').bus.responses = s.bus.responses) ∨
        ((seqStep s').phase = .idle ∧ (seqStep s').bus.responses = s.bus.responses ++ [.done]))

/-! ### Reset -/

/-- 10_state.md R43 and 70_reset_and_hazards.md R210: reset, in any phase, puts every piece of the block's state at its reset value and does not touch the
collaborators. Two clauses are the model's choice (log entry 10, DESIGN CHOICE), not the spec's: that the responses stay as they are, so that the
abandoned CMD write gets none, and the whole second part, on `cut`, the model's input for reset after `n` phases of a command that a CMD write has
just started. -/
def Obligations.ResetInput : Prop :=
  (∀ (s : State) (rest : List Input), s.bus.inputs = .reset :: rest →
    ∃ t, step s = .next t ∧ AtReset t ∧ t.env = s.env ∧ t.cfg = s.cfg ∧ t.bus = { s.bus with inputs := rest }) ∧
    ∀ (s : State) (w : Word) (n : Nat) (rest : List Input), s.phase = .idle → s.bus.inputs = .cut w n :: rest →
      ∃ t, step s = .next t ∧ AtReset t ∧ s.env.sameCollaborators t.env ∧ t.cfg = s.cfg ∧
        t.env = (seqRun n (beginWord w { s with bus := { s.bus with inputs := rest } })).env

/-- 10_state.md R43: the reset values; the defaults of the parameters are 00_scope.md R7 and R8 and the source's HASHLEN is R6. -/
def Obligations.ResetValues : Prop :=
  AtReset State.reset ∧ State.reset.cfg.cap = 4096 ∧ State.reset.cfg.hmax = 64 ∧ State.reset.env.hashLen = 20

/-- 70_reset_and_hazards.md R212: the collaborators are exchanged by nothing but an exchange under reset, after which the block is at its reset
values. -/
def Obligations.CollaboratorsExchangedUnderResetOnly : Prop :=
  ∀ s t : State, step s = .next t → s.env.sameCollaborators t.env ∨
    ((∃ n i k r a rest, s.bus.inputs = .exchange n i k r a :: rest) ∧ AtReset t)

/-- The parameters are constants of the machine (log entry 1, DESIGN CHOICE): no step writes them. -/
def Obligations.ParametersNeverChange : Prop := ∀ s t : State, step s = .next t → t.cfg = s.cfg

/-! ### I2OSP, XOR, CLR -/

/-- 40_byte_vector.md R111 with R110: the four octets of `x`, most significant first, when XHI is 0; EncodingError exactly when it is not. -/
def Obligations.I2ospResult : Prop :=
  ∀ s : State, exec .i2osp s = .next
    (if s.xhi = 0 then
      okState .i2osp [s.xlo.extractLsb' 24 8, s.xlo.extractLsb' 16 8, s.xlo.extractLsb' 8 8, s.xlo.extractLsb' 0 8] s.env s
    else failState 0x01 .enc s.env s)

/-- 40_byte_vector.md R113: the pointwise exclusive-or of A and B; EncodingError exactly when the lengths differ; UsageFault when one exceeds CAP. -/
def Obligations.XorResult : Prop :=
  ∀ s : State, s.cfg.wf = true → exec .xor s = .next
    (if s.cfg.cap < s.alen.toNat ∨ s.cfg.cap < s.blen.toNat then failState 0x02 .use s.env s
    else if s.alen = s.blen then
      okState .xor ((List.range s.alen.toNat).map fun i => s.mem.read (0x1000 + i) ^^^ s.mem.read (0x2000 + i)) s.env s
    else failState 0x02 .enc s.env s)

/-- 40_byte_vector.md R112: `xor` fails exactly on a length mismatch; its result is pointwise; applied twice it gives the first operand back. -/
def Obligations.XorLaws : Prop :=
  (∀ a b : Octets, xorOctets a b = none ↔ a.length ≠ b.length) ∧
    ∀ a b : Octets, a.length = b.length → ∃ c, xorOctets a b = some c ∧ c.length = a.length ∧
      (∀ i < a.length, c.getD i 0 = a.getD i 0 ^^^ b.getD i 0) ∧ xorOctets c b = some a

/-- 44_control.md R170: CLR clears the four buffers and every operand register; HLEN, HV, the parameters and the environment are as they were. -/
def Obligations.ClrResult : Prop :=
  ∀ s : State, exec .clr s = .next
    { s with
      mem := (((s.mem.clear 0x4000 s.cfg.cap).clear 0x1000 s.cfg.cap).clear 0x2000 s.cfg.cap).clear 0x3000 s.cfg.cap
      keybits := 0, xlo := 0, xhi := 0, alen := 0, blen := 0, llen := 0, mlen := 0, olen := 0, err := .ok, lastOp := 0x08
      scratch := Scratch.zero, phase := .idle, bus := { s.bus with responses := s.bus.responses ++ [.done] } }

/-- 44_control.md R170, as the host sees it: STATUS is `0x00000800 | (HV << 2)`, and every byte of the buffers reads 0x00 while every other offset
reads as before. -/
def Obligations.ClrLeavesBuffersZero : Prop :=
  ∀ s : State, s.cfg.wf = true → ∃ t, exec .clr s = .next t ∧ statusWord t = (if s.hv then 0x00000804#32 else 0x00000800#32) ∧
    t.olen = 0 ∧ t.hlen = s.hlen ∧ t.hv = s.hv ∧ t.env = s.env ∧
    (∀ w ∈ [0x1000, 0x2000, 0x3000, 0x4000], ∀ i < s.cfg.cap, t.mem.read (w + i) = 0) ∧
    ∀ a, (∀ w ∈ [0x1000, 0x2000, 0x3000, 0x4000], ¬ (w ≤ a ∧ a < w + s.cfg.cap)) → t.mem.read a = s.mem.read a

/-! ### MGF1 -/

/-- 41_mgf1.md R123: the mask of MLEN octets and its `floor(length / hLen) + 1` Hash events in counter order (R121), after the latch of
10_state.md R33; UsageFault for the capacity and for the digest size. -/
def Obligations.Mgf1Result : Prop :=
  ∀ s : State, s.cfg.wf = true → latchAgrees s → s.env.hashAnswers = none →
    exec .mgf1 s = .next
      (if s.cfg.cap < s.alen.toNat ∨ s.cfg.cap < s.mlen.toNat then failState 0x03 .use s.env s
      else if s.hv = false ∧ (s.env.hashLen < 1 ∨ s.cfg.hmax < s.env.hashLen) then failState 0x03 .use (s.env.logged [.digestSize]) s
      else
        okState .mgf1 (mask s.env s.env.hashLen (operandA s) s.mlen.toNat)
          ((withLatch s).env.logged (maskEvents s.env.hashLen (operandA s) s.mlen.toNat)) (withLatch s))

/-- 41_mgf1.md R120: octet `i` of the result is octet `i mod hLen` of the digest of the seed followed by the counter `floor(i / hLen)` as four octets,
most significant first. -/
def Obligations.Mgf1Octets : Prop :=
  ∀ s : State, s.cfg.wf = true → s.mem.wf = true → latchAgrees s → digestUsable s → s.env.hashAnswers = none →
    s.alen.toNat ≤ s.cfg.cap → s.mlen.toNat ≤ s.cfg.cap →
    ∃ t, exec .mgf1 s = .next t ∧ t.err = .ok ∧ t.olen = s.mlen ∧ ∀ i < s.mlen.toNat, t.mem.read (0x4000 + i) =
      (hashValue s.env (operandA s ++ (List.range 4).map fun b => BitVec.ofNat 8 (i / s.env.hashLen / 256 ^ (3 - b) % 256))).getD
        (i % s.env.hashLen) 0

/-- 41_mgf1.md R124 (a) to (c): the length, the law that a shorter mask from the same seed begins the longer one, and that no random octet is
drawn. -/
def Obligations.Mgf1PrefixLaw : Prop :=
  ∀ (s : State) (m1 m2 : Word), s.cfg.wf = true → s.mem.wf = true → latchAgrees s → digestUsable s → s.env.hashAnswers = none →
    s.alen.toNat ≤ s.cfg.cap → m2.toNat ≤ s.cfg.cap → m1.toNat ≤ m2.toNat →
    ∃ t1 t2, exec .mgf1 { s with mlen := m1 } = .next t1 ∧ exec .mgf1 { s with mlen := m2 } = .next t2 ∧
      (result t1).length = m1.toNat ∧ (result t2).length = m2.toNat ∧ result t1 = (result t2).take m1.toNat ∧
      t1.env.rc = s.env.rc ∧ t2.env.rc = s.env.rc

/-! ### OAEP -/

/-- 42_oaep.md R130: the encoding, its events in order, `hLen` random octets; EncodingError exactly when the message is too long for the key (R131);
UsageFault for the capacity and for the digest size. -/
def Obligations.OaepEncodeResult : Prop :=
  ∀ s : State, s.cfg.wf = true → latchAgrees s → s.env.answersAll →
    let h := s.env.hashLen
    let em := (emLength s).toNat
    let seed := rhoNext s.env h
    exec .oaepenc s = .next
      (if s.cfg.cap < s.alen.toNat ∨ s.cfg.cap < s.llen.toNat ∨ (s.cfg.cap : Int) < emLength s then failState 0x04 .use s.env s
      else if s.hv = false ∧ (h < 1 ∨ s.cfg.hmax < h) then failState 0x04 .use (s.env.logged [.digestSize]) s
      else if (s.alen.toNat : Int) > emLength s - 2 * h - 1 ∨ emLength s < 2 * h + 1 then
        failState 0x04 .enc (withLatch s).env (withLatch s)
      else
        okState .oaepenc (oaepEncoded s.env h (label s) (operandA s) em seed)
          ((((withLatch s).env.logged [.hash (label s)]).afterRand h).logged
            (maskEvents h seed (em - h) ++ maskEvents h (oaepMaskedDb s.env h (label s) (operandA s) em seed) h)) (withLatch s))

/-- 42_oaep.md R131: past the capacity and digest-size checks, the accepted set is exactly `0 <= mLen <= emLen - 2*hLen - 1`. -/
def Obligations.OaepEncodeAcceptedLengths : Prop :=
  ∀ s : State, s.cfg.wf = true → latchAgrees s → digestUsable s → s.env.answersAll → s.alen.toNat ≤ s.cfg.cap →
    s.llen.toNat ≤ s.cfg.cap → emLength s ≤ (s.cfg.cap : Int) →
    ∃ t, exec .oaepenc s = .next t ∧ t.phase = .idle ∧
      (t.err = .ok ↔ (s.alen.toNat : Int) ≤ emLength s - 2 * s.env.hashLen - 1) ∧ (t.err = .enc ↔ t.err ≠ .ok)

/-- 42_oaep.md R135: the decoding, its events in order; DecodingError for a short EM (no Hash event then), a label-hash mismatch or a missing
separator; UsageFault for the capacity and for the digest size. -/
def Obligations.OaepDecodeResult : Prop :=
  ∀ s : State, s.cfg.wf = true → latchAgrees s → s.env.hashAnswers = none →
    let h := s.env.hashLen
    let em := operandA s
    let e := (withLatch s).env.logged
      (maskEvents h (em.drop h) h ++ maskEvents h (oaepSeed s.env h em) (em.length - h) ++ [.hash (label s)])
    exec .oaepdec s = .next
      (if s.cfg.cap < s.alen.toNat ∨ s.cfg.cap < s.llen.toNat then failState 0x05 .use s.env s
      else if s.hv = false ∧ (h < 1 ∨ s.cfg.hmax < h) then failState 0x05 .use (s.env.logged [.digestSize]) s
      else if s.alen.toNat < 2 * h + 1 then failState 0x05 .dec (withLatch s).env (withLatch s)
      else
        match oaepMessage h (hashValue s.env (label s)) (oaepDataBlock s.env h em) with
        | some m => okState .oaepdec m e (withLatch s)
        | none => failState 0x05 .dec e (withLatch s))

/-- 42_oaep.md R138 (and 43_pkcs1v15.md R155 for P15DEC): whatever check fails, and in whatever step, a failed decode leaves the one failure state; it
depends on the failing check through nothing but the record of the side ports. -/
def Obligations.DecodeFailuresLookAlike : Prop :=
  ∀ (i : Instr) (s t : State), (i = .oaepdec ∨ i = .p15dec) → t.phase = .idle → t.err = .dec →
    let u := if i = .oaepdec then withLatch s else s
    (exec i s = .next t → t = failState i.opcode .dec t.env u) ∧
      (Reaches i s t → t = failState i.opcode .dec t.env { u with bus := { u.bus with inputs := t.bus.inputs } })

/-- 42_oaep.md R139 (a): what OAEPENC encodes, OAEPDEC decodes with the same label, for every `rho` and every `H`. -/
def Obligations.OaepRoundTrip : Prop :=
  ∀ s t s' : State, Inv s → s.phase = .idle → s.env.answersAll → exec .oaepenc s = .next t → t.err = .ok →
    Inv s' → s'.phase = .idle → digestUsable s' → s'.env.hashAnswers = none → s'.cfg = s.cfg → s.env.sameCollaborators s'.env →
    operandA s' = result t → label s' = label s →
    ∃ t', exec .oaepdec s' = .next t' ∧ t'.phase = .idle ∧ t'.err = .ok ∧ result t' = operandA s

/-- 42_oaep.md R139 (b): with a label of another digest the decode fails with DecodingError. -/
def Obligations.OaepWrongLabelFails : Prop :=
  ∀ s t s' : State, Inv s → s.phase = .idle → s.env.answersAll → exec .oaepenc s = .next t → t.err = .ok →
    Inv s' → s'.phase = .idle → digestUsable s' → s'.env.hashAnswers = none → s'.cfg = s.cfg → s.env.sameCollaborators s'.env →
    operandA s' = result t → s'.llen.toNat ≤ s'.cfg.cap → hashValue s.env (label s') ≠ hashValue s.env (label s) →
    ∃ t', exec .oaepdec s' = .next t' ∧ t'.phase = .idle ∧ t'.err = .dec ∧ t'.olen = 0

/-! ### PKCS1-v1.5 -/

/-- 43_pkcs1v15.md R150, R152: the encoding, for every `rho` in which the `m` octets after the first draw hold enough non-zero ones: the command
completes after a number of phases that depends on the octets drawn. That `exec` completes it in one transition when `used ≤ 3 * CAP` is the
model's choice (log entry 8, DESIGN CHOICE), not the spec's. EncodingError exactly when the message is too long (R151), with no Rand event;
UsageFault for the capacity. -/
def Obligations.P15EncodeResult : Prop :=
  ∀ s : State, s.cfg.wf = true →
    (s.cfg.cap < s.alen.toNat ∨ (s.cfg.cap : Int) < emLength s → exec .p15enc s = .next (failState 0x06 .use s.env s)) ∧
    (s.alen.toNat ≤ s.cfg.cap → emLength s ≤ (s.cfg.cap : Int) → (s.alen.toNat : Int) > emLength s - 10 →
      exec .p15enc s = .next (failState 0x06 .enc s.env s)) ∧
    ∀ (m : Nat) (ps : Octets) (used : Nat), s.alen.toNat ≤ s.cfg.cap → emLength s ≤ (s.cfg.cap : Int) →
      (s.alen.toNat : Int) ≤ emLength s - 10 → s.env.randAnswers = none →
      redraw (rhoNext s.env (p15PsLen s)) ((rhoNext s.env (p15PsLen s + m)).drop (p15PsLen s)) = some (ps, used) →
      let t := okState .p15enc ([2] ++ ps ++ [0] ++ operandA s) (s.env.afterPadding (p15PsLen s) used) s
      seqRun (p15PsLen s + used + 4) (beginCommand .p15enc s) = t ∧ (used ≤ 3 * s.cfg.cap → exec .p15enc s = .next t)

/-- 43_pkcs1v15.md R154: the layout of every EM that P15ENC completes with, in whatever step it completes, for every `rho`. -/
def Obligations.P15EncodedLayout : Prop :=
  ∀ s t : State, Inv s → s.phase = .idle → Reaches .p15enc s t → t.phase = .idle → t.err = .ok →
    (t.olen.toNat : Int) = emLength s ∧ t.olen.toNat = 1 + p15PsLen s + 1 + s.alen.toNat ∧ 8 ≤ p15PsLen s ∧ t.mem.read 0x4000 = 0x02 ∧
    (∀ k < p15PsLen s, t.mem.read (0x4000 + (1 + k)) ≠ 0x00) ∧ t.mem.read (0x4000 + (1 + p15PsLen s)) = 0x00 ∧
    ∀ k < s.alen.toNat, t.mem.read (0x4000 + (2 + p15PsLen s + k)) = s.mem.read (0x1000 + k)

/-- 43_pkcs1v15.md R155: the decoding; DecodingError from any of the four checks; UsageFault for the capacity; no event. -/
def Obligations.P15DecodeResult : Prop :=
  ∀ s : State, s.cfg.wf = true → exec .p15dec s = .next
    (if s.cfg.cap < s.alen.toNat then failState 0x07 .use s.env s
    else
      match p15Message (operandA s) with
      | some m => okState .p15dec m s.env s
      | none => failState 0x07 .dec s.env s)

/-- 43_pkcs1v15.md R158 (a): what P15ENC encodes, in whatever step it completes, P15DEC decodes. -/
def Obligations.P15RoundTrip : Prop :=
  ∀ s t s' : State, Inv s → s.phase = .idle → Reaches .p15enc s t → t.phase = .idle → t.err = .ok →
    s'.cfg = s.cfg → s'.mem.wf = true → operandA s' = result t →
    ∃ t', exec .p15dec s' = .next t' ∧ t'.phase = .idle ∧ t'.err = .ok ∧ result t' = operandA s

/-! ### Status, failures and frames -/

/-- 10_state.md R28: the fields of STATUS as it reads, their codes, that it resets to 0 and that a write to it changes nothing. -/
def Obligations.StatusFields : Prop :=
  statusWord State.reset = 0#32 ∧
    ∀ s : State, (statusWord s).extractLsb' 0 2 = s.err.code ∧ (statusWord s).extractLsb' 2 1 = BitVec.ofBool s.hv ∧
      (statusWord s).extractLsb' 3 5 = 0#5 ∧ (statusWord s).extractLsb' 8 8 = s.lastOp ∧ (statusWord s).extractLsb' 16 16 = 0#16 ∧
      ErrKind.code .ok = 0#2 ∧ ErrKind.code .enc = 1#2 ∧ ErrKind.code .dec = 2#2 ∧ ErrKind.code .use = 3#2 ∧
      ∀ (v : Word) (rest : List Input), s.phase = .idle → s.bus.inputs = .write (s.cfg.base + 0x004) 4 v :: rest →
        step s = .next { s with bus := { inputs := rest, responses := s.bus.responses ++ [.done] } }

/-- 60_exceptions.md R184: a command that completes, in whatever step, reports UsageFault exactly under the conditions of the table; an illegal word
always does. -/
def Obligations.UsageFaultsExactly : Prop :=
  (∀ (w : Word) (s : State) (e : DecodeError), decode w = .error e → (runIllegal w s).phase = .idle ∧ (runIllegal w s).err = .use) ∧
    ∀ (i : Instr) (s t : State), exec i s = .next t ∨ Reaches i s t → t.phase = .idle →
      let digest := s.hv = false ∧ (s.env.hashLen < 1 ∨ s.cfg.hmax < s.env.hashLen)
      (t.err = .use ↔
        match i with
        | .i2osp | .clr => False
        | .xor => s.cfg.cap < s.alen.toNat ∨ s.cfg.cap < s.blen.toNat
        | .mgf1 => s.cfg.cap < s.alen.toNat ∨ s.cfg.cap < s.mlen.toNat ∨ digest
        | .oaepenc =>
          s.cfg.cap < s.alen.toNat ∨ s.cfg.cap < s.llen.toNat ∨ ((s.keybits.toNat / 8 : Nat) : Int) - 1 > (s.cfg.cap : Int) ∨ digest
        | .oaepdec => s.cfg.cap < s.alen.toNat ∨ s.cfg.cap < s.llen.toNat ∨ digest
        | .p15enc => s.cfg.cap < s.alen.toNat ∨ ((s.keybits.toNat / 8 : Nat) : Int) - 1 > (s.cfg.cap : Int)
        | .p15dec => s.cfg.cap < s.alen.toNat)

/-- 10_state.md R33: MGF1, OAEPENC and OAEPDEC, their capacity checks passed, latch the attached primitive's digest size when none is latched, and
keep it however and whenever they end; a size outside `1..HMAX` raises UsageFault and latches nothing; no other command touches HLEN or HV. -/
def Obligations.DigestSizeLatch : Prop :=
  ∀ (i : Instr) (s t : State), exec i s = .next t ∨ Reaches i s t →
    let latches := i ∈ [.mgf1, .oaepenc, .oaepdec] ∧ capacityFault i s = false ∧ s.hv = false
    (latches → 1 ≤ s.env.hashLen → s.env.hashLen ≤ s.cfg.hmax → t.hv = true ∧ t.hlen = BitVec.ofNat 32 s.env.hashLen) ∧
    (latches → (s.env.hashLen < 1 ∨ s.cfg.hmax < s.env.hashLen) → t.hv = s.hv ∧ t.hlen = s.hlen ∧
      exec i s = .next (failState i.opcode .use (s.env.logged [.digestSize]) s)) ∧
    (¬ latches → t.hv = s.hv ∧ t.hlen = s.hlen)

/-- 10_state.md R30, R32: once latched, HLEN and HV change by nothing but reset; HLEN reads 0 while HV = 0 and a size in `1..HMAX` while HV = 1. -/
def Obligations.DigestSizeStaysLatched : Prop :=
  (∀ s t : State, step s = .next t → s.hv = true → (t.hv = true ∧ t.hlen = s.hlen) ∨
    (t.hv = false ∧ t.hlen = 0 ∧ ∃ rest, s.bus.inputs = .reset :: rest ∨ (∃ w n, s.bus.inputs = .cut w n :: rest) ∨
      ∃ n i k r a, s.bus.inputs = .exchange n i k r a :: rest)) ∧
    ∀ s t : State, Inv s → step s = .next t →
      (t.hv = false → t.hlen = 0) ∧ (t.hv = true → 1 ≤ t.hlen.toNat ∧ t.hlen.toNat ≤ t.cfg.hmax)

/-- 10_state.md R26, the frame of every command but CLR: whether it succeeds, fails or is still running after `exec`, and in every later phase too, every
operand register, every parameter, the attached collaborators, the host's list, and every byte outside buffer O are as they were. -/
def Obligations.CommandsKeepInputs : Prop :=
  let keeps := fun s t : State =>
    t.keybits = s.keybits ∧ t.xlo = s.xlo ∧ t.xhi = s.xhi ∧ t.alen = s.alen ∧ t.blen = s.blen ∧ t.llen = s.llen ∧ t.mlen = s.mlen ∧
      t.cfg = s.cfg ∧ s.env.sameCollaborators t.env ∧ t.bus.inputs = s.bus.inputs ∧
      ∀ a, ¬ (0x4000 ≤ a ∧ a < 0x4000 + s.cfg.cap) → t.mem.read a = s.mem.read a
  (∀ (i : Instr) (s t : State), i ≠ .clr → Inv s → s.phase = .idle → exec i s = .next t → keeps s t) ∧
    (∀ s : State, Inv s → s.phase ≠ .kClr → keeps s (seqStep s) ∧ (seqStep s).phase ≠ .kClr) ∧
    ∀ (i : Instr) (s : State), i ≠ .clr → (beginCommand i s).phase ≠ .kClr

/-- 60_exceptions.md R187, with the end of R186: a command is still running and has no response, or it has completed with its one response, all
scratch zero, and one of exactly two shapes; in whatever step. `exec` leaves the host's list as it was. -/
def Obligations.CompletionHasTwoShapes : Prop :=
  ∀ (i : Instr) (s t : State), Inv s → s.phase = .idle → exec i s = .next t ∨ Reaches i s t →
    (exec i s = .next t → t.bus.inputs = s.bus.inputs) ∧
    ((t.phase ≠ .idle ∧ t.bus.responses = s.bus.responses) ∨
      (t.phase = .idle ∧ t.bus.responses = s.bus.responses ++ [.done] ∧ t.scratch = Scratch.zero ∧
        ((t.err = .ok ∧ t.olen.toNat ≤ t.cfg.cap ∧ ∀ k, t.olen.toNat ≤ k → k < t.cfg.cap → t.mem.read (0x4000 + k) = 0) ∨
          ((t.err = .enc ∨ t.err = .dec ∨ t.err = .use) ∧ t.olen = 0 ∧ ∀ k < t.cfg.cap, t.mem.read (0x4000 + k) = 0))))

/-- 10_state.md R31: LASTOP is bits 7:0 of the word written to CMD, whether or not it is a defined command. -/
def Obligations.LastOpWritten : Prop :=
  ∀ (s t : State) (w : Word) (rest : List Input), s.phase = .idle → s.bus.inputs = .write s.cfg.base 4 w :: rest → step s = .next t →
    t.lastOp = w.extractLsb' 0 8

/-- 10_state.md R35: no command's result depends on ERR, LASTOP or OLEN: after any number of phases, and so in the step that completes it, the same
command from a state that differs in them alone has come to the same state, but for an ERR that it has not yet written. -/
def Obligations.CommandsIgnoreStatus : Prop :=
  ∀ (i : Instr) (s : State) (e : ErrKind) (op : BitVec 8) (n : Word),
    let s' := { s with err := e, lastOp := op, olen := n }
    (∀ t, exec i s = .next t → ∃ t', exec i s' = .next t' ∧ { t' with err := t.err } = t ∧ (t.phase = .idle → t' = t)) ∧
      ∀ k, let t := seqRun k (beginCommand i s)
        let t' := seqRun k (beginCommand i s')
        { t' with err := t.err } = t ∧ (t.phase = .idle → t' = t)

/-- 20_memory.md R78: which commands draw random octets, and how many: OAEPENC one `Rand(hLen)`, P15ENC one `Rand(psLen)` and single ones; a command
that fails has drawn none. In whatever step it completes. -/
def Obligations.RandomOctetsDrawn : Prop :=
  ∀ (i : Instr) (s t : State), Inv s → s.phase = .idle → Reaches i s t →
    (i ≠ .oaepenc → i ≠ .p15enc → t.env.rc = s.env.rc) ∧
    (t.phase = .idle → t.err ≠ .ok → t.env.rc = s.env.rc) ∧
    (i = .oaepenc → t.phase = .idle → t.err = .ok → t.env.rc = s.env.rc + hLen t) ∧
    (i = .p15enc → t.phase = .idle → t.err = .ok → ∃ used, t.env.rc = s.env.rc + (p15PsLen s + used) ∧
      t.env.events = s.env.events ++ .rand (p15PsLen s) :: List.replicate used (.rand 1))

/-- 42_oaep.md R132 and 43_pkcs1v15.md R154: every EM that an encode command completes with, in whatever step it completes, has exactly `k - 1`
octets. -/
def Obligations.EncodedLengthIsKeyBytesLessOne : Prop :=
  ∀ (i : Instr) (s t : State), (i = .oaepenc ∨ i = .p15enc) → Inv s → s.phase = .idle → Reaches i s t → t.phase = .idle → t.err = .ok →
    t.olen.toNat + 1 = s.keybits.toNat / 8

/-! ### Hangs -/

/-- 70_reset_and_hazards.md R221: a command whose collaborator has fallen silent does not complete. In every phase that makes a request the phase stays,
and changes nothing, while the request is not answered; so each command that finds its collaborator silent gets no response, and no number of
further phases changes it. (The counts of answers are log entry 5, DESIGN CHOICE.) -/
def Obligations.SilentCollaboratorHangs : Prop :=
  (∀ s : State,
    (s.env.hashAnswers = some 0 → s.phase ∈ [.mgf1 .hash, .eDb, .eDbMask .hash, .eSeedMask .hash, .dSeedMask .hash, .dDbMask .hash, .dLhash] →
      ∀ n, seqRun n s = s) ∧
    (s.phase = .eSeed → s.env.delivers (hLen s) = false → ∀ n, seqRun n s = s) ∧
    (Inv s → s.phase = .pDraw → s.env.delivers (p15PsLen s) = false → ∀ n, seqRun n s = s) ∧
    (s.phase = .pFix → s.scratch.i < s.scratch.psLen → s.scratch.ps.getD s.scratch.i 0 = 0 → s.env.delivers 1 = false →
      ∀ n, seqRun n s = s)) ∧
  ∀ s : State, s.cfg.wf = true → latchAgrees s → s.alen.toNat ≤ s.cfg.cap →
    let hangs := fun (i : Instr) (ph : Phase) => ∃ t, exec i s = .next t ∧ t.phase = ph ∧ t.bus = s.bus ∧ ∀ n, seqRun n t = t
    (s.env.hashAnswers = some 0 → digestUsable s → s.mlen.toNat ≤ s.cfg.cap → hangs .mgf1 (.mgf1 .hash)) ∧
    (s.env.hashAnswers = some 0 → digestUsable s → s.llen.toNat ≤ s.cfg.cap → emLength s ≤ (s.cfg.cap : Int) →
      (s.alen.toNat : Int) ≤ emLength s - 2 * s.env.hashLen - 1 → hangs .oaepenc .eDb) ∧
    (s.env.hashAnswers = some 0 → digestUsable s → s.llen.toNat ≤ s.cfg.cap → 2 * s.env.hashLen + 1 ≤ s.alen.toNat →
      hangs .oaepdec (.dSeedMask .hash)) ∧
    (s.env.hashAnswers = none → s.env.delivers s.env.hashLen = false → digestUsable s → s.llen.toNat ≤ s.cfg.cap →
      emLength s ≤ (s.cfg.cap : Int) → (s.alen.toNat : Int) ≤ emLength s - 2 * s.env.hashLen - 1 → hangs .oaepenc .eSeed) ∧
    (s.env.delivers (p15PsLen s) = false → emLength s ≤ (s.cfg.cap : Int) → (s.alen.toNat : Int) ≤ emLength s - 10 →
      hangs .p15enc .pDraw)

/-- 43_pkcs1v15.md R152 and 70_reset_and_hazards.md R221: while `rho` delivers only 0x00 octets and a padding position is still zero, P15ENC does not
complete, for as many octets as that goes on. -/
def Obligations.ZeroStreamKeepsP15encRunning : Prop :=
  ∀ (s : State) (m : Nat), s.cfg.wf = true → s.alen.toNat ≤ s.cfg.cap → emLength s ≤ (s.cfg.cap : Int) →
    (s.alen.toNat : Int) ≤ emLength s - 10 → s.env.randAnswers = none → 0 ∈ rhoNext s.env (p15PsLen s) →
    (∀ k, p15PsLen s ≤ k → k < p15PsLen s + m → rhoAt s.env k = 0) →
    ∀ j ≤ m, (seqRun j (beginCommand .p15enc s)).phase ≠ .idle ∧ (seqRun j (beginCommand .p15enc s)).bus = s.bus

/-! ### The invariant -/

/-- 44_control.md R172: which phase follows which. The exits to FAIL of `mgf` and of the `xor` calls inside the OAEP commands are not among them: they
cannot be taken (41_mgf1.md R121, 42_oaep.md R132). -/
def Obligations.PhasesFollowTheLists : Prop :=
  (∀ s : State, Inv s → (seqStep s).phase ∈ nextPhases s.phase) ∧
    ∀ (i : Instr) (s : State), (beginCommand i s).phase = firstPhase i ∨ (beginCommand i s).phase = .fail .use

/-- Every step keeps the invariant. -/
def Obligations.StepKeepsInv : Prop := ∀ s t : State, Inv s → step s = .next t → Inv t

/-- The invariant holds of the machine right after reset. -/
def Obligations.ResetInv : Prop := Inv State.reset

/-! ### A command beyond one step -/

/-- What `exec` leaves is a state the command comes to, and so is what a step leaves while the command runs and no reset comes (10_state.md R41; the
inputs are log entry 7, DESIGN CHOICE). The statements on `Reaches` speak of every step of a command through this one. -/
def Obligations.StepsStayOnTheCommand : Prop :=
  (∀ (i : Instr) (s t : State), exec i s = .next t → Reaches i s t) ∧
    ∀ (i : Instr) (s t t' : State), Reaches i s t → t.phase ≠ .idle → step t = .next t' →
      Reaches i s t' ∨ ∃ rest, t.bus.inputs = .reset :: rest ∨ ∃ n k m r a, t.bus.inputs = .exchange n k m r a :: rest
end

