-- ==== Sys2Proof/Laws/Memory.lean ====
section
/-! SUPPORT. What the memory operations do, each said once: reads after writes, clears and stores, and that all of them keep the canonical
form. -/

namespace Sys2Proof.Machine

theorem Memory.wf_cons (k : Nat) (v : Byte) (m : Memory) :
    Memory.wf ((k, v) :: m) = true ↔ v ≠ 0 ∧ (∀ c ∈ m, k < c.1) ∧ Memory.wf m = true := by
  induction m generalizing k v with
  | nil => simp [Memory.wf, Memory.unlisted]
  | cons c m ih =>
    obtain ⟨k', v'⟩ := c
    simp only [Memory.wf, Memory.unlisted, Bool.and_eq_true, bne_iff_ne, decide_eq_true_eq, List.mem_cons, forall_eq_or_imp]
    constructor
    · rintro ⟨⟨hv, hk⟩, hm⟩
      refine ⟨hv, ⟨hk, fun c hc => ?_⟩, hm⟩
      have := ((ih k' v').1 hm).2.1 c hc
      omega
    · rintro ⟨hv, ⟨hk, _⟩, hm⟩
      exact ⟨⟨hv, hk⟩, hm⟩

theorem Memory.read_of_forall_ne {m : Memory} {a : Nat} (h : ∀ c ∈ m, c.1 ≠ a) : m.read a = 0 := by
  induction m with
  | nil => rfl
  | cons c m ih =>
    obtain ⟨k, v⟩ := c
    simp only [List.mem_cons, forall_eq_or_imp] at h
    simp [Memory.read, h.1, ih h.2]

theorem Memory.read_of_forall_lt {m : Memory} {a : Nat} (h : ∀ c ∈ m, a < c.1) : m.read a = 0 :=
  Memory.read_of_forall_ne fun c hc => by have := h c hc; omega

theorem Memory.read_ite (p : Prop) [Decidable p] (m m' : Memory) (a : Nat) :
    Memory.read (if p then m else m') a = if p then m.read a else m'.read a := by
  by_cases h : p
  · rw [if_pos h, if_pos h]
  · rw [if_neg h, if_neg h]

/-- A read after a write: the written octet at the written offset, every other offset as before. -/
theorem Memory.read_write {m : Memory} (hm : m.wf = true) (a : Nat) (b : Byte) (x : Nat) :
    (m.write a b).read x = if x = a then b else m.read x := by
  induction m with
  | nil =>
    rw [Memory.write, Memory.read_ite]
    by_cases hb : b = 0 <;> by_cases hx : x = a
    · simp [Memory.read, hb]
    · simp [Memory.read, hb]
    · simp only [hx, Memory.read, if_pos, if_neg hb]
    · simp [Memory.read, hx, Ne.symm hx]
  | cons c m ih =>
    obtain ⟨k, v⟩ := c
    obtain ⟨hv, hk, hm'⟩ := (Memory.wf_cons k v m).1 hm
    have hlow : ∀ y, y ≤ k → Memory.read m y = 0 := fun y hy => Memory.read_of_forall_lt fun c hc => by
      have := hk c hc; omega
    simp only [Memory.write, Memory.read_ite]
    rcases Nat.lt_trichotomy a k with hak | hak | hak
    · rw [if_pos hak]
      by_cases hx : x = a
      · subst hx
        simp only [Memory.read, if_neg (show ¬ k = x by omega), hlow x (by omega)]
        by_cases hb : b = 0
        · simp [hb]
        · simp only [if_pos, if_neg hb]
      · simp [Memory.read, hx, Ne.symm hx]
    · subst hak
      rw [if_neg (lt_irrefl _), if_pos rfl]
      by_cases hx : x = a
      · subst hx
        simp only [Memory.read, hlow x (le_refl _)]
        by_cases hb : b = 0
        · simp [hb]
        · simp only [if_pos, if_neg hb]
      · simp [Memory.read, hx, Ne.symm hx]
    · rw [if_neg (by omega), if_neg (by omega)]
      simp only [Memory.read, ih hm']
      by_cases hkx : k = x
      · rw [if_pos hkx, if_neg (by omega), if_pos hkx]
      · simp [hkx]

theorem Memory.mem_write {m : Memory} {a : Nat} {b : Byte} {c : Host.Cell} (h : c ∈ m.write a b) : c ∈ m ∨ c.1 = a := by
  induction m with
  | nil =>
    simp only [Memory.write] at h
    split at h <;> simp_all
  | cons c' m ih =>
    obtain ⟨k, v⟩ := c'
    simp only [Memory.write] at h
    split at h
    · split at h
      · exact .inl h
      · rcases List.mem_cons.1 h with rfl | h
        · exact .inr rfl
        · exact .inl h
    · split at h
      · split at h
        · exact .inl (List.mem_cons_of_mem _ h)
        · rcases List.mem_cons.1 h with rfl | h
          · exact .inr rfl
          · exact .inl (List.mem_cons_of_mem _ h)
      · rcases List.mem_cons.1 h with rfl | h
        · exact .inl (by simp)
        · rcases ih h with h | h
          · exact .inl (List.mem_cons_of_mem _ h)
          · exact .inr h

/-- A write keeps the canonical form. -/
theorem Memory.wf_write {m : Memory} (hm : m.wf = true) (a : Nat) (b : Byte) : (m.write a b).wf = true := by
  induction m with
  | nil =>
    simp only [Memory.write]
    split <;> simp_all [Memory.wf]
  | cons c m ih =>
    obtain ⟨k, v⟩ := c
    obtain ⟨hv, hk, hm'⟩ := (Memory.wf_cons k v m).1 hm
    simp only [Memory.write]
    split
    · rename_i hak
      split
      · exact hm
      · rename_i hb
        refine (Memory.wf_cons _ _ _).2 ⟨hb, fun c hc => ?_, hm⟩
        rcases List.mem_cons.1 hc with rfl | hc
        · exact hak
        · have := hk c hc; omega
    · split
      · rename_i hak; subst hak
        split
        · exact hm'
        · rename_i hb
          exact (Memory.wf_cons _ _ _).2 ⟨hb, hk, hm'⟩
      · refine (Memory.wf_cons _ _ _).2 ⟨hv, fun c hc => ?_, ih hm'⟩
        rcases Memory.mem_write hc with hc | hc
        · exact hk c hc
        · omega

theorem Memory.mem_clear {m : Memory} {base n : Nat} {c : Host.Cell} (h : c ∈ m.clear base n) : c ∈ m :=
  (List.mem_filter.1 h).1

/-- A clear keeps the canonical form. -/
theorem Memory.wf_clear {m : Memory} (hm : m.wf = true) (base n : Nat) : (m.clear base n).wf = true := by
  induction m with
  | nil => rfl
  | cons c m ih =>
    obtain ⟨k, v⟩ := c
    obtain ⟨hv, hk, hm'⟩ := (Memory.wf_cons k v m).1 hm
    have hi := ih hm'
    unfold Memory.clear at hi ⊢
    rw [List.filter_cons]
    split
    · exact (Memory.wf_cons _ _ _).2 ⟨hv, fun c hc => hk c (List.mem_filter.1 hc).1, hi⟩
    · exact hi

/-- A read after a clear: 0x00 in the cleared range, every other offset as before. -/
theorem Memory.read_clear (m : Memory) (base n x : Nat) :
    (m.clear base n).read x = if base ≤ x ∧ x < base + n then 0 else m.read x := by
  induction m with
  | nil => simp [Memory.clear, Memory.read, Memory.unlisted]
  | cons c m ih =>
    obtain ⟨k, v⟩ := c
    unfold Memory.clear at ih ⊢
    rw [List.filter_cons]
    split
    · rename_i h
      simp only [Bool.not_eq_eq_eq_not, Bool.not_true, Bool.and_eq_false_imp, decide_eq_true_eq, decide_eq_false_iff_not] at h
      simp only [Memory.read, ih]
      by_cases hkx : k = x
      · subst hkx
        have : ¬ (base ≤ k ∧ k < base + n) := fun h' => h h'.1 h'.2
        simp [this]
      · simp [hkx]
    · rename_i h
      simp only [Bool.not_eq_eq_eq_not, Bool.not_true, Bool.not_eq_false, Bool.and_eq_true, decide_eq_true_eq] at h
      rw [ih]
      by_cases hkx : k = x
      · subst hkx; simp [h.1, h.2]
      · simp [Memory.read, hkx]

/-- A store keeps the canonical form. -/
theorem Memory.wf_store {m : Memory} (hm : m.wf = true) (base : Nat) (r : Octets) : (m.store base r).wf = true := by
  induction r generalizing m base with
  | nil => exact hm
  | cons b bs ih => exact ih (Memory.wf_write hm _ _) _

theorem Memory.mem_store {m : Memory} {base : Nat} {r : Octets} {c : Host.Cell} (h : c ∈ m.store base r) :
    c ∈ m ∨ (base ≤ c.1 ∧ c.1 < base + r.length) := by
  induction r generalizing m base with
  | nil => exact .inl h
  | cons b bs ih =>
    simp only [List.length_cons]
    rcases ih h with h | h
    · rcases Memory.mem_write h with h | h
      · exact .inl h
      · right; omega
    · right; omega

/-- A read after a store: the stored octets in the stored range, every other offset as before. -/
theorem Memory.read_store {m : Memory} (hm : m.wf = true) (base : Nat) (r : Octets) (x : Nat) :
    (m.store base r).read x = if base ≤ x ∧ x < base + r.length then r.getD (x - base) 0 else m.read x := by
  induction r generalizing m base with
  | nil =>
    have : ¬ (base ≤ x ∧ x < base + ([] : Octets).length) := by simp only [List.length_nil]; omega
    rw [if_neg this]; rfl
  | cons b bs ih =>
    simp only [Memory.store, ih (Memory.wf_write hm _ _), Memory.read_write hm, List.length_cons]
    by_cases h1 : x = base
    · subst h1
      rw [if_neg (by omega), if_pos rfl, if_pos (by omega)]; simp
    · by_cases h2 : base + 1 ≤ x ∧ x < base + 1 + bs.length
      · rw [if_pos h2, if_pos (by omega)]
        obtain ⟨d, rfl⟩ : ∃ d, x = base + 1 + d := ⟨x - (base + 1), by omega⟩
        have e1 : base + 1 + d - (base + 1) = d := by omega
        have e2 : base + 1 + d - base = d + 1 := by omega
        rw [e1, e2]; simp
      · rw [if_neg h2, if_neg h1, if_neg (by omega)]

@[simp] theorem Memory.length_load (m : Memory) (base n : Nat) : (m.load base n).length = n := by simp [Memory.load]

theorem Memory.getD_load (m : Memory) (base n i : Nat) (h : i < n) : (m.load base n).getD i 0 = m.read (base + i) := by
  simp [Memory.load, List.getD, h]

/-- A load depends on the octets of its range only. -/
theorem Memory.load_congr {m m' : Memory} {base n : Nat} (h : ∀ i < n, m.read (base + i) = m'.read (base + i)) :
    m.load base n = m'.load base n := by
  refine List.map_congr_left fun i hi => h i (List.mem_range.1 hi)

/-- A load of what was just stored returns it. -/
theorem Memory.load_store {m : Memory} (hm : m.wf = true) (base : Nat) (r : Octets) : (m.store base r).load base r.length = r := by
  refine List.ext_getElem (by simp) fun i h1 h2 => ?_
  simp only [Memory.load, List.getElem_map, List.getElem_range, Memory.read_store hm]
  simp [h2]

/-- Canonical memories that read alike are equal. -/
theorem Memory.ext_of_wf {m m' : Memory} (hm : m.wf = true) (hm' : m'.wf = true) (h : ∀ a, m.read a = m'.read a) : m = m' := by
  induction m generalizing m' with
  | nil =>
    cases m' with
    | nil => rfl
    | cons c t =>
      obtain ⟨k, v⟩ := c
      have := h k
      simp [Memory.read, Memory.unlisted] at this
      exact absurd this.symm ((Memory.wf_cons k v t).1 hm').1
  | cons c m ih =>
    obtain ⟨k, v⟩ := c
    obtain ⟨hv, hk, hw⟩ := (Memory.wf_cons k v m).1 hm
    cases m' with
    | nil =>
      have := h k
      simp [Memory.read, Memory.unlisted] at this
      exact absurd this hv
    | cons c' t =>
      obtain ⟨k', v'⟩ := c'
      obtain ⟨hv', hk', hw'⟩ := (Memory.wf_cons k' v' t).1 hm'
      have hkk : k = k' := by
        by_contra hne
        rcases Nat.lt_or_gt_of_ne hne with hl | hl
        · have := h k
          rw [show Memory.read ((k', v') :: t) k = 0 from Memory.read_of_forall_lt fun c hc => by
            rcases List.mem_cons.1 hc with rfl | hc
            · exact hl
            · have := hk' c hc; omega] at this
          simp [Memory.read] at this
          exact hv this
        · have := h k'
          rw [show Memory.read ((k, v) :: m) k' = 0 from Memory.read_of_forall_lt fun c hc => by
            rcases List.mem_cons.1 hc with rfl | hc
            · exact hl
            · have := hk c hc; omega] at this
          simp [Memory.read] at this
          exact hv' this.symm
      subst hkk
      have hvv : v = v' := by simpa [Memory.read] using h k
      subst hvv
      congr 1
      refine ih hw hw' fun a => ?_
      by_cases ha : a ≤ k
      · rw [Memory.read_of_forall_lt fun c hc => by have := hk c hc; omega,
          Memory.read_of_forall_lt fun c hc => by have := hk' c hc; omega]
      · have := h a
        simpa [Memory.read, show ¬ k = a by omega] using this

end Sys2Proof.Machine
end

