-- ==== Sys2Proof/Laws/Octets.lean ====
section
/-! SUPPORT. What the octet-string operations return: their lengths (40_byte_vector.md R116) and their laws. -/

namespace Sys2Proof.Machine

@[simp] theorem length_zeros (n : Nat) : (zeros n).length = n := by simp [zeros]

@[simp] theorem length_i2ospOctets (x : Nat) : (i2ospOctets x).length = 4 := rfl

theorem i2osp_of_lt {x : Nat} (h : x < 4294967296) : i2osp x = some (i2ospOctets x) := by
  rw [i2osp, if_neg (by omega)]

theorem i2osp_of_le {x : Nat} (h : 4294967296 ≤ x) : i2osp x = none := by
  rw [i2osp, if_pos h]

theorem xorOctets_of_length_eq {a b : Octets} (h : a.length = b.length) :
    xorOctets a b = some (List.zipWith (· ^^^ ·) a b) := by
  simp [xorOctets, h]

theorem xorOctets_of_length_ne {a b : Octets} (h : a.length ≠ b.length) : xorOctets a b = none := by
  simp [xorOctets, h]

/-- "`xor(xor(a,b), b) == a` for equal-length `a`, `b`" (40_byte_vector.md R112). -/
theorem zipWith_xor_cancel {a b : Octets} (h : a.length = b.length) :
    List.zipWith (· ^^^ ·) (List.zipWith (· ^^^ ·) a b) b = a := by
  induction a generalizing b with
  | nil => cases b <;> rfl
  | cons x xs ih =>
    cases b with
    | nil => simp at h
    | cons y ys =>
      simp only [List.zipWith_cons_cons, List.cons.injEq]
      exact ⟨by simp, ih (by simpa using h)⟩

theorem length_zipWith_xor {a b : Octets} (h : a.length = b.length) : (List.zipWith (· ^^^ ·) a b).length = a.length := by
  simp [h]

@[simp] theorem length_hashValue (e : Env) (m : Octets) : (hashValue e m).length = e.hashLen := by simp [hashValue]

/-- A digest depends on the attached primitive and the message only (00_scope.md R6: "deterministic and stateless"). -/
theorem hashValue_congr {e e' : Env} (h1 : e.hashLen = e'.hashLen) (h2 : e.hashId = e'.hashId) (h3 : e.hashKnown = e'.hashKnown)
    (m : Octets) : hashValue e m = hashValue e' m := by
  simp [hashValue, h1, h2, h3]

@[simp] theorem hashValue_logged (e : Env) (evs : List Event) (m : Octets) : hashValue (e.logged evs) m = hashValue e m := rfl

@[simp] theorem hashValue_afterRand (e : Env) (n : Nat) (m : Octets) : hashValue (e.afterRand n) m = hashValue e m := rfl

@[simp] theorem mask_logged (e : Env) (evs : List Event) (h : Nat) (seed : Octets) (n : Nat) :
    mask (e.logged evs) h seed n = mask e h seed n := rfl

@[simp] theorem mask_afterRand (e : Env) (k h : Nat) (seed : Octets) (n : Nat) : mask (e.afterRand k) h seed n = mask e h seed n := rfl

@[simp] theorem length_rhoNext (e : Env) (n : Nat) : (rhoNext e n).length = n := by simp [rhoNext]

@[simp] theorem Env.logged_nil (e : Env) : e.logged [] = e := by simp [Env.logged]

@[simp] theorem Env.logged_logged (e : Env) (a b : List Event) : (e.logged a).logged b = e.logged (a ++ b) := by
  simp [Env.logged]

@[simp] theorem Env.logged_hashLen (e : Env) (a : List Event) : (e.logged a).hashLen = e.hashLen := rfl
@[simp] theorem Env.logged_hashAnswers (e : Env) (a : List Event) : (e.logged a).hashAnswers = e.hashAnswers := rfl
@[simp] theorem Env.logged_randAnswers (e : Env) (a : List Event) : (e.logged a).randAnswers = e.randAnswers := rfl
@[simp] theorem Env.logged_rc (e : Env) (a : List Event) : (e.logged a).rc = e.rc := rfl
@[simp] theorem Env.afterRand_hashLen (e : Env) (n : Nat) : (e.afterRand n).hashLen = e.hashLen := rfl
@[simp] theorem Env.afterRand_hashAnswers (e : Env) (n : Nat) : (e.afterRand n).hashAnswers = e.hashAnswers := rfl

theorem length_flatMap_hashValue (e : Env) (f : Nat → Octets) (l : List Nat) :
    (l.flatMap fun c => hashValue e (f c)).length = l.length * e.hashLen := by
  induction l with
  | nil => simp
  | cons x xs ih => simp [ih, Nat.succ_mul, Nat.add_comm]

/-- "`len(mgf(seed, L)) == L` for all `L ≥ 0`" (41_mgf1.md R124). -/
theorem length_mask (e : Env) {h : Nat} (hh : h = e.hashLen) (hpos : 0 < h) (seed : Octets) (n : Nat) : (mask e h seed n).length = n := by
  subst hh
  rw [mask, List.length_take, length_flatMap_hashValue e (fun c => seed ++ i2ospOctets c), List.length_range]
  have h1 := Nat.div_add_mod n e.hashLen
  have h2 := Nat.mod_lt n hpos
  have : n ≤ (n / e.hashLen + 1) * e.hashLen := by rw [Nat.succ_mul, Nat.mul_comm]; omega
  omega

/-- What the scan finds: the octets before the separator do not hold the value, so it splits the string there. -/
theorem scanFor_eq_none {v : Byte} {i : Nat} {l : Octets} : scanFor v i l = none ↔ v ∉ l := by
  induction l generalizing i with
  | nil => simp [scanFor]
  | cons x xs ih =>
    simp only [scanFor, List.mem_cons]
    split
    · rename_i h; simp [h]
    · rename_i h; rw [ih]; simp [Ne.symm h]

theorem scanFor_eq_some {v : Byte} {i j : Nat} {l : Octets} :
    scanFor v i l = some j ↔ ∃ p q, l = p ++ v :: q ∧ v ∉ p ∧ j = i + p.length := by
  induction l generalizing i with
  | nil => simp [scanFor]
  | cons x xs ih =>
    simp only [scanFor]
    split
    · rename_i h; subst h
      constructor
      · rintro ⟨⟩
        exact ⟨[], xs, rfl, by simp, by simp⟩
      · rintro ⟨p, q, h1, h2, h3⟩
        cases p with
        | nil => simp [h3]
        | cons y ys =>
          simp only [List.cons_append, List.cons.injEq] at h1
          simp [h1.1] at h2
    · rename_i h
      rw [ih]
      constructor
      · rintro ⟨p, q, rfl, h2, rfl⟩
        exact ⟨x :: p, q, rfl, by simp [h2, Ne.symm h], by simp; omega⟩
      · rintro ⟨p, q, h1, h2, h3⟩
        cases p with
        | nil =>
          simp only [List.nil_append, List.cons.injEq] at h1
          exact absurd h1.1 h
        | cons y ys =>
          simp only [List.cons_append, List.cons.injEq] at h1
          simp only [List.mem_cons, not_or] at h2
          exact ⟨ys, q, h1.2, h2.2, by simp at h3; omega⟩

/-- The scan returns the least index that holds the value (42_oaep.md R137, 43_pkcs1v15.md R156). -/
theorem scanFor_eq_findIdx? (v : Byte) (i : Nat) (l : Octets) : scanFor v i l = (l.findIdx? (· == v)).map (i + ·) := by
  induction l generalizing i with
  | nil => rfl
  | cons x xs ih =>
    simp only [scanFor, List.findIdx?_cons, beq_iff_eq]
    split
    · simp
    · rw [ih, Option.map_map]
      congr 1
      funext k
      simp only [Function.comp]
      omega

theorem sameOctets_eq_true {n : Nat} {a b : Octets} (ha : n ≤ a.length) (hb : b.length = n) :
    sameOctets n a b = true ↔ a.take n = b := by
  simp only [sameOctets, List.all_eq_true, List.mem_range, beq_iff_eq]
  constructor
  · intro h
    refine List.ext_getElem (by simp; omega) fun i h1 h2 => ?_
    have := h i (by omega)
    simpa [List.getD, show i < a.length by omega, h2] using this
  · rintro rfl i hi
    simp [List.getD, hi]

/-- Which octet of a concatenation of strings of one length stands at an index. -/
theorem getD_flatMap_range {h : Nat} (f : Nat → Octets) (hf : ∀ c, (f c).length = h) (n : Nat) {i : Nat} (hi : i < n * h) :
    ((List.range n).flatMap f).getD i 0 = (f (i / h)).getD (i % h) 0 := by
  have hpos : 0 < h := by
    rcases Nat.eq_zero_or_pos h with rfl | h0
    · simp at hi
    · exact h0
  have hlen : ∀ n, ((List.range n).flatMap f).length = n * h := by
    intro n
    induction n with
    | zero => simp
    | succ n ih => simp [List.range_succ, ih, hf, Nat.succ_mul]
  induction n with
  | zero => simp at hi
  | succ n ih =>
    have hcat : (List.range (n + 1)).flatMap f = (List.range n).flatMap f ++ f n := by simp [List.range_succ]
    rw [hcat]
    by_cases hlt : i < n * h
    · rw [← ih hlt]
      simp only [List.getD]
      rw [List.getElem?_append_left (by rw [hlen]; exact hlt)]
    · have hge : n * h ≤ i := Nat.le_of_not_lt hlt
      have hdiv : i / h = n := by
        rw [Nat.succ_mul] at hi
        exact Nat.div_eq_of_lt_le hge (by rw [Nat.succ_mul]; exact hi)
      have hmod : i % h = i - n * h := by
        have := Nat.div_add_mod i h
        rw [hdiv, Nat.mul_comm] at this; omega
      rw [hdiv, hmod]
      simp only [List.getD]
      rw [List.getElem?_append_right (by rw [hlen]; exact hge), hlen]

/-- "octet `i` of the result, for `0 <= i < length`, is octet `i mod hLen` of `H(seed || i2osp(floor(i / hLen)))`" (41_mgf1.md R120). -/
theorem getD_mask (e : Env) {h : Nat} (hh : h = e.hashLen) (hpos : 0 < h) (seed : Octets) {n i : Nat} (hi : i < n) :
    (mask e h seed n).getD i 0 = (hashValue e (seed ++ i2ospOctets (i / h))).getD (i % h) 0 := by
  have hle : n ≤ (n / h + 1) * h := by
    have h1 := Nat.div_add_mod n h
    have h2 := Nat.mod_lt n hpos
    rw [Nat.succ_mul, Nat.mul_comm]; omega
  rw [← getD_flatMap_range (fun c => hashValue e (seed ++ i2ospOctets c)) (fun c => by rw [length_hashValue, hh]) (n / h + 1)
    (by omega)]
  simp [mask, List.getD, hi]

/-- "`mgf(seed, L1)` is a prefix of `mgf(seed, L2)` whenever `L1 < L2`" (41_mgf1.md R124). -/
theorem take_mask (e : Env) {h : Nat} (hh : h = e.hashLen) (hpos : 0 < h) (seed : Octets) {k n : Nat} (hk : k ≤ n) :
    (mask e h seed n).take k = mask e h seed k := by
  have h1 := length_mask e hh hpos seed n
  have h2 := length_mask e hh hpos seed k
  refine List.ext_getElem (by rw [List.length_take, h1, h2]; omega) fun i hi hi' => ?_
  have hik : i < k := by rw [h2] at hi'; exact hi'
  have g1 := getD_mask e hh hpos seed (show i < n by omega)
  have g2 := getD_mask e hh hpos seed hik
  rw [← g2] at g1
  simpa [List.getD, h1, h2, hik, show i < n by omega] using g1

end Sys2Proof.Machine
end

