-- ==== Sys2Proof/Laws/State.lean ====
section
/-! SUPPORT. One lemma for each field of State under each shared operation, so that no later proof unfolds a record update. -/

namespace Sys2Proof.Machine

@[simp] theorem bufWrite_cfg (bf : Buf) (i : Nat) (v : Byte) (s : State) : (bufWrite bf i v s).cfg = s.cfg := rfl
@[simp] theorem bufWrite_keybits (bf : Buf) (i : Nat) (v : Byte) (s : State) : (bufWrite bf i v s).keybits = s.keybits := rfl
@[simp] theorem bufWrite_xlo (bf : Buf) (i : Nat) (v : Byte) (s : State) : (bufWrite bf i v s).xlo = s.xlo := rfl
@[simp] theorem bufWrite_xhi (bf : Buf) (i : Nat) (v : Byte) (s : State) : (bufWrite bf i v s).xhi = s.xhi := rfl
@[simp] theorem bufWrite_alen (bf : Buf) (i : Nat) (v : Byte) (s : State) : (bufWrite bf i v s).alen = s.alen := rfl
@[simp] theorem bufWrite_blen (bf : Buf) (i : Nat) (v : Byte) (s : State) : (bufWrite bf i v s).blen = s.blen := rfl
@[simp] theorem bufWrite_llen (bf : Buf) (i : Nat) (v : Byte) (s : State) : (bufWrite bf i v s).llen = s.llen := rfl
@[simp] theorem bufWrite_mlen (bf : Buf) (i : Nat) (v : Byte) (s : State) : (bufWrite bf i v s).mlen = s.mlen := rfl
@[simp] theorem bufWrite_err (bf : Buf) (i : Nat) (v : Byte) (s : State) : (bufWrite bf i v s).err = s.err := rfl
@[simp] theorem bufWrite_hv (bf : Buf) (i : Nat) (v : Byte) (s : State) : (bufWrite bf i v s).hv = s.hv := rfl
@[simp] theorem bufWrite_lastOp (bf : Buf) (i : Nat) (v : Byte) (s : State) : (bufWrite bf i v s).lastOp = s.lastOp := rfl
@[simp] theorem bufWrite_hlen (bf : Buf) (i : Nat) (v : Byte) (s : State) : (bufWrite bf i v s).hlen = s.hlen := rfl
@[simp] theorem bufWrite_olen (bf : Buf) (i : Nat) (v : Byte) (s : State) : (bufWrite bf i v s).olen = s.olen := rfl
@[simp] theorem bufWrite_mem (bf : Buf) (i : Nat) (v : Byte) (s : State) : (bufWrite bf i v s).mem = s.mem.write (bf.window + i) v := rfl
@[simp] theorem bufWrite_scratch (bf : Buf) (i : Nat) (v : Byte) (s : State) : (bufWrite bf i v s).scratch = s.scratch := rfl
@[simp] theorem bufWrite_phase (bf : Buf) (i : Nat) (v : Byte) (s : State) : (bufWrite bf i v s).phase = s.phase := rfl
@[simp] theorem bufWrite_env (bf : Buf) (i : Nat) (v : Byte) (s : State) : (bufWrite bf i v s).env = s.env := rfl
@[simp] theorem bufWrite_bus (bf : Buf) (i : Nat) (v : Byte) (s : State) : (bufWrite bf i v s).bus = s.bus := rfl

@[simp] theorem bufStore_cfg (bf : Buf) (r : Octets) (s : State) : (bufStore bf r s).cfg = s.cfg := rfl
@[simp] theorem bufStore_keybits (bf : Buf) (r : Octets) (s : State) : (bufStore bf r s).keybits = s.keybits := rfl
@[simp] theorem bufStore_xlo (bf : Buf) (r : Octets) (s : State) : (bufStore bf r s).xlo = s.xlo := rfl
@[simp] theorem bufStore_xhi (bf : Buf) (r : Octets) (s : State) : (bufStore bf r s).xhi = s.xhi := rfl
@[simp] theorem bufStore_alen (bf : Buf) (r : Octets) (s : State) : (bufStore bf r s).alen = s.alen := rfl
@[simp] theorem bufStore_blen (bf : Buf) (r : Octets) (s : State) : (bufStore bf r s).blen = s.blen := rfl
@[simp] theorem bufStore_llen (bf : Buf) (r : Octets) (s : State) : (bufStore bf r s).llen = s.llen := rfl
@[simp] theorem bufStore_mlen (bf : Buf) (r : Octets) (s : State) : (bufStore bf r s).mlen = s.mlen := rfl
@[simp] theorem bufStore_err (bf : Buf) (r : Octets) (s : State) : (bufStore bf r s).err = s.err := rfl
@[simp] theorem bufStore_hv (bf : Buf) (r : Octets) (s : State) : (bufStore bf r s).hv = s.hv := rfl
@[simp] theorem bufStore_lastOp (bf : Buf) (r : Octets) (s : State) : (bufStore bf r s).lastOp = s.lastOp := rfl
@[simp] theorem bufStore_hlen (bf : Buf) (r : Octets) (s : State) : (bufStore bf r s).hlen = s.hlen := rfl
@[simp] theorem bufStore_olen (bf : Buf) (r : Octets) (s : State) : (bufStore bf r s).olen = s.olen := rfl
@[simp] theorem bufStore_mem (bf : Buf) (r : Octets) (s : State) : (bufStore bf r s).mem = s.mem.store bf.window r := rfl
@[simp] theorem bufStore_scratch (bf : Buf) (r : Octets) (s : State) : (bufStore bf r s).scratch = s.scratch := rfl
@[simp] theorem bufStore_phase (bf : Buf) (r : Octets) (s : State) : (bufStore bf r s).phase = s.phase := rfl
@[simp] theorem bufStore_env (bf : Buf) (r : Octets) (s : State) : (bufStore bf r s).env = s.env := rfl
@[simp] theorem bufStore_bus (bf : Buf) (r : Octets) (s : State) : (bufStore bf r s).bus = s.bus := rfl

@[simp] theorem bufClear_cfg (bf : Buf) (s : State) : (bufClear bf s).cfg = s.cfg := rfl
@[simp] theorem bufClear_keybits (bf : Buf) (s : State) : (bufClear bf s).keybits = s.keybits := rfl
@[simp] theorem bufClear_xlo (bf : Buf) (s : State) : (bufClear bf s).xlo = s.xlo := rfl
@[simp] theorem bufClear_xhi (bf : Buf) (s : State) : (bufClear bf s).xhi = s.xhi := rfl
@[simp] theorem bufClear_alen (bf : Buf) (s : State) : (bufClear bf s).alen = s.alen := rfl
@[simp] theorem bufClear_blen (bf : Buf) (s : State) : (bufClear bf s).blen = s.blen := rfl
@[simp] theorem bufClear_llen (bf : Buf) (s : State) : (bufClear bf s).llen = s.llen := rfl
@[simp] theorem bufClear_mlen (bf : Buf) (s : State) : (bufClear bf s).mlen = s.mlen := rfl
@[simp] theorem bufClear_err (bf : Buf) (s : State) : (bufClear bf s).err = s.err := rfl
@[simp] theorem bufClear_hv (bf : Buf) (s : State) : (bufClear bf s).hv = s.hv := rfl
@[simp] theorem bufClear_lastOp (bf : Buf) (s : State) : (bufClear bf s).lastOp = s.lastOp := rfl
@[simp] theorem bufClear_hlen (bf : Buf) (s : State) : (bufClear bf s).hlen = s.hlen := rfl
@[simp] theorem bufClear_olen (bf : Buf) (s : State) : (bufClear bf s).olen = s.olen := rfl
@[simp] theorem bufClear_mem (bf : Buf) (s : State) : (bufClear bf s).mem = s.mem.clear bf.window s.cfg.cap := rfl
@[simp] theorem bufClear_scratch (bf : Buf) (s : State) : (bufClear bf s).scratch = s.scratch := rfl
@[simp] theorem bufClear_phase (bf : Buf) (s : State) : (bufClear bf s).phase = s.phase := rfl
@[simp] theorem bufClear_env (bf : Buf) (s : State) : (bufClear bf s).env = s.env := rfl
@[simp] theorem bufClear_bus (bf : Buf) (s : State) : (bufClear bf s).bus = s.bus := rfl

@[simp] theorem record_cfg (e : Event) (s : State) : (record e s).cfg = s.cfg := rfl
@[simp] theorem record_keybits (e : Event) (s : State) : (record e s).keybits = s.keybits := rfl
@[simp] theorem record_xlo (e : Event) (s : State) : (record e s).xlo = s.xlo := rfl
@[simp] theorem record_xhi (e : Event) (s : State) : (record e s).xhi = s.xhi := rfl
@[simp] theorem record_alen (e : Event) (s : State) : (record e s).alen = s.alen := rfl
@[simp] theorem record_blen (e : Event) (s : State) : (record e s).blen = s.blen := rfl
@[simp] theorem record_llen (e : Event) (s : State) : (record e s).llen = s.llen := rfl
@[simp] theorem record_mlen (e : Event) (s : State) : (record e s).mlen = s.mlen := rfl
@[simp] theorem record_err (e : Event) (s : State) : (record e s).err = s.err := rfl
@[simp] theorem record_hv (e : Event) (s : State) : (record e s).hv = s.hv := rfl
@[simp] theorem record_lastOp (e : Event) (s : State) : (record e s).lastOp = s.lastOp := rfl
@[simp] theorem record_hlen (e : Event) (s : State) : (record e s).hlen = s.hlen := rfl
@[simp] theorem record_olen (e : Event) (s : State) : (record e s).olen = s.olen := rfl
@[simp] theorem record_mem (e : Event) (s : State) : (record e s).mem = s.mem := rfl
@[simp] theorem record_scratch (e : Event) (s : State) : (record e s).scratch = s.scratch := rfl
@[simp] theorem record_phase (e : Event) (s : State) : (record e s).phase = s.phase := rfl
@[simp] theorem record_env (e : Event) (s : State) : (record e s).env = { s.env with events := s.env.events ++ [e] } := rfl
@[simp] theorem record_bus (e : Event) (s : State) : (record e s).bus = s.bus := rfl

@[simp] theorem respond_cfg (r : Response) (s : State) : (respond r s).cfg = s.cfg := rfl
@[simp] theorem respond_keybits (r : Response) (s : State) : (respond r s).keybits = s.keybits := rfl
@[simp] theorem respond_xlo (r : Response) (s : State) : (respond r s).xlo = s.xlo := rfl
@[simp] theorem respond_xhi (r : Response) (s : State) : (respond r s).xhi = s.xhi := rfl
@[simp] theorem respond_alen (r : Response) (s : State) : (respond r s).alen = s.alen := rfl
@[simp] theorem respond_blen (r : Response) (s : State) : (respond r s).blen = s.blen := rfl
@[simp] theorem respond_llen (r : Response) (s : State) : (respond r s).llen = s.llen := rfl
@[simp] theorem respond_mlen (r : Response) (s : State) : (respond r s).mlen = s.mlen := rfl
@[simp] theorem respond_err (r : Response) (s : State) : (respond r s).err = s.err := rfl
@[simp] theorem respond_hv (r : Response) (s : State) : (respond r s).hv = s.hv := rfl
@[simp] theorem respond_lastOp (r : Response) (s : State) : (respond r s).lastOp = s.lastOp := rfl
@[simp] theorem respond_hlen (r : Response) (s : State) : (respond r s).hlen = s.hlen := rfl
@[simp] theorem respond_olen (r : Response) (s : State) : (respond r s).olen = s.olen := rfl
@[simp] theorem respond_mem (r : Response) (s : State) : (respond r s).mem = s.mem := rfl
@[simp] theorem respond_scratch (r : Response) (s : State) : (respond r s).scratch = s.scratch := rfl
@[simp] theorem respond_phase (r : Response) (s : State) : (respond r s).phase = s.phase := rfl
@[simp] theorem respond_env (r : Response) (s : State) : (respond r s).env = s.env := rfl
@[simp] theorem respond_bus (r : Response) (s : State) : (respond r s).bus = { s.bus with responses := s.bus.responses ++ [r] } := rfl

@[simp] theorem startSequence_cfg (w : Word) (s : State) : (startSequence w s).cfg = s.cfg := rfl
@[simp] theorem startSequence_keybits (w : Word) (s : State) : (startSequence w s).keybits = s.keybits := rfl
@[simp] theorem startSequence_xlo (w : Word) (s : State) : (startSequence w s).xlo = s.xlo := rfl
@[simp] theorem startSequence_xhi (w : Word) (s : State) : (startSequence w s).xhi = s.xhi := rfl
@[simp] theorem startSequence_alen (w : Word) (s : State) : (startSequence w s).alen = s.alen := rfl
@[simp] theorem startSequence_blen (w : Word) (s : State) : (startSequence w s).blen = s.blen := rfl
@[simp] theorem startSequence_llen (w : Word) (s : State) : (startSequence w s).llen = s.llen := rfl
@[simp] theorem startSequence_mlen (w : Word) (s : State) : (startSequence w s).mlen = s.mlen := rfl
@[simp] theorem startSequence_err (w : Word) (s : State) : (startSequence w s).err = s.err := rfl
@[simp] theorem startSequence_hv (w : Word) (s : State) : (startSequence w s).hv = s.hv := rfl
@[simp] theorem startSequence_lastOp (w : Word) (s : State) : (startSequence w s).lastOp = CommandWord.op w := rfl
@[simp] theorem startSequence_hlen (w : Word) (s : State) : (startSequence w s).hlen = s.hlen := rfl
@[simp] theorem startSequence_olen (w : Word) (s : State) : (startSequence w s).olen = 0 := rfl
@[simp] theorem startSequence_mem (w : Word) (s : State) : (startSequence w s).mem = s.mem.clear 0x4000 s.cfg.cap := rfl
@[simp] theorem startSequence_scratch (w : Word) (s : State) : (startSequence w s).scratch = s.scratch := rfl
@[simp] theorem startSequence_phase (w : Word) (s : State) : (startSequence w s).phase = s.phase := rfl
@[simp] theorem startSequence_env (w : Word) (s : State) : (startSequence w s).env = s.env := rfl
@[simp] theorem startSequence_bus (w : Word) (s : State) : (startSequence w s).bus = s.bus := rfl

@[simp] theorem raise_cfg (k : ErrKind) (s : State) : (raise k s).cfg = s.cfg := rfl
@[simp] theorem raise_keybits (k : ErrKind) (s : State) : (raise k s).keybits = s.keybits := rfl
@[simp] theorem raise_xlo (k : ErrKind) (s : State) : (raise k s).xlo = s.xlo := rfl
@[simp] theorem raise_xhi (k : ErrKind) (s : State) : (raise k s).xhi = s.xhi := rfl
@[simp] theorem raise_alen (k : ErrKind) (s : State) : (raise k s).alen = s.alen := rfl
@[simp] theorem raise_blen (k : ErrKind) (s : State) : (raise k s).blen = s.blen := rfl
@[simp] theorem raise_llen (k : ErrKind) (s : State) : (raise k s).llen = s.llen := rfl
@[simp] theorem raise_mlen (k : ErrKind) (s : State) : (raise k s).mlen = s.mlen := rfl
@[simp] theorem raise_err (k : ErrKind) (s : State) : (raise k s).err = s.err := rfl
@[simp] theorem raise_hv (k : ErrKind) (s : State) : (raise k s).hv = s.hv := rfl
@[simp] theorem raise_lastOp (k : ErrKind) (s : State) : (raise k s).lastOp = s.lastOp := rfl
@[simp] theorem raise_hlen (k : ErrKind) (s : State) : (raise k s).hlen = s.hlen := rfl
@[simp] theorem raise_olen (k : ErrKind) (s : State) : (raise k s).olen = s.olen := rfl
@[simp] theorem raise_mem (k : ErrKind) (s : State) : (raise k s).mem = s.mem := rfl
@[simp] theorem raise_scratch (k : ErrKind) (s : State) : (raise k s).scratch = s.scratch := rfl
@[simp] theorem raise_phase (k : ErrKind) (s : State) : (raise k s).phase = .fail k := rfl
@[simp] theorem raise_env (k : ErrKind) (s : State) : (raise k s).env = s.env := rfl
@[simp] theorem raise_bus (k : ErrKind) (s : State) : (raise k s).bus = s.bus := rfl

@[simp] theorem finish_cfg (k : ErrKind) (s : State) : (finish k s).cfg = s.cfg := rfl
@[simp] theorem finish_keybits (k : ErrKind) (s : State) : (finish k s).keybits = s.keybits := rfl
@[simp] theorem finish_xlo (k : ErrKind) (s : State) : (finish k s).xlo = s.xlo := rfl
@[simp] theorem finish_xhi (k : ErrKind) (s : State) : (finish k s).xhi = s.xhi := rfl
@[simp] theorem finish_alen (k : ErrKind) (s : State) : (finish k s).alen = s.alen := rfl
@[simp] theorem finish_blen (k : ErrKind) (s : State) : (finish k s).blen = s.blen := rfl
@[simp] theorem finish_llen (k : ErrKind) (s : State) : (finish k s).llen = s.llen := rfl
@[simp] theorem finish_mlen (k : ErrKind) (s : State) : (finish k s).mlen = s.mlen := rfl
@[simp] theorem finish_err (k : ErrKind) (s : State) : (finish k s).err = k := rfl
@[simp] theorem finish_hv (k : ErrKind) (s : State) : (finish k s).hv = s.hv := rfl
@[simp] theorem finish_lastOp (k : ErrKind) (s : State) : (finish k s).lastOp = s.lastOp := rfl
@[simp] theorem finish_hlen (k : ErrKind) (s : State) : (finish k s).hlen = s.hlen := rfl
@[simp] theorem finish_olen (k : ErrKind) (s : State) : (finish k s).olen = s.olen := rfl
@[simp] theorem finish_mem (k : ErrKind) (s : State) : (finish k s).mem = s.mem := rfl
@[simp] theorem finish_scratch (k : ErrKind) (s : State) : (finish k s).scratch = Scratch.zero := rfl
@[simp] theorem finish_phase (k : ErrKind) (s : State) : (finish k s).phase = .idle := rfl
@[simp] theorem finish_env (k : ErrKind) (s : State) : (finish k s).env = s.env := rfl
@[simp] theorem finish_bus (k : ErrKind) (s : State) : (finish k s).bus = { s.bus with responses := s.bus.responses ++ [.done] } := rfl

@[simp] theorem completeFail_cfg (k : ErrKind) (s : State) : (completeFail k s).cfg = s.cfg := rfl
@[simp] theorem completeFail_keybits (k : ErrKind) (s : State) : (completeFail k s).keybits = s.keybits := rfl
@[simp] theorem completeFail_xlo (k : ErrKind) (s : State) : (completeFail k s).xlo = s.xlo := rfl
@[simp] theorem completeFail_xhi (k : ErrKind) (s : State) : (completeFail k s).xhi = s.xhi := rfl
@[simp] theorem completeFail_alen (k : ErrKind) (s : State) : (completeFail k s).alen = s.alen := rfl
@[simp] theorem completeFail_blen (k : ErrKind) (s : State) : (completeFail k s).blen = s.blen := rfl
@[simp] theorem completeFail_llen (k : ErrKind) (s : State) : (completeFail k s).llen = s.llen := rfl
@[simp] theorem completeFail_mlen (k : ErrKind) (s : State) : (completeFail k s).mlen = s.mlen := rfl
@[simp] theorem completeFail_err (k : ErrKind) (s : State) : (completeFail k s).err = k := rfl
@[simp] theorem completeFail_hv (k : ErrKind) (s : State) : (completeFail k s).hv = s.hv := rfl
@[simp] theorem completeFail_lastOp (k : ErrKind) (s : State) : (completeFail k s).lastOp = s.lastOp := rfl
@[simp] theorem completeFail_hlen (k : ErrKind) (s : State) : (completeFail k s).hlen = s.hlen := rfl
@[simp] theorem completeFail_olen (k : ErrKind) (s : State) : (completeFail k s).olen = 0 := rfl
@[simp] theorem completeFail_mem (k : ErrKind) (s : State) : (completeFail k s).mem = s.mem.clear 0x4000 s.cfg.cap := rfl
@[simp] theorem completeFail_scratch (k : ErrKind) (s : State) : (completeFail k s).scratch = Scratch.zero := rfl
@[simp] theorem completeFail_phase (k : ErrKind) (s : State) : (completeFail k s).phase = .idle := rfl
@[simp] theorem completeFail_env (k : ErrKind) (s : State) : (completeFail k s).env = s.env := rfl
@[simp] theorem completeFail_bus (k : ErrKind) (s : State) : (completeFail k s).bus = { s.bus with responses := s.bus.responses ++ [.done] } := rfl

@[simp] theorem emit_cfg (r : Octets) (s : State) : (emit r s).cfg = s.cfg := rfl
@[simp] theorem emit_keybits (r : Octets) (s : State) : (emit r s).keybits = s.keybits := rfl
@[simp] theorem emit_xlo (r : Octets) (s : State) : (emit r s).xlo = s.xlo := rfl
@[simp] theorem emit_xhi (r : Octets) (s : State) : (emit r s).xhi = s.xhi := rfl
@[simp] theorem emit_alen (r : Octets) (s : State) : (emit r s).alen = s.alen := rfl
@[simp] theorem emit_blen (r : Octets) (s : State) : (emit r s).blen = s.blen := rfl
@[simp] theorem emit_llen (r : Octets) (s : State) : (emit r s).llen = s.llen := rfl
@[simp] theorem emit_mlen (r : Octets) (s : State) : (emit r s).mlen = s.mlen := rfl
@[simp] theorem emit_err (r : Octets) (s : State) : (emit r s).err = .ok := rfl
@[simp] theorem emit_hv (r : Octets) (s : State) : (emit r s).hv = s.hv := rfl
@[simp] theorem emit_lastOp (r : Octets) (s : State) : (emit r s).lastOp = s.lastOp := rfl
@[simp] theorem emit_hlen (r : Octets) (s : State) : (emit r s).hlen = s.hlen := rfl
@[simp] theorem emit_olen (r : Octets) (s : State) : (emit r s).olen = BitVec.ofNat 32 r.length := rfl
@[simp] theorem emit_mem (r : Octets) (s : State) : (emit r s).mem = s.mem.store 0x4000 r := rfl
@[simp] theorem emit_scratch (r : Octets) (s : State) : (emit r s).scratch = Scratch.zero := rfl
@[simp] theorem emit_phase (r : Octets) (s : State) : (emit r s).phase = .idle := rfl
@[simp] theorem emit_env (r : Octets) (s : State) : (emit r s).env = s.env := rfl
@[simp] theorem emit_bus (r : Octets) (s : State) : (emit r s).bus = { s.bus with responses := s.bus.responses ++ [.done] } := rfl

@[simp] theorem dropInput_cfg (s : State) : (dropInput s).cfg = s.cfg := rfl
@[simp] theorem dropInput_keybits (s : State) : (dropInput s).keybits = s.keybits := rfl
@[simp] theorem dropInput_xlo (s : State) : (dropInput s).xlo = s.xlo := rfl
@[simp] theorem dropInput_xhi (s : State) : (dropInput s).xhi = s.xhi := rfl
@[simp] theorem dropInput_alen (s : State) : (dropInput s).alen = s.alen := rfl
@[simp] theorem dropInput_blen (s : State) : (dropInput s).blen = s.blen := rfl
@[simp] theorem dropInput_llen (s : State) : (dropInput s).llen = s.llen := rfl
@[simp] theorem dropInput_mlen (s : State) : (dropInput s).mlen = s.mlen := rfl
@[simp] theorem dropInput_err (s : State) : (dropInput s).err = s.err := rfl
@[simp] theorem dropInput_hv (s : State) : (dropInput s).hv = s.hv := rfl
@[simp] theorem dropInput_lastOp (s : State) : (dropInput s).lastOp = s.lastOp := rfl
@[simp] theorem dropInput_hlen (s : State) : (dropInput s).hlen = s.hlen := rfl
@[simp] theorem dropInput_olen (s : State) : (dropInput s).olen = s.olen := rfl
@[simp] theorem dropInput_mem (s : State) : (dropInput s).mem = s.mem := rfl
@[simp] theorem dropInput_scratch (s : State) : (dropInput s).scratch = s.scratch := rfl
@[simp] theorem dropInput_phase (s : State) : (dropInput s).phase = s.phase := rfl
@[simp] theorem dropInput_env (s : State) : (dropInput s).env = s.env := rfl
@[simp] theorem dropInput_bus (s : State) : (dropInput s).bus = { s.bus with inputs := s.bus.inputs.tail } := rfl

end Sys2Proof.Machine
end

