-- ==== Sys2Proof/Laws/Sequencer.lean ====
section
/-! SUPPORT. Running phases: composition, stopping at IDLE, and what a whole run of the MGF1 pipeline does (41_mgf1.md R120 to R122). -/

namespace Sys2Proof.Machine

@[simp] theorem seqRun_zero (s : State) : seqRun 0 s = s := rfl

/-- Nothing but a CMD write leaves IDLE (10_state.md R41). -/
theorem seqStep_of_idle {s : State} (h : s.phase = .idle) : seqStep s = s := by simp [seqStep, h]

theorem seqRun_of_idle {s : State} (h : s.phase = .idle) (n : Nat) : seqRun n s = s := by
  cases n <;> simp [seqRun, h]

theorem seqRun_succ {s : State} (h : s.phase ≠ .idle) (n : Nat) : seqRun (n + 1) s = seqRun n (seqStep s) := by
  simp [seqRun, h]

/-- A run is the iterate of the phase step: stopping at IDLE changes nothing. -/
theorem seqRun_succ' (n : Nat) (s : State) : seqRun (n + 1) s = seqRun n (seqStep s) := by
  by_cases h : s.phase = .idle
  · rw [seqStep_of_idle h, seqRun_of_idle h, seqRun_of_idle h]
  · exact seqRun_succ h n

theorem seqRun_add (m n : Nat) (s : State) : seqRun (m + n) s = seqRun n (seqRun m s) := by
  induction m generalizing s with
  | zero => simp
  | succ m ih => rw [Nat.succ_add, seqRun_succ', seqRun_succ', ih]

theorem seqRun_trans {m n k : Nat} {s t u : State} (h1 : seqRun m s = t) (h2 : seqRun n t = u) (hk : k = m + n) : seqRun k s = u := by
  rw [hk, seqRun_add, h1, h2]

/-- A run that has completed stays as it is however many more phases are allowed. -/
theorem seqRun_of_le {m n : Nat} {s t : State} (h : seqRun m s = t) (ht : t.phase = .idle) (hle : m ≤ n) : seqRun n s = t := by
  obtain ⟨d, rfl⟩ := Nat.exists_eq_add_of_le hle
  rw [seqRun_add, h, seqRun_of_idle ht]

/-- A property that one phase keeps is kept by a run. -/
theorem seqRun_induct {P : State → Prop} (hstep : ∀ s, P s → P (seqStep s)) (n : Nat) {s : State} (h : P s) : P (seqRun n s) := by
  induction n generalizing s with
  | zero => exact h
  | succ n ih => rw [seqRun_succ']; exact ih (hstep s h)

/-- A failing command has completed after one more phase (60_exceptions.md R186). -/
theorem seqRun_fail {s : State} {k : ErrKind} (h : s.phase = .fail k) {n : Nat} (hn : 1 ≤ n) : seqRun n s = completeFail k s := by
  refine seqRun_of_le (m := 1) ?_ rfl hn
  simp [seqRun, seqStep, h]

/-! ### The MGF1 pipeline -/

/-- The state with the pipeline's registers, the phase and the environment replaced. -/
def withPipe (s : State) (ph : Phase) (c n : Nat) (t c4 d : Octets) (e : Env) : State :=
  { s with scratch := { s.scratch with c := c, n := n, t := t, c4 := c4, d := d }, phase := ph, env := e }

/-- The digests of the first `n` counters (41_mgf1.md R120). -/
def digests (e : Env) (seed : Octets) (n : Nat) : Octets := (List.range n).flatMap fun c => hashValue e (seed ++ i2ospOctets c)

/-- The Hash events of the first `n` counters. -/
def digestEvents (seed : Octets) (n : Nat) : List Event := (List.range n).map fun c => Event.hash (seed ++ i2ospOctets c)

theorem digests_succ (e : Env) (seed : Octets) (n : Nat) :
    digests e seed (n + 1) = digests e seed n ++ hashValue e (seed ++ i2ospOctets n) := by
  simp [digests, List.range_succ]

theorem digestEvents_succ (seed : Octets) (n : Nat) :
    digestEvents seed (n + 1) = digestEvents seed n ++ [Event.hash (seed ++ i2ospOctets n)] := by
  simp [digestEvents, List.range_succ]

theorem length_digests (e : Env) (seed : Octets) (n : Nat) : (digests e seed n).length = n * e.hashLen := by
  rw [digests, length_flatMap_hashValue e (fun c => seed ++ i2ospOctets c), List.length_range]

theorem hashPort_of_answers {s : State} (h : s.env.hashAnswers = none) (m : Octets) :
    hashPort m s = some (hashValue s.env m, { s with env := s.env.logged [.hash m] }) := by
  simp [hashPort, h, Env.logged]

variable {cmd : Instr} {seed : Octets} {length : Nat} {here : MgfPhase → Phase} {done : Octets → State → State} {s : State}

/-- One round of the pipeline: M_I2OSP, M_HASH, M_APPEND. -/
theorem mgf_round
    (hstep : ∀ m c n t c4 d e, seqStep (withPipe s (here m) c n t c4 d e) = mgfPhase cmd seed length here done m (withPipe s (here m) c n t c4 d e))
    {c n : Nat} {t c4 d : Octets} {e : Env} (hans : e.hashAnswers = none) (hc : c < 4294967296) :
    seqRun 3 (withPipe s (here .i2osp) c n t c4 d e) =
      if c + 1 < n then
        withPipe s (here .i2osp) (c + 1) n (t ++ hashValue e (seed ++ i2ospOctets c)) (i2ospOctets c) (hashValue e (seed ++ i2ospOctets c))
          (e.logged [.hash (seed ++ i2ospOctets c)])
      else
        withPipe s (here .trunc) c n (t ++ hashValue e (seed ++ i2ospOctets c)) (i2ospOctets c) (hashValue e (seed ++ i2ospOctets c))
          (e.logged [.hash (seed ++ i2ospOctets c)]) := by
  have h1 : seqStep (withPipe s (here .i2osp) c n t c4 d e) = withPipe s (here .hash) c n t (i2ospOctets c) d e := by
    rw [hstep]; simp only [mgfPhase, withPipe, i2osp_of_lt hc]
  have h2 : seqStep (withPipe s (here .hash) c n t (i2ospOctets c) d e) =
      withPipe s (here .append) c n t (i2ospOctets c) (hashValue e (seed ++ i2ospOctets c)) (e.logged [.hash (seed ++ i2ospOctets c)]) := by
    rw [hstep]; simp only [mgfPhase]
    rw [hashPort_of_answers (by exact hans)]; rfl
  rw [seqRun_succ', h1, seqRun_succ', h2, seqRun_succ', hstep, seqRun_zero]
  simp only [mgfPhase, withPipe]
  rfl

/-- The counter loop from counter `c` on, `k` rounds to go. -/
theorem mgf_loop
    (hstep : ∀ m c n t c4 d e, seqStep (withPipe s (here m) c n t c4 d e) = mgfPhase cmd seed length here done m (withPipe s (here m) c n t c4 d e))
    (k : Nat) {c : Nat} {c4 d : Octets} {e : Env} (hans : e.hashAnswers = none) (hc : c + k < 4294967296) :
    ∃ c' c4' d', seqRun (3 * (k + 1)) (withPipe s (here .i2osp) c (c + k + 1) (digests e seed c) c4 d (e.logged (digestEvents seed c))) =
      withPipe s (here .trunc) c' (c + k + 1) (digests e seed (c + k + 1)) c4' d' (e.logged (digestEvents seed (c + k + 1))) := by
  induction k generalizing c c4 d with
  | zero =>
    refine ⟨c, i2ospOctets c, hashValue e (seed ++ i2ospOctets c), ?_⟩
    rw [mgf_round hstep (by simpa using hans) (by omega), if_neg (by omega), Env.logged_logged, hashValue_logged, ← digests_succ,
      ← digestEvents_succ]
  | succ k ih =>
    obtain ⟨c', c4', d', h⟩ := ih (c := c + 1) (c4 := i2ospOctets c) (d := hashValue e (seed ++ i2ospOctets c)) (by omega)
    refine ⟨c', c4', d', ?_⟩
    rw [show 3 * (k + 1 + 1) = 3 + 3 * (k + 1) by omega, seqRun_add, mgf_round hstep (by simpa using hans) (by omega), if_pos (by omega),
      Env.logged_logged, hashValue_logged, ← digests_succ, ← digestEvents_succ]
    rw [show c + (k + 1) + 1 = c + 1 + k + 1 by omega]
    exact h

/-- A whole run of `mgf` (41_mgf1.md R120, R121): the mask goes to `done` after `3 * (floor(length / hLen) + 1) + 2` phases, and the Hash events
are those of the counters in order. -/
theorem mgf_run
    (hstep : ∀ m c n t c4 d e, seqStep (withPipe s (here m) c n t c4 d e) = mgfPhase cmd seed length here done m (withPipe s (here m) c n t c4 d e))
    (hph : s.phase = here .init) (hans : s.env.hashAnswers = none) (hh : hLen s = s.env.hashLen) (hpos : 0 < hLen s)
    (hlen : length < 4294967296) :
    ∃ c n t c4 d, seqRun (3 * (length / hLen s + 1) + 2) s =
      done (mask s.env (hLen s) seed length) (withPipe s (here .trunc) c n t c4 d (s.env.logged (maskEvents (hLen s) seed length))) := by
  have hdiv : length / hLen s ≤ length := Nat.div_le_self _ _
  obtain ⟨c', c4', d', h⟩ := mgf_loop hstep (length / hLen s) (c := 0) (c4 := s.scratch.c4) (d := s.scratch.d) hans (by omega)
  refine ⟨c', length / hLen s + 1, digests s.env seed (length / hLen s + 1), c4', d', ?_⟩
  have h0 : seqRun 1 s = withPipe s (here .i2osp) 0 (length / hLen s + 1) [] s.scratch.c4 s.scratch.d s.env := by
    have hs : s = withPipe s (here .init) s.scratch.c s.scratch.n s.scratch.t s.scratch.c4 s.scratch.d s.env := by
      rw [← hph]; rfl
    rw [seqRun_succ', seqRun_zero]
    conv_lhs => rw [hs, hstep]
    rfl
  rw [show 3 * (length / hLen s + 1) + 2 = 1 + 3 * (length / hLen s + 1) + 1 by omega, seqRun_add, seqRun_add, h0]
  have hd0 : digests s.env seed 0 = [] := rfl
  have he0 : s.env.logged (digestEvents seed 0) = s.env := by simp [digestEvents]
  rw [hd0, he0, Nat.zero_add] at h
  rw [h, seqRun_succ', seqRun_zero, hstep]
  have hT : ¬ (digests s.env seed (length / hLen s + 1)).length < length := by
    rw [length_digests, ← hh]
    have h1 := Nat.div_add_mod length (hLen s)
    have h2 := Nat.mod_lt length hpos
    rw [Nat.succ_mul, Nat.mul_comm]; omega
  simp only [mgfPhase]
  rw [if_neg (by exact hT)]
  rfl

end Sys2Proof.Machine
end

