-- ==== Sys2Proof/Laws/Start.lean ====
section
/-! SUPPORT. The start of a command: what the start sequence leaves alone, and the three ways it can end (60_exceptions.md R185). -/

namespace Sys2Proof.Machine

theorem Params.cap_pos {p : Params} (h : p.wf = true) : 1 ≤ p.cap := by
  simp only [Params.wf, Bool.and_eq_true, decide_eq_true_eq] at h; exact h.1.1.1.1

theorem Params.cap_le {p : Params} (h : p.wf = true) : p.cap ≤ 4096 := by
  simp only [Params.wf, Bool.and_eq_true, decide_eq_true_eq] at h; exact h.1.1.1.2

theorem Params.hmax_lt {p : Params} (h : p.wf = true) : p.hmax < 4294967296 := by
  simp only [Params.wf, Bool.and_eq_true, decide_eq_true_eq] at h; exact h.1.2

@[simp] theorem Buf.window_a : Buf.window .a = 0x1000 := rfl
@[simp] theorem Buf.window_b : Buf.window .b = 0x2000 := rfl
@[simp] theorem Buf.window_l : Buf.window .l = 0x3000 := rfl
@[simp] theorem Buf.window_o : Buf.window .o = 0x4000 := rfl

/-- The decoder reads back the opcode of an encoded command. -/
@[simp] theorem op_encode (i : Instr) : CommandWord.op (encode i) = i.opcode := by cases i <;> rfl

@[simp] theorem length_operandA (s : State) : (operandA s).length = s.alen.toNat := by simp [operandA, bufLoad]
@[simp] theorem length_operandB (s : State) : (operandB s).length = s.blen.toNat := by simp [operandB, bufLoad]
@[simp] theorem length_label (s : State) : (label s).length = s.llen.toNat := by simp [label, bufLoad]

/-- Clearing O touches no byte below its window. -/
theorem read_clear_o (m : Memory) (n a : Nat) (h : a < 0x4000) : (m.clear 0x4000 n).read a = m.read a := by
  rw [Memory.read_clear, if_neg (by omega)]

theorem operandA_startSequence (w : Word) (s : State) (h : s.alen.toNat ≤ 4096) : operandA (startSequence w s) = operandA s :=
  Memory.load_congr fun i hi => by
    rw [startSequence_mem]; exact read_clear_o _ _ _ (by simp only [startSequence_alen, Buf.window_a] at *; omega)

theorem operandB_startSequence (w : Word) (s : State) (h : s.blen.toNat ≤ 4096) : operandB (startSequence w s) = operandB s :=
  Memory.load_congr fun i hi => by
    rw [startSequence_mem]; exact read_clear_o _ _ _ (by simp only [startSequence_blen, Buf.window_b] at *; omega)

theorem label_startSequence (w : Word) (s : State) (h : s.llen.toNat ≤ 4096) : label (startSequence w s) = label s :=
  Memory.load_congr fun i hi => by
    rw [startSequence_mem]; exact read_clear_o _ _ _ (by simp only [startSequence_llen, Buf.window_l] at *; omega)

@[simp] theorem capacityFault_startSequence (i : Instr) (w : Word) (s : State) :
    capacityFault i (startSequence w s) = capacityFault i s := by cases i <;> rfl

@[simp] theorem withLatch_cfg (s : State) : (withLatch s).cfg = s.cfg := by unfold withLatch; split <;> rfl
@[simp] theorem withLatch_keybits (s : State) : (withLatch s).keybits = s.keybits := by unfold withLatch; split <;> rfl
@[simp] theorem withLatch_xlo (s : State) : (withLatch s).xlo = s.xlo := by unfold withLatch; split <;> rfl
@[simp] theorem withLatch_xhi (s : State) : (withLatch s).xhi = s.xhi := by unfold withLatch; split <;> rfl
@[simp] theorem withLatch_alen (s : State) : (withLatch s).alen = s.alen := by unfold withLatch; split <;> rfl
@[simp] theorem withLatch_blen (s : State) : (withLatch s).blen = s.blen := by unfold withLatch; split <;> rfl
@[simp] theorem withLatch_llen (s : State) : (withLatch s).llen = s.llen := by unfold withLatch; split <;> rfl
@[simp] theorem withLatch_mlen (s : State) : (withLatch s).mlen = s.mlen := by unfold withLatch; split <;> rfl
@[simp] theorem withLatch_err (s : State) : (withLatch s).err = s.err := by unfold withLatch; split <;> rfl
@[simp] theorem withLatch_lastOp (s : State) : (withLatch s).lastOp = s.lastOp := by unfold withLatch; split <;> rfl
@[simp] theorem withLatch_olen (s : State) : (withLatch s).olen = s.olen := by unfold withLatch; split <;> rfl
@[simp] theorem withLatch_mem (s : State) : (withLatch s).mem = s.mem := by unfold withLatch; split <;> rfl
@[simp] theorem withLatch_scratch (s : State) : (withLatch s).scratch = s.scratch := by unfold withLatch; split <;> rfl
@[simp] theorem withLatch_phase (s : State) : (withLatch s).phase = s.phase := by unfold withLatch; split <;> rfl
@[simp] theorem withLatch_bus (s : State) : (withLatch s).bus = s.bus := by unfold withLatch; split <;> rfl
@[simp] theorem withLatch_hv (s : State) : (withLatch s).hv = true := by
  unfold withLatch; split
  · assumption
  · rfl
@[simp] theorem withLatch_hashLen (s : State) : (withLatch s).env.hashLen = s.env.hashLen := by unfold withLatch; split <;> rfl
@[simp] theorem withLatch_hashAnswers (s : State) : (withLatch s).env.hashAnswers = s.env.hashAnswers := by unfold withLatch; split <;> rfl
@[simp] theorem withLatch_randAnswers (s : State) : (withLatch s).env.randAnswers = s.env.randAnswers := by unfold withLatch; split <;> rfl
@[simp] theorem hashValue_withLatch (s : State) (m : Octets) : hashValue (withLatch s).env m = hashValue s.env m := by
  unfold withLatch; split <;> rfl
@[simp] theorem mask_withLatch (s : State) (h : Nat) (seed : Octets) (n : Nat) : mask (withLatch s).env h seed n = mask s.env h seed n := by
  unfold withLatch; split <;> rfl
@[simp] theorem rhoNext_withLatch (s : State) (n : Nat) : rhoNext (withLatch s).env n = rhoNext s.env n := by
  unfold withLatch; split <;> rfl
@[simp] theorem operandA_withLatch (s : State) : operandA (withLatch s) = operandA s := by unfold withLatch; split <;> rfl
@[simp] theorem label_withLatch (s : State) : label (withLatch s) = label s := by unfold withLatch; split <;> rfl

/-- After the latch hLen is the attached primitive's digest size, in `1..HMAX` (10_state.md R32, R33). -/
theorem hLen_withLatch {s : State} (hcfg : s.cfg.wf = true) (hu : digestUsable s) (ha : latchAgrees s) :
    hLen (withLatch s) = s.env.hashLen ∧ 1 ≤ s.env.hashLen ∧ s.env.hashLen ≤ s.cfg.hmax := by
  by_cases h : s.hv = true
  · have := ha h
    have hw : withLatch s = s := by simp [withLatch, h]
    rw [hw, this.1, ← this.1]; exact ⟨rfl, this.2⟩
  · rcases hu with hu | hu
    · exact absurd hu h
    · have := Params.hmax_lt hcfg
      refine ⟨?_, hu⟩
      simp [withLatch, h, hLen, Nat.mod_eq_of_lt (show s.env.hashLen < 4294967296 by omega)]

/-- The start of a command that a capacity check stops (60_exceptions.md R184). -/
theorem beginCommand_capacityFault {i : Instr} {s : State} (h : capacityFault i s = true) :
    beginCommand i s = raise .use (startSequence (encode i) s) := by
  simp [beginCommand, h]

/-- Command `i`, started in `s`, in phase `ph` with scratch `sc` and environment `e`: everything else is as the start sequence left it
(10_state.md R26). -/
def running (i : Instr) (ph : Phase) (sc : Scratch) (e : Env) (s : State) : State :=
  { startSequence (encode i) s with scratch := sc, phase := ph, env := e }

/-- The start of a command that needs no hLen. -/
theorem beginCommand_plain {i : Instr} {s : State} (hc : capacityFault i s = false) (hu : usesHash i = false) :
    beginCommand i s = running i (firstPhase i) s.scratch s.env s := by
  simp only [beginCommand, capacityFault_startSequence, hc, hu]; rfl

/-- The start of a command that needs hLen and gets it (10_state.md R33). -/
theorem beginCommand_latched {i : Instr} {s : State} (hc : capacityFault i s = false) (hu : usesHash i = true) (hd : digestUsable s) :
    beginCommand i s = running i (firstPhase i) s.scratch (withLatch s).env (withLatch s) := by
  by_cases h : s.hv = true
  · have hb : beginCommand i s = latch i (startSequence (encode i) s) := by simp [beginCommand, hc, hu]
    rw [hb, latch, if_pos (by simpa using h), withLatch, if_pos h]; rfl
  · have hd' : ¬ (s.env.hashLen < 1 ∨ s.env.hashLen > s.cfg.hmax) := by
      rcases hd with hd | hd
      · exact absurd hd h
      · omega
    have hb : beginCommand i s = latch i (startSequence (encode i) s) := by simp [beginCommand, hc, hu]
    rw [hb, latch, if_neg (by simpa using h)]
    simp only [withLatch, if_neg h]
    exact if_neg hd'

/-- The start of a command that needs hLen and is refused it (10_state.md R33). -/
theorem beginCommand_digestFault {i : Instr} {s : State} (hc : capacityFault i s = false) (hu : usesHash i = true) (hv : s.hv = false)
    (hd : s.env.hashLen < 1 ∨ s.env.hashLen > s.cfg.hmax) :
    beginCommand i s = raise .use (record .digestSize (startSequence (encode i) s)) := by
  have hb : beginCommand i s = latch i (startSequence (encode i) s) := by simp [beginCommand, hc, hu]
  rw [hb, latch, if_neg (by simp [hv])]
  exact if_pos hd

/-- A successful end of a running command. -/
theorem emit_running (i : Instr) (ph : Phase) (sc : Scratch) (e : Env) (s : State) (r : Octets) :
    emit r (running i ph sc e s) = okState i r e s := by
  simp only [okState, ← op_encode]; rfl

theorem clear_clear (m : Memory) (base n : Nat) : (m.clear base n).clear base n = m.clear base n := by
  simp [Memory.clear, List.filter_filter]

/-- The failing end of a running command. -/
theorem completeFail_running (i : Instr) (ph : Phase) (sc : Scratch) (e : Env) (s : State) (k : ErrKind) :
    completeFail k (running i ph sc e s) = failState i.opcode k e s := by
  have h : (completeFail k (running i ph sc e s)).mem = s.mem.clear 0x4000 s.cfg.cap := clear_clear _ _ _
  rw [← op_encode]
  unfold failState
  rw [← h]; rfl

theorem raise_running (i : Instr) (ph : Phase) (sc : Scratch) (e : Env) (s : State) (k : ErrKind) :
    raise k (running i ph sc e s) = running i (.fail k) sc e s := rfl

theorem withPipe_running (i : Instr) (ph ph' : Phase) (sc : Scratch) (e e' : Env) (s : State) (c n : Nat) (t c4 d : Octets) :
    withPipe (running i ph sc e s) ph' c n t c4 d e' = running i ph' { sc with c := c, n := n, t := t, c4 := c4, d := d } e' s := rfl

@[simp] theorem running_env (i : Instr) (ph : Phase) (sc : Scratch) (e : Env) (s : State) : (running i ph sc e s).env = e := rfl
@[simp] theorem running_scratch (i : Instr) (ph : Phase) (sc : Scratch) (e : Env) (s : State) : (running i ph sc e s).scratch = sc := rfl
@[simp] theorem running_phase (i : Instr) (ph : Phase) (sc : Scratch) (e : Env) (s : State) : (running i ph sc e s).phase = ph := rfl
@[simp] theorem hLen_running (i : Instr) (ph : Phase) (sc : Scratch) (e : Env) (s : State) : hLen (running i ph sc e s) = hLen s := rfl

/-- A running command that has raised completes with its kind. -/
theorem seqRun_running_fail (i : Instr) (sc : Scratch) (e : Env) (s : State) (k : ErrKind) {n : Nat} (hn : 1 ≤ n) :
    seqRun n (running i (.fail k) sc e s) = failState i.opcode k e s := by
  rw [seqRun_fail rfl hn, completeFail_running]

theorem operandA_running {i : Instr} {ph : Phase} {sc : Scratch} {e : Env} {s : State} (h : s.alen.toNat ≤ 4096) :
    operandA (running i ph sc e s) = operandA s := operandA_startSequence (encode i) s h

theorem operandB_running {i : Instr} {ph : Phase} {sc : Scratch} {e : Env} {s : State} (h : s.blen.toNat ≤ 4096) :
    operandB (running i ph sc e s) = operandB s := operandB_startSequence (encode i) s h

theorem label_running {i : Instr} {ph : Phase} {sc : Scratch} {e : Env} {s : State} (h : s.llen.toNat ≤ 4096) :
    label (running i ph sc e s) = label s := label_startSequence (encode i) s h

theorem one_le_phaseBudget (s : State) : 1 ≤ phaseBudget s := by unfold phaseBudget; omega

end Sys2Proof.Machine
end

