-- ==== Sys2Proof/Laws/Cases.lean ====
section
/-! SUPPORT. What one phase can do, said once (10_state.md R41), and what follows for a run of phases: what no command changes. -/

namespace Sys2Proof.Machine

theorem Env.sameCollaborators_refl (e : Env) : e.sameCollaborators e := ⟨rfl, rfl, rfl, rfl⟩

theorem Env.sameCollaborators_trans {e e' e'' : Env} (h : e.sameCollaborators e') (h' : e'.sameCollaborators e'') :
    e.sameCollaborators e'' :=
  ⟨h'.1.trans h.1, h'.2.1.trans h.2.1, h'.2.2.1.trans h.2.2.1, h'.2.2.2.trans h.2.2.2⟩

/-- The state with other scratch, phase and environment: what a phase inside a command changes. -/
def moved (s : State) (sc : Scratch) (ph : Phase) (e : Env) : State := { s with scratch := sc, phase := ph, env := e }

/-- The kind a phase can raise is EncodingError or DecodingError (60_exceptions.md R183). -/
def Phase.raisesOwnKind (ph : Phase) : Prop := ∀ k, ph = .fail k → k = .enc ∨ k = .dec

/-- What a phase inside a command, or its last phase with a result, leads to. -/
def PhaseStep (s t : State) : Prop :=
  (∃ r, t = emit r s) ∨
    ∃ sc ph e, t = moved s sc ph e ∧ ph ≠ .idle ∧ ph.raisesOwnKind ∧ s.env.sameCollaborators e

theorem PhaseStep.emit (r : Octets) (s : State) : PhaseStep s (emit r s) := .inl ⟨r, rfl⟩

theorem PhaseStep.moved {s : State} {sc : Scratch} {ph : Phase} (h : ph ≠ .idle) (hk : ph.raisesOwnKind) :
    PhaseStep s (moved s sc ph s.env) :=
  .inr ⟨sc, ph, s.env, rfl, h, hk, Env.sameCollaborators_refl _⟩

theorem PhaseStep.stay {s : State} (h : s.phase ≠ .idle) (hk : s.phase.raisesOwnKind) : PhaseStep s s :=
  .inr ⟨s.scratch, s.phase, s.env, rfl, h, hk, Env.sameCollaborators_refl _⟩

theorem raisesOwnKind_of_ne {ph : Phase} (h : ∀ k, ph ≠ .fail k) : ph.raisesOwnKind := fun k hk => absurd hk (h k)

theorem raisesOwnKind_fail {k : ErrKind} (h : k = .enc ∨ k = .dec) : (Phase.fail k).raisesOwnKind := by
  rintro k' ⟨⟩; exact h

theorem kindOf_own (i : Instr) : kindOf i = .enc ∨ kindOf i = .dec := by cases i <;> simp [kindOf]

theorem PhaseStep.raise {k : ErrKind} (s : State) (h : k = .enc ∨ k = .dec) : PhaseStep s (raise k s) :=
  PhaseStep.moved (sc := s.scratch) (by simp) (raisesOwnKind_fail h)

/-- A step of a state whose scratch has been rewritten is a step of the state. -/
theorem PhaseStep.of_scratch {s t : State} {sc : Scratch} (h : PhaseStep { s with scratch := sc } t) :
    PhaseStep s t := by
  rcases h with ⟨r, rfl⟩ | ⟨sc', ph, e, rfl, h⟩
  · exact .inl ⟨r, rfl⟩
  · exact .inr ⟨sc', ph, e, rfl, h⟩

theorem hashPort_cases {m d : Octets} {s t : State} (h : hashPort m s = some (d, t)) :
    d = hashValue s.env m ∧ ∃ e, t = { s with env := e } ∧ s.env.sameCollaborators e := by
  unfold hashPort at h
  split at h
  · cases h
  · cases h; exact ⟨rfl, _, rfl, rfl, rfl, rfl, rfl⟩

theorem randPort_cases {n : Nat} {r : Octets} {s t : State} (h : randPort n s = some (r, t)) :
    r = rhoNext s.env n ∧ t = { s with env := s.env.afterRand n } := by
  unfold randPort at h
  split at h
  · cases h; exact ⟨rfl, rfl⟩
  · cases h

/-- A random source that answers (00_scope.md R17). -/
theorem randPort_delivers {n : Nat} {s : State} (h : s.env.randAnswers = none) :
    randPort n s = some (rhoNext s.env n, { s with env := s.env.afterRand n }) := by
  simp [randPort, Env.delivers, h]

/-- One phase of `mgf` (41_mgf1.md R122). -/
theorem mgfPhase_step {cmd : Instr} {seed : Octets} {length : Nat} {here : MgfPhase → Phase} {done : Octets → State → State}
    {m : MgfPhase} {s : State} (hph : s.phase = here m) (hidle : ∀ m, here m ≠ .idle) (hfail : ∀ m k, here m ≠ .fail k)
    (hdone : ∀ r, PhaseStep s (done r s)) : PhaseStep s (mgfPhase cmd seed length here done m s) := by
  have own : ∀ m, (here m).raisesOwnKind := fun m => raisesOwnKind_of_ne (hfail m)
  cases m with
  | init => exact PhaseStep.moved (hidle _) (own _)
  | i2osp =>
    simp only [mgfPhase]
    split
    · exact PhaseStep.raise _ (kindOf_own _)
    · exact PhaseStep.moved (hidle _) (own _)
  | hash =>
    simp only [mgfPhase]
    split
    · exact PhaseStep.stay (hph ▸ hidle _) (hph ▸ own _)
    · rename_i h
      obtain ⟨-, e, rfl, he⟩ := hashPort_cases h
      exact .inr ⟨_, _, e, rfl, hidle _, own _, he⟩
  | append =>
    simp only [mgfPhase]
    split
    · exact PhaseStep.moved (hidle _) (own _)
    · exact PhaseStep.moved (hidle _) (own _)
  | trunc =>
    simp only [mgfPhase]
    split
    · exact PhaseStep.raise _ (kindOf_own _)
    · exact hdone _

/-- What one phase can do: nothing while IDLE, the completion sequence from FAIL, CLR's one phase, or a phase inside a command. -/
theorem seqStep_cases (s : State) :
    (s.phase = .idle ∧ seqStep s = s) ∨ (∃ k, s.phase = .fail k ∧ seqStep s = completeFail k s) ∨
      (s.phase = .kClr ∧ seqStep s = phaseKClr s) ∨
        ((∀ k, s.phase ≠ .fail k) ∧ s.phase ≠ .idle ∧ s.phase ≠ .kClr ∧ PhaseStep s (seqStep s)) := by
  have plain : ∀ {ph : Phase} {sc : Scratch}, ph ≠ .idle → (∀ k, ph ≠ .fail k) → PhaseStep s (moved s sc ph s.env) :=
    fun h1 h2 => PhaseStep.moved h1 (raisesOwnKind_of_ne h2)
  cases hph : s.phase with
  | idle => exact .inl ⟨rfl, by simp [seqStep, hph]⟩
  | fail k => exact .inr (.inl ⟨k, rfl, by simp [seqStep, hph]⟩)
  | kClr => exact .inr (.inr (.inl ⟨rfl, by simp [seqStep, hph]⟩))
  | iConv =>
    refine .inr (.inr (.inr ⟨by simp, by simp, by simp, ?_⟩))
    simp only [seqStep, hph, phaseIConv]
    split
    · exact PhaseStep.raise _ (kindOf_own _)
    · exact PhaseStep.emit _ _
  | xXor =>
    refine .inr (.inr (.inr ⟨by simp, by simp, by simp, ?_⟩))
    simp only [seqStep, hph, phaseXXor]
    split
    · exact PhaseStep.raise _ (kindOf_own _)
    · exact PhaseStep.emit _ _
  | mgf1 m =>
    refine .inr (.inr (.inr ⟨by simp, by simp, by simp, ?_⟩))
    simp only [seqStep, hph, phaseMgf1]
    exact mgfPhase_step hph (by simp) (by simp) fun r => PhaseStep.emit _ _
  | eCheck =>
    refine .inr (.inr (.inr ⟨by simp, by simp, by simp, ?_⟩))
    simp only [seqStep, hph, phaseECheck]
    split
    · exact (PhaseStep.raise _ (.inl rfl)).of_scratch
    · exact plain (by simp) (by simp)
  | ePs =>
    refine .inr (.inr (.inr ⟨by simp, by simp, by simp, ?_⟩))
    simp only [seqStep, hph, phaseEPs]
    exact plain (by simp) (by simp)
  | eDb =>
    refine .inr (.inr (.inr ⟨by simp, by simp, by simp, ?_⟩))
    simp only [seqStep, hph, phaseEDb]
    split
    · exact PhaseStep.stay (by simp [hph]) (by rw [hph]; exact raisesOwnKind_of_ne (by simp))
    · rename_i h
      obtain ⟨-, e, rfl, he⟩ := hashPort_cases h
      exact .inr ⟨_, _, e, rfl, by simp, raisesOwnKind_of_ne (by simp), he⟩
  | eSeed =>
    refine .inr (.inr (.inr ⟨by simp, by simp, by simp, ?_⟩))
    simp only [seqStep, hph, phaseESeed]
    split
    · exact PhaseStep.stay (by simp [hph]) (by rw [hph]; exact raisesOwnKind_of_ne (by simp))
    · rename_i h
      obtain ⟨-, rfl⟩ := randPort_cases h
      exact .inr ⟨_, _, _, rfl, by simp, raisesOwnKind_of_ne (by simp), rfl, rfl, rfl, rfl⟩
  | eDbMask m =>
    refine .inr (.inr (.inr ⟨by simp, by simp, by simp, ?_⟩))
    simp only [seqStep, hph, phaseEDbMask]
    exact mgfPhase_step hph (by simp) (by simp) fun r => plain (by simp) (by simp)
  | eXorDb =>
    refine .inr (.inr (.inr ⟨by simp, by simp, by simp, ?_⟩))
    simp only [seqStep, hph, phaseEXorDb]
    split
    · exact PhaseStep.raise _ (kindOf_own _)
    · exact plain (by simp) (by simp)
  | eSeedMask m =>
    refine .inr (.inr (.inr ⟨by simp, by simp, by simp, ?_⟩))
    simp only [seqStep, hph, phaseESeedMask]
    exact mgfPhase_step hph (by simp) (by simp) fun r => plain (by simp) (by simp)
  | eXorSeed =>
    refine .inr (.inr (.inr ⟨by simp, by simp, by simp, ?_⟩))
    simp only [seqStep, hph, phaseEXorSeed]
    split
    · exact PhaseStep.raise _ (kindOf_own _)
    · exact plain (by simp) (by simp)
  | eEmit =>
    refine .inr (.inr (.inr ⟨by simp, by simp, by simp, ?_⟩))
    simp only [seqStep, hph, phaseEEmit]
    exact PhaseStep.emit _ _
  | dCheck =>
    refine .inr (.inr (.inr ⟨by simp, by simp, by simp, ?_⟩))
    simp only [seqStep, hph, phaseDCheck]
    split
    · exact PhaseStep.raise _ (.inr rfl)
    · exact plain (by simp) (by simp)
  | dSplit =>
    refine .inr (.inr (.inr ⟨by simp, by simp, by simp, ?_⟩))
    simp only [seqStep, hph, phaseDSplit]
    exact plain (by simp) (by simp)
  | dSeedMask m =>
    refine .inr (.inr (.inr ⟨by simp, by simp, by simp, ?_⟩))
    simp only [seqStep, hph, phaseDSeedMask]
    exact mgfPhase_step hph (by simp) (by simp) fun r => plain (by simp) (by simp)
  | dXorSeed =>
    refine .inr (.inr (.inr ⟨by simp, by simp, by simp, ?_⟩))
    simp only [seqStep, hph, phaseDXorSeed]
    split
    · exact PhaseStep.raise _ (kindOf_own _)
    · exact plain (by simp) (by simp)
  | dDbMask m =>
    refine .inr (.inr (.inr ⟨by simp, by simp, by simp, ?_⟩))
    simp only [seqStep, hph, phaseDDbMask]
    exact mgfPhase_step hph (by simp) (by simp) fun r => plain (by simp) (by simp)
  | dXorDb =>
    refine .inr (.inr (.inr ⟨by simp, by simp, by simp, ?_⟩))
    simp only [seqStep, hph, phaseDXorDb]
    split
    · exact PhaseStep.raise _ (kindOf_own _)
    · exact plain (by simp) (by simp)
  | dLhash =>
    refine .inr (.inr (.inr ⟨by simp, by simp, by simp, ?_⟩))
    simp only [seqStep, hph, phaseDLhash]
    split
    · exact PhaseStep.stay (by simp [hph]) (by rw [hph]; exact raisesOwnKind_of_ne (by simp))
    · rename_i h
      obtain ⟨-, e, rfl, he⟩ := hashPort_cases h
      exact .inr ⟨_, _, e, rfl, by simp, raisesOwnKind_of_ne (by simp), he⟩
  | dCmp =>
    refine .inr (.inr (.inr ⟨by simp, by simp, by simp, ?_⟩))
    simp only [seqStep, hph, phaseDCmp]
    exact plain (by simp) (by simp)
  | dScan =>
    refine .inr (.inr (.inr ⟨by simp, by simp, by simp, ?_⟩))
    simp only [seqStep, hph, phaseDScan]
    split
    · exact (PhaseStep.raise _ (.inr rfl)).of_scratch
    · exact plain (by simp) (by simp)
  | dEmit =>
    refine .inr (.inr (.inr ⟨by simp, by simp, by simp, ?_⟩))
    simp only [seqStep, hph, phaseDEmit]
    exact PhaseStep.emit _ _
  | pCheck =>
    refine .inr (.inr (.inr ⟨by simp, by simp, by simp, ?_⟩))
    simp only [seqStep, hph, phasePCheck]
    split
    · exact (PhaseStep.raise _ (.inl rfl)).of_scratch
    · exact plain (by simp) (by simp)
  | pDraw =>
    refine .inr (.inr (.inr ⟨by simp, by simp, by simp, ?_⟩))
    simp only [seqStep, hph, phasePDraw]
    split
    · exact PhaseStep.stay (by simp [hph]) (by rw [hph]; exact raisesOwnKind_of_ne (by simp))
    · rename_i h
      obtain ⟨-, rfl⟩ := randPort_cases h
      exact .inr ⟨_, _, _, rfl, by simp, raisesOwnKind_of_ne (by simp), rfl, rfl, rfl, rfl⟩
  | pFix =>
    refine .inr (.inr (.inr ⟨by simp, by simp, by simp, ?_⟩))
    simp only [seqStep, hph, phasePFix]
    split
    · split
      · split
        · exact PhaseStep.stay (by simp [hph]) (by rw [hph]; exact raisesOwnKind_of_ne (by simp))
        · rename_i h
          obtain ⟨-, rfl⟩ := randPort_cases h
          exact .inr ⟨_, s.phase, _, rfl, by simp [hph], by rw [hph]; exact raisesOwnKind_of_ne (by simp), rfl, rfl, rfl, rfl⟩
      · exact plain (by simp) (by simp)
    · exact plain (by simp) (by simp)
  | pEmit =>
    refine .inr (.inr (.inr ⟨by simp, by simp, by simp, ?_⟩))
    simp only [seqStep, hph, phasePEmit]
    exact PhaseStep.emit _ _
  | qLen =>
    refine .inr (.inr (.inr ⟨by simp, by simp, by simp, ?_⟩))
    simp only [seqStep, hph, phaseQLen]
    split
    · exact PhaseStep.raise _ (.inr rfl)
    · exact plain (by simp) (by simp)
  | qTag =>
    refine .inr (.inr (.inr ⟨by simp, by simp, by simp, ?_⟩))
    simp only [seqStep, hph, phaseQTag]
    split
    · exact PhaseStep.raise _ (.inr rfl)
    · exact plain (by simp) (by simp)
  | qScan =>
    refine .inr (.inr (.inr ⟨by simp, by simp, by simp, ?_⟩))
    simp only [seqStep, hph, phaseQScan]
    split
    · exact (PhaseStep.raise _ (.inr rfl)).of_scratch
    · exact plain (by simp) (by simp)
  | qPs =>
    refine .inr (.inr (.inr ⟨by simp, by simp, by simp, ?_⟩))
    simp only [seqStep, hph, phaseQPs]
    split
    · exact (PhaseStep.raise _ (.inr rfl)).of_scratch
    · exact plain (by simp) (by simp)
  | qEmit =>
    refine .inr (.inr (.inr ⟨by simp, by simp, by simp, ?_⟩))
    simp only [seqStep, hph, phaseQEmit]
    exact PhaseStep.emit _ _

/-! ### What no phase but CLR's changes -/

/-- What every phase but K_CLR leaves alone: the parameters, the operand registers, HLEN and HV, LASTOP, every byte below O's window, the
attached collaborators and the host's list (10_state.md R26). -/
structure Kept (s t : State) : Prop where
  cfg : t.cfg = s.cfg
  keybits : t.keybits = s.keybits
  xlo : t.xlo = s.xlo
  xhi : t.xhi = s.xhi
  alen : t.alen = s.alen
  blen : t.blen = s.blen
  llen : t.llen = s.llen
  mlen : t.mlen = s.mlen
  hv : t.hv = s.hv
  hlen : t.hlen = s.hlen
  lastOp : t.lastOp = s.lastOp
  inputs : t.bus.inputs = s.bus.inputs
  collaborators : s.env.sameCollaborators t.env
  memWf : s.mem.wf = true → t.mem.wf = true
  below : s.mem.wf = true → ∀ a < 0x4000, t.mem.read a = s.mem.read a

theorem Kept.refl (s : State) : Kept s s :=
  ⟨rfl, rfl, rfl, rfl, rfl, rfl, rfl, rfl, rfl, rfl, rfl, rfl, Env.sameCollaborators_refl _, id, fun _ _ _ => rfl⟩

theorem Kept.trans {s t u : State} (h : Kept s t) (h' : Kept t u) : Kept s u :=
  ⟨h'.cfg.trans h.cfg, h'.keybits.trans h.keybits, h'.xlo.trans h.xlo, h'.xhi.trans h.xhi, h'.alen.trans h.alen, h'.blen.trans h.blen,
    h'.llen.trans h.llen, h'.mlen.trans h.mlen, h'.hv.trans h.hv, h'.hlen.trans h.hlen, h'.lastOp.trans h.lastOp,
    h'.inputs.trans h.inputs, Env.sameCollaborators_trans h.collaborators h'.collaborators, fun w => h'.memWf (h.memWf w),
    fun w a ha => (h'.below (h.memWf w) a ha).trans (h.below w a ha)⟩

theorem Kept.moved (s : State) (sc : Scratch) (ph : Phase) {e : Env} (he : s.env.sameCollaborators e) : Kept s (moved s sc ph e) :=
  ⟨rfl, rfl, rfl, rfl, rfl, rfl, rfl, rfl, rfl, rfl, rfl, rfl, he, id, fun _ _ _ => rfl⟩

theorem Kept.emit (r : Octets) (s : State) : Kept s (emit r s) :=
  ⟨rfl, rfl, rfl, rfl, rfl, rfl, rfl, rfl, rfl, rfl, rfl, rfl, Env.sameCollaborators_refl _, fun w => Memory.wf_store w _ _,
    fun w a ha => (Memory.read_store w _ _ _).trans (if_neg (by rw [Buf.window_o]; omega))⟩

theorem Kept.completeFail (k : ErrKind) (s : State) : Kept s (completeFail k s) :=
  ⟨rfl, rfl, rfl, rfl, rfl, rfl, rfl, rfl, rfl, rfl, rfl, rfl, Env.sameCollaborators_refl _, fun w => Memory.wf_clear w _ _,
    fun _ _ ha => read_clear_o _ _ _ ha⟩

theorem Kept.startSequence (w : Word) (s : State) (h : s.lastOp = CommandWord.op w) : Kept s (startSequence w s) :=
  ⟨rfl, rfl, rfl, rfl, rfl, rfl, rfl, rfl, rfl, rfl, h.symm, rfl, Env.sameCollaborators_refl _, fun w => Memory.wf_clear w _ _,
    fun _ _ ha => read_clear_o _ _ _ ha⟩

theorem PhaseStep.kept {s t : State} (h : PhaseStep s t) : Kept s t := by
  rcases h with ⟨r, rfl⟩ | ⟨sc, ph, e, rfl, -, -, he⟩
  · exact Kept.emit r s
  · exact Kept.moved s sc ph he

theorem seqStep_kept {s : State} (h : s.phase ≠ .kClr) : Kept s (seqStep s) := by
  rcases seqStep_cases s with ⟨-, h'⟩ | ⟨k, -, h'⟩ | ⟨hk, -⟩ | ⟨-, -, -, h'⟩
  · rw [h']; exact Kept.refl s
  · rw [h']; exact Kept.completeFail k s
  · exact absurd hk h
  · exact h'.kept

/-- What CLR's phase leaves alone, and every other phase too. -/
structure KeptByClr (s t : State) : Prop where
  cfg : t.cfg = s.cfg
  hv : t.hv = s.hv
  hlen : t.hlen = s.hlen
  lastOp : t.lastOp = s.lastOp
  inputs : t.bus.inputs = s.bus.inputs
  collaborators : s.env.sameCollaborators t.env

theorem Kept.toClr {s t : State} (h : Kept s t) : KeptByClr s t := ⟨h.cfg, h.hv, h.hlen, h.lastOp, h.inputs, h.collaborators⟩

theorem KeptByClr.trans {s t u : State} (h : KeptByClr s t) (h' : KeptByClr t u) : KeptByClr s u :=
  ⟨h'.cfg.trans h.cfg, h'.hv.trans h.hv, h'.hlen.trans h.hlen, h'.lastOp.trans h.lastOp, h'.inputs.trans h.inputs,
    Env.sameCollaborators_trans h.collaborators h'.collaborators⟩

theorem seqStep_keptByClr (s : State) : KeptByClr s (seqStep s) := by
  by_cases h : s.phase = .kClr
  · rw [show seqStep s = phaseKClr s by simp [seqStep, h]]
    exact ⟨rfl, rfl, rfl, rfl, rfl, Env.sameCollaborators_refl _⟩
  · exact (seqStep_kept h).toClr

theorem seqRun_keptByClr (n : Nat) (s : State) : KeptByClr s (seqRun n s) := by
  induction n generalizing s with
  | zero => exact (Kept.refl s).toClr
  | succ n ih => rw [seqRun_succ']; exact (seqStep_keptByClr s).trans (ih _)

/-! ### Which phases follow which -/

/-- The completed states and the phases a command other than CLR goes through never lead to K_CLR. -/
theorem mgfPhase_ne_kClr {cmd : Instr} {seed : Octets} {length : Nat} {here : MgfPhase → Phase} {done : Octets → State → State}
    {m : MgfPhase} {s : State} (hph : s.phase = here m) (hhere : ∀ m, here m ≠ .kClr) (hdone : ∀ r, (done r s).phase ≠ .kClr) :
    (mgfPhase cmd seed length here done m s).phase ≠ .kClr := by
  cases m with
  | init => exact hhere _
  | i2osp =>
    simp only [mgfPhase]
    split
    · simp [raise]
    · exact hhere _
  | hash =>
    simp only [mgfPhase]
    split
    · rw [hph]; exact hhere _
    · exact hhere _
  | append =>
    simp only [mgfPhase]
    split <;> exact hhere _
  | trunc =>
    simp only [mgfPhase]
    split
    · simp [raise]
    · exact hdone _

/-- Only a start of CLR leads to K_CLR (44_control.md R172). -/
theorem seqStep_ne_kClr {s : State} (h : s.phase ≠ .kClr) : (seqStep s).phase ≠ .kClr := by
  cases hph : s.phase with
  | kClr => exact absurd hph h
  | mgf1 m => simp only [seqStep, hph]; exact mgfPhase_ne_kClr hph (by simp) fun r => by simp
  | eDbMask m => simp only [seqStep, hph]; exact mgfPhase_ne_kClr hph (by simp) fun r => by simp
  | eSeedMask m => simp only [seqStep, hph]; exact mgfPhase_ne_kClr hph (by simp) fun r => by simp
  | dSeedMask m => simp only [seqStep, hph]; exact mgfPhase_ne_kClr hph (by simp) fun r => by simp
  | dDbMask m => simp only [seqStep, hph]; exact mgfPhase_ne_kClr hph (by simp) fun r => by simp
  | _ =>
    simp only [seqStep, hph, phaseIConv, phaseXXor, phaseECheck, phaseEPs, phaseEDb, phaseESeed, phaseEXorDb, phaseEXorSeed, phaseEEmit,
      phaseDCheck, phaseDSplit, phaseDXorSeed, phaseDXorDb, phaseDLhash, phaseDCmp, phaseDScan, phaseDEmit, phasePCheck, phasePDraw,
      phasePFix, phasePEmit, phaseQLen, phaseQTag, phaseQScan, phaseQPs, phaseQEmit]
    repeat' split
    all_goals first
      | (simp [raise, hph]; done)
      | (rename_i hr; obtain ⟨-, rfl⟩ := randPort_cases hr; simp [hph])

theorem seqRun_kept {n : Nat} {s : State} (h : s.phase ≠ .kClr) : Kept s (seqRun n s) := by
  induction n generalizing s with
  | zero => exact Kept.refl s
  | succ n ih => rw [seqRun_succ']; exact (seqStep_kept h).trans (ih (seqStep_ne_kClr h))

end Sys2Proof.Machine
end

