-- ==== Sys2Proof/Laws/Invariant.lean ====
section
/-! SUPPORT. The invariant: it holds of a state with nothing stored and nothing running, and every phase keeps it. -/

namespace Sys2Proof.Machine

/-! ### The three ways a phase ends -/

theorem Inv.afterMove {s : State} (hI : Inv s) (hs : s.phase ≠ .idle) {sc : Scratch} {ph : Phase} {e : Env} (hph : ph ≠ .idle)
    (he : s.env.sameCollaborators e) (hp : PhaseInv (moved s sc ph e)) : Inv (moved s sc ph e) where
  cfg := hI.cfg
  room := hI.room
  memWf := hI.memWf
  mapped := hI.mapped
  latched := fun hv => by
    have := hI.latched hv
    exact ⟨this.1.trans he.1.symm, this.2⟩
  unlatched := hI.unlatched
  olenCap := hI.olenCap
  oTail := hI.oTail
  failed := fun _ => hI.running hs
  kind := fun h => absurd h hph
  idleScratch := fun h => absurd h hph
  running := fun _ => hI.running hs
  phase := hp

theorem inBuffers_o {cap i : Nat} (h : i < cap) : inBuffers cap (0x4000 + i) :=
  ⟨.o, by rw [Buf.window_o]; omega, by rw [Buf.window_o]; omega⟩

theorem Inv.afterEmit {s : State} (hI : Inv s) (hs : s.phase ≠ .idle) {r : Octets} (hr : r.length ≤ s.cfg.cap) : Inv (emit r s) := by
  have hcap := Params.cap_le hI.cfg
  have hlen : (BitVec.ofNat 32 r.length).toNat = r.length := by
    rw [BitVec.toNat_ofNat]; exact Nat.mod_eq_of_lt (by omega)
  have h0 : s.olen = 0 := hI.running hs
  exact
    { cfg := hI.cfg
      room := hI.room
      memWf := Memory.wf_store hI.memWf _ _
      mapped := fun c hc => by
        rcases Memory.mem_store hc with hc | ⟨h1, h2⟩
        · exact hI.mapped c hc
        · exact ⟨.o, h1, by rw [emit_cfg]; omega⟩
      latched := hI.latched
      unlatched := hI.unlatched
      olenCap := by rw [emit_olen, hlen]; exact hr
      oTail := fun i h1 h2 => by
        rw [emit_olen, hlen] at h1
        have := hI.oTail i (by rw [h0]; simp) h2
        rw [bufRead] at this ⊢
        rw [emit_mem, Memory.read_store hI.memWf, if_neg (by rw [Buf.window_o]; omega)]
        exact this
      failed := fun h => absurd (emit_err r s) h
      kind := fun _ => trivial
      idleScratch := fun _ => emit_scratch r s
      running := fun h => absurd (emit_phase r s) h
      phase := trivial }

theorem Inv.afterFail {s : State} {k : ErrKind} (hI : Inv s) (hs : s.phase = .fail k) : Inv (completeFail k s) := by
  have hp := hI.phase
  simp only [PhaseInv, hs] at hp
  exact
    { cfg := hI.cfg
      room := hI.room
      memWf := Memory.wf_clear hI.memWf _ _
      mapped := fun c hc => hI.mapped c (Memory.mem_clear hc)
      latched := hI.latched
      unlatched := hI.unlatched
      olenCap := Nat.zero_le _
      oTail := fun i _ h2 => by
        have h2' : i < s.cfg.cap := h2
        rw [bufRead]
        exact (Memory.read_clear _ _ _ _).trans (if_pos (by rw [Buf.window_o]; omega))
      failed := fun _ => rfl
      kind := fun _ => hp.2
      idleScratch := fun _ => rfl
      running := fun h => absurd rfl h
      phase := trivial }

theorem Inv.afterClr {s : State} (hI : Inv s) : Inv (phaseKClr s) :=
  { cfg := hI.cfg
    room := hI.room
    memWf := Memory.wf_clear (Memory.wf_clear (Memory.wf_clear hI.memWf _ _) _ _) _ _
    mapped := fun c hc => hI.mapped c (Memory.mem_clear (Memory.mem_clear (Memory.mem_clear hc)))
    latched := hI.latched
    unlatched := hI.unlatched
    olenCap := hI.olenCap
    oTail := fun i h1 h2 => by
      have h := hI.oTail i h1 h2
      have h2' : i < s.cfg.cap := h2
      have hcap := Params.cap_le hI.cfg
      rw [bufRead] at h ⊢
      have : ∀ {m : Memory} {w : Nat}, w ≤ 0x3000 → m.read (0x4000 + i) = 0 → (m.clear w s.cfg.cap).read (0x4000 + i) = 0 :=
        fun hw hm => (Memory.read_clear _ _ _ _).trans (by rw [if_neg (by omega)]; exact hm)
      exact this (by simp) (this (by simp) (this (by simp) h))
    failed := fun h => absurd rfl h
    kind := fun _ => trivial
    idleScratch := fun _ => rfl
    running := fun h => absurd rfl h
    phase := trivial }

/-! ### The MGF1 phases -/

variable {s : State}

theorem Inv.hLen_pos (hI : Inv s) (hv : s.hv = true) : 1 ≤ hLen s ∧ hLen s = s.env.hashLen := ⟨(hI.latched hv).2.1, (hI.latched hv).1⟩

/-- `N * hLen` covers the mask (41_mgf1.md R121 (a)). -/
theorem le_rounds_mul {h length : Nat} (hpos : 1 ≤ h) : length ≤ (length / h + 1) * h := by
  have h1 := Nat.div_add_mod length h
  have h2 := Nat.mod_lt length hpos
  rw [Nat.succ_mul, Nat.mul_comm]; omega

theorem mgfPhase_inv {cmd : Instr} {seed : Octets} {length : Nat} {here : MgfPhase → Phase} {done : Octets → State → State}
    {m : MgfPhase} (hI : Inv s) (hph : s.phase = here m) (hne : ∀ m, here m ≠ .idle) (hv : s.hv = true)
    (hlen : length < 4294967296) (hm : MgfInv length m s)
    (hB : ∀ m' c n t c4 d e, MgfInv length m' (withPipe s (here m') c n t c4 d e) → PhaseInv (withPipe s (here m') c n t c4 d e))
    (hdone : ∀ r, r.length = length → Inv (done r s)) : Inv (mgfPhase cmd seed length here done m s) := by
  obtain ⟨hpos, hh⟩ := hI.hLen_pos hv
  have hs : s.phase ≠ .idle := hph ▸ hne m
  have hdiv : length / hLen s ≤ length := Nat.div_le_self _ _
  cases m with
  | init =>
    exact hI.afterMove hs (hne _) (Env.sameCollaborators_refl _)
      (hB .i2osp 0 (length / hLen s + 1) [] s.scratch.c4 s.scratch.d s.env ⟨rfl, Nat.succ_pos _, by simp [withPipe]⟩)
  | i2osp =>
    obtain ⟨h1, h2, h3⟩ := hm
    simp only [mgfPhase, i2osp_of_lt (show s.scratch.c < 4294967296 by omega)]
    exact hI.afterMove hs (hne _) (Env.sameCollaborators_refl _)
      (hB .hash s.scratch.c s.scratch.n s.scratch.t (i2ospOctets s.scratch.c) s.scratch.d s.env ⟨h1, h2, h3⟩)
  | hash =>
    obtain ⟨h1, h2, h3⟩ := hm
    simp only [mgfPhase]
    split
    · exact hI
    · rename_i d t h
      obtain ⟨rfl, e, rfl, he⟩ := hashPort_cases h
      exact hI.afterMove hs (hne _) he
        (hB .append s.scratch.c s.scratch.n s.scratch.t s.scratch.c4 _ e ⟨h1, h2, h3, by
          show (hashValue s.env _).length = _
          rw [length_hashValue]; exact hh.symm⟩)
  | append =>
    obtain ⟨h1, h2, h3, h4⟩ := hm
    have hl : (s.scratch.t ++ s.scratch.d).length = (s.scratch.c + 1) * hLen s := by
      rw [List.length_append, h3, h4, Nat.succ_mul]
    simp only [mgfPhase]
    split
    · rename_i hc
      exact hI.afterMove hs (hne _) (Env.sameCollaborators_refl _)
        (hB .i2osp (s.scratch.c + 1) s.scratch.n (s.scratch.t ++ s.scratch.d) s.scratch.c4 s.scratch.d s.env ⟨h1, hc, hl⟩)
    · rename_i hc
      refine hI.afterMove hs (hne _) (Env.sameCollaborators_refl _)
        (hB .trunc s.scratch.c s.scratch.n (s.scratch.t ++ s.scratch.d) s.scratch.c4 s.scratch.d s.env ?_)
      show (s.scratch.t ++ s.scratch.d).length = (length / hLen s + 1) * hLen s
      rw [hl]; congr 1; omega
  | trunc =>
    have hm' : s.scratch.t.length = (length / hLen s + 1) * hLen s := hm
    have := le_rounds_mul (length := length) hpos
    simp only [mgfPhase]
    rw [if_neg (by omega)]
    exact hdone _ (by rw [List.length_take]; omega)

/-! ### Every phase -/

theorem Inv.afterRaise (hI : Inv s) (hs : s.phase ≠ .idle) {sc : Scratch} {k : ErrKind} (hk : k ≠ .ok) (hf : kindFits k s.lastOp) :
    Inv (raise k { s with scratch := sc }) :=
  hI.afterMove (sc := sc) hs (by simp) (Env.sameCollaborators_refl _) ⟨hk, hf⟩

/-- Every phase keeps the invariant. -/
theorem seqStep_inv (hI : Inv s) : Inv (seqStep s) := by
  have hcap := Params.cap_le hI.cfg
  have hr := hI.room
  have hp := hI.phase
  have go : s.phase ≠ .idle → ∀ {sc : Scratch} {ph : Phase}, ph ≠ .idle → PhaseInv (moved s sc ph s.env) →
      Inv (moved s sc ph s.env) := fun hs {sc ph} h1 h2 => hI.afterMove hs h1 (Env.sameCollaborators_refl _) h2
  cases hph : s.phase with
  | idle => rw [seqStep_of_idle hph]; exact hI
  | fail k => simp only [seqStep, hph]; exact hI.afterFail hph
  | kClr => simp only [seqStep, hph]; exact hI.afterClr
  | iConv =>
    have hs : s.phase ≠ .idle := by simp [hph]
    simp only [PhaseInv, hph] at hp
    simp only [seqStep, hph, phaseIConv]
    split
    · exact hI.afterRaise (sc := s.scratch) hs (by simp [kindOf]) (.inl hp)
    · rename_i r h
      unfold i2osp at h
      split at h
      · cases h
      · cases h; exact hI.afterEmit hs hr
  | xXor =>
    have hs : s.phase ≠ .idle := by simp [hph]
    simp only [PhaseInv, hph] at hp
    simp only [seqStep, hph, phaseXXor]
    split
    · exact hI.afterRaise (sc := s.scratch) hs (by simp [kindOf]) (.inr (.inl hp.1))
    · rename_i r h
      unfold xorOctets at h
      split at h
      · cases h
      · rename_i hl
        cases h
        refine hI.afterEmit hs ?_
        rw [length_zipWith_xor (by simpa using hl), length_operandA]
        exact hp.2.1
  | mgf1 m =>
    have hs : s.phase ≠ .idle := by simp [hph]
    simp only [PhaseInv, hph] at hp
    obtain ⟨h1, h2, h3, h4, h5⟩ := hp
    simp only [seqStep, hph, phaseMgf1]
    exact mgfPhase_inv hI hph (by simp) h2 (by omega) h5 (fun _ _ _ _ _ _ _ hm => ⟨h1, h2, h3, h4, hm⟩)
      fun r hl => hI.afterEmit hs (by omega)
  | eCheck =>
    have hs : s.phase ≠ .idle := by simp [hph]
    simp only [PhaseInv, hph] at hp
    simp only [seqStep, hph, phaseECheck]
    split
    · exact hI.afterRaise hs (by simp) (.inr (.inr (.inl hp.1)))
    · rename_i hc
      refine go hs (by simp) ?_
      simp only [oaepTooLong, length_operandA, Bool.or_eq_true, decide_eq_true_eq, not_or, Int.not_lt] at hc
      exact ⟨hp, rfl, length_operandA s, by show 2 * (hLen s : Int) + 1 ≤ emLength s; omega,
        by show (s.alen.toNat : Int) ≤ emLength s - 2 * hLen s - 1; omega⟩
  | ePs =>
    have hs : s.phase ≠ .idle := by simp [hph]
    simp only [PhaseInv, hph] at hp
    simp only [seqStep, hph, phaseEPs]
    refine go hs (by simp) ⟨hp, ?_⟩
    show ((zeros _).length : Int) = _
    obtain ⟨h1, h2, h3, h4, h5⟩ := hp
    rw [length_zeros, h2, h3]
    show _ = emLength s - s.alen.toNat - 2 * hLen s - 1
    omega
  | eDb =>
    have hs : s.phase ≠ .idle := by simp [hph]
    simp only [PhaseInv, hph] at hp
    obtain ⟨hp, hps⟩ := hp
    have hh := (hI.hLen_pos hp.1.2.1).2
    simp only [seqStep, hph, phaseEDb]
    split
    · exact hI
    · rename_i h
      obtain ⟨rfl, e, rfl, he⟩ := hashPort_cases h
      refine hI.afterMove hs (by simp) he ⟨hp, ?_⟩
      show ((hashValue s.env (label s) ++ s.scratch.ps ++ [1] ++ operandA s).length : Int) = emLength s - hLen s
      simp only [List.length_append, length_hashValue, List.length_singleton, length_operandA]
      omega
  | eSeed =>
    have hs : s.phase ≠ .idle := by simp [hph]
    simp only [PhaseInv, hph] at hp
    obtain ⟨hp, hdb⟩ := hp
    simp only [seqStep, hph, phaseESeed]
    split
    · exact hI
    · rename_i h
      obtain ⟨rfl, rfl⟩ := randPort_cases h
      exact hI.afterMove hs (by simp) ⟨rfl, rfl, rfl, rfl⟩ ⟨hp, hdb, length_rhoNext _ _, trivial⟩
  | eDbMask m =>
    have hs : s.phase ≠ .idle := by simp [hph]
    simp only [PhaseInv, hph] at hp
    obtain ⟨hp, hdb, hseed, hm⟩ := hp
    have hem : s.scratch.emLen = emLength s := hp.2.1
    have hel : emLength s ≤ s.cfg.cap := hp.1.2.2.2.2
    have h2h := hp.2.2.2.1
    simp only [seqStep, hph, phaseEDbMask]
    rw [hem]
    refine mgfPhase_inv hI hph (by simp) hp.1.2.1 (by omega) hm (fun _ _ _ _ _ _ _ hm' => ⟨hp, hdb, hseed, hm'⟩) fun r hl => ?_
    refine go hs (by simp) ⟨hp, hdb, hseed, ?_⟩
    show (r.length : Int) = emLength s - hLen s
    omega
  | eXorDb =>
    have hs : s.phase ≠ .idle := by simp [hph]
    simp only [PhaseInv, hph] at hp
    obtain ⟨hp, hdb, hseed, hmask⟩ := hp
    have hl : s.scratch.db.length = s.scratch.dbMask.length := by omega
    simp only [seqStep, hph, phaseEXorDb, xorOctets_of_length_eq hl]
    refine go hs (by simp) ⟨hp, hseed, ?_, trivial⟩
    show ((List.zipWith _ _ _).length : Int) = _
    rw [length_zipWith_xor hl]; exact hdb
  | eSeedMask m =>
    have hs : s.phase ≠ .idle := by simp [hph]
    simp only [PhaseInv, hph] at hp
    obtain ⟨hp, hseed, hmdb, hm⟩ := hp
    have hel : emLength s ≤ s.cfg.cap := hp.1.2.2.2.2
    have h2h := hp.2.2.2.1
    simp only [seqStep, hph, phaseESeedMask]
    exact mgfPhase_inv hI hph (by simp) hp.1.2.1 (by omega) hm (fun _ _ _ _ _ _ _ hm' => ⟨hp, hseed, hmdb, hm'⟩)
      fun r hl => go hs (by simp) ⟨hp, hseed, hmdb, hl⟩
  | eXorSeed =>
    have hs : s.phase ≠ .idle := by simp [hph]
    simp only [PhaseInv, hph] at hp
    obtain ⟨hp, hseed, hmdb, hmask⟩ := hp
    have hl : s.scratch.seed.length = s.scratch.seedMask.length := by omega
    simp only [seqStep, hph, phaseEXorSeed, xorOctets_of_length_eq hl]
    refine go hs (by simp) ⟨hp, hmdb, ?_⟩
    show (List.zipWith _ _ _).length = _
    rw [length_zipWith_xor hl]; exact hseed
  | eEmit =>
    have hs : s.phase ≠ .idle := by simp [hph]
    simp only [PhaseInv, hph] at hp
    obtain ⟨hp, hmdb, hms⟩ := hp
    have hel : emLength s ≤ s.cfg.cap := hp.1.2.2.2.2
    simp only [seqStep, hph, phaseEEmit]
    refine hI.afterEmit hs ?_
    rw [List.length_append]; omega
  | dCheck =>
    have hs : s.phase ≠ .idle := by simp [hph]
    simp only [PhaseInv, hph] at hp
    simp only [seqStep, hph, phaseDCheck]
    split
    · exact hI.afterRaise (sc := s.scratch) hs (by simp) (.inl hp.1)
    · rename_i hc
      rw [length_operandA] at hc
      exact go hs (by simp) ⟨hp, by show 2 * hLen s + 1 ≤ s.alen.toNat; omega⟩
  | dSplit =>
    have hs : s.phase ≠ .idle := by simp [hph]
    simp only [PhaseInv, hph] at hp
    have h2 := hp.2
    simp only [seqStep, hph, phaseDSplit]
    refine go hs (by simp) ⟨⟨hp, ?_, ?_⟩, trivial⟩
    · show ((operandA s).take (hLen s)).length = hLen s
      rw [List.length_take, length_operandA]; omega
    · show ((operandA s).drop (hLen s)).length = s.alen.toNat - hLen s
      rw [List.length_drop, length_operandA]
  | dSeedMask m =>
    have hs : s.phase ≠ .idle := by simp [hph]
    simp only [PhaseInv, hph] at hp
    obtain ⟨hp, hm⟩ := hp
    have h2 := hp.1.2
    have h3 := hp.1.1.2.2.1
    simp only [seqStep, hph, phaseDSeedMask]
    exact mgfPhase_inv hI hph (by simp) hp.1.1.2.1 (by omega) hm (fun _ _ _ _ _ _ _ hm' => ⟨hp, hm'⟩)
      fun r hl => go hs (by simp) ⟨hp, hl⟩
  | dXorSeed =>
    have hs : s.phase ≠ .idle := by simp [hph]
    simp only [PhaseInv, hph] at hp
    obtain ⟨hp, hmask⟩ := hp
    have hl : s.scratch.maskedSeed.length = s.scratch.seedMask.length := hp.2.1.trans hmask.symm
    simp only [seqStep, hph, phaseDXorSeed, xorOctets_of_length_eq hl]
    refine go hs (by simp) ⟨hp, ?_, trivial⟩
    show (List.zipWith _ _ _).length = _
    rw [length_zipWith_xor hl]; exact hp.2.1
  | dDbMask m =>
    have hs : s.phase ≠ .idle := by simp [hph]
    simp only [PhaseInv, hph] at hp
    obtain ⟨hp, hseed, hm⟩ := hp
    have h3 := hp.1.1.2.2.1
    simp only [seqStep, hph, phaseDDbMask, length_operandA]
    exact mgfPhase_inv hI hph (by simp) hp.1.1.2.1 (by omega) hm (fun _ _ _ _ _ _ _ hm' => ⟨hp, hseed, hm'⟩)
      fun r hl => go hs (by simp) ⟨hp, hl⟩
  | dXorDb =>
    have hs : s.phase ≠ .idle := by simp [hph]
    simp only [PhaseInv, hph] at hp
    obtain ⟨hp, hmask⟩ := hp
    have hl : s.scratch.maskedDb.length = s.scratch.dbMask.length := hp.2.2.trans hmask.symm
    simp only [seqStep, hph, phaseDXorDb, xorOctets_of_length_eq hl]
    refine go hs (by simp) ⟨hp, ?_⟩
    show (List.zipWith _ _ _).length = _
    rw [length_zipWith_xor hl]; exact hp.2.2
  | dLhash =>
    have hs : s.phase ≠ .idle := by simp [hph]
    simp only [PhaseInv, hph] at hp
    simp only [seqStep, hph, phaseDLhash]
    split
    · exact hI
    · rename_i h
      obtain ⟨rfl, e, rfl, he⟩ := hashPort_cases h
      exact hI.afterMove hs (by simp) he hp
  | dCmp =>
    have hs : s.phase ≠ .idle := by simp [hph]
    simp only [PhaseInv, hph] at hp
    simp only [seqStep, hph, phaseDCmp]
    exact go hs (by simp) hp
  | dScan =>
    have hs : s.phase ≠ .idle := by simp [hph]
    simp only [PhaseInv, hph] at hp
    simp only [seqStep, hph, phaseDScan]
    split
    · exact hI.afterRaise hs (by simp) (.inl hp.1.1.1.1)
    · rename_i hc
      simp only [Bool.or_eq_true, Bool.not_eq_true', not_or, Bool.not_eq_false, Bool.not_eq_true, Option.isNone_eq_false_iff,
        Option.isSome_iff_exists] at hc
      obtain ⟨hok, j, hj⟩ := hc
      refine go hs (by simp) ⟨hp.1, hp.2, hok, j, hj, ?_⟩
      obtain ⟨p, q, hpq, -, rfl⟩ := scanFor_eq_some.1 hj
      have hlen := congrArg List.length hpq
      simp only [List.length_drop, List.length_append, List.length_cons] at hlen
      show hLen s ≤ hLen s + p.length ∧ hLen s + p.length < s.scratch.db.length
      omega
  | dEmit =>
    have hs : s.phase ≠ .idle := by simp [hph]
    simp only [PhaseInv, hph] at hp
    obtain ⟨hp, hdb, -⟩ := hp
    have h3 := hp.1.1.2.2.1
    simp only [seqStep, hph, phaseDEmit]
    refine hI.afterEmit hs ?_
    rw [List.length_drop]; omega
  | pCheck =>
    have hs : s.phase ≠ .idle := by simp [hph]
    simp only [PhaseInv, hph] at hp
    simp only [seqStep, hph, phasePCheck]
    split
    · exact hI.afterRaise hs (by simp) (.inr (.inr (.inr hp.1)))
    · rename_i hc
      refine go hs (by simp) ?_
      simp only [length_operandA, Int.not_lt] at hc
      exact ⟨hp, rfl, length_operandA s, by show (s.alen.toNat : Int) ≤ emLength s - 10; omega⟩
  | pDraw =>
    have hs : s.phase ≠ .idle := by simp [hph]
    simp only [PhaseInv, hph] at hp
    obtain ⟨h1, h2, h3, h4⟩ := hp
    simp only [seqStep, hph, phasePDraw]
    split
    · exact hI
    · rename_i h
      obtain ⟨rfl, rfl⟩ := randPort_cases h
      refine hI.afterMove hs (by simp) ⟨rfl, rfl, rfl, rfl⟩ ⟨⟨⟨h1, h2, h3, h4⟩, length_rhoNext _ _, ?_⟩, Nat.zero_le _, ?_⟩
      · show (((s.scratch.emLen - s.scratch.mLen - 2).toNat : Nat) : Int) = emLength s - s.alen.toNat - 2
        rw [h2, h3]; omega
      · intro k hk; exact absurd hk (Nat.not_lt_zero k)
  | pFix =>
    have hs : s.phase ≠ .idle := by simp [hph]
    simp only [PhaseInv, hph] at hp
    obtain ⟨⟨h1, h2, h3⟩, h4, h5⟩ := hp
    simp only [seqStep, hph, phasePFix]
    split
    · split
      · split
        · exact hI
        · rename_i h
          obtain ⟨rfl, rfl⟩ := randPort_cases h
          refine hI.afterMove (ph := s.phase) hs hs ⟨rfl, rfl, rfl, rfl⟩ ?_
          simp only [PhaseInv, moved, hph]
          refine ⟨⟨h1, by simpa using h2, h3⟩, h4, fun k hk => ?_⟩
          have hk' : k < s.scratch.i := hk
          have : (s.scratch.ps.set s.scratch.i ((rhoNext s.env 1).headD 0)).getD k 0 = s.scratch.ps.getD k 0 := by
            simp [List.getD, show ¬ s.scratch.i = k by omega]
          exact this ▸ h5 k hk'
      · rename_i hi hz
        refine go hs (by simp) ⟨⟨h1, h2, h3⟩, hi, fun k hk => ?_⟩
        have hk' : k < s.scratch.i + 1 := hk
        rcases Nat.lt_succ_iff_lt_or_eq.1 hk' with h | rfl
        · exact h5 k h
        · exact hz
    · rename_i hi
      exact go hs (by simp) ⟨⟨h1, h2, h3⟩, fun k hk => h5 k (by have : k < s.scratch.psLen := hk; omega)⟩
  | pEmit =>
    have hs : s.phase ≠ .idle := by simp [hph]
    simp only [PhaseInv, hph] at hp
    obtain ⟨⟨h1, h2, h3⟩, -⟩ := hp
    have hel : emLength s ≤ s.cfg.cap := h1.1.2.2
    simp only [seqStep, hph, phasePEmit]
    refine hI.afterEmit hs ?_
    simp only [List.length_append, List.length_singleton, length_operandA]
    omega
  | qLen =>
    have hs : s.phase ≠ .idle := by simp [hph]
    simp only [PhaseInv, hph] at hp
    simp only [seqStep, hph, phaseQLen]
    split
    · exact hI.afterRaise (sc := s.scratch) hs (by simp) (.inr hp.1)
    · rename_i hc
      rw [length_operandA] at hc
      exact go hs (by simp) ⟨hp.1, hp.2, by show 10 ≤ s.alen.toNat; omega⟩
  | qTag =>
    have hs : s.phase ≠ .idle := by simp [hph]
    simp only [PhaseInv, hph] at hp
    simp only [seqStep, hph, phaseQTag]
    split
    · exact hI.afterRaise (sc := s.scratch) hs (by simp) (.inr hp.1)
    · exact go hs (by simp) hp
  | qScan =>
    have hs : s.phase ≠ .idle := by simp [hph]
    simp only [PhaseInv, hph] at hp
    simp only [seqStep, hph, phaseQScan]
    split
    · exact hI.afterRaise hs (by simp) (.inr hp.1)
    · rename_i hc
      simp only [Bool.not_eq_true, Option.isNone_eq_false_iff, Option.isSome_iff_exists] at hc
      obtain ⟨k, hk⟩ := hc
      refine go hs (by simp) ⟨hp.1, hp.2.1, hp.2.2, k, hk, ?_⟩
      obtain ⟨p, q, hpq, -, rfl⟩ := scanFor_eq_some.1 hk
      have hlen := congrArg List.length hpq
      simp only [length_operandA, List.length_append, List.length_cons] at hlen
      show 0 + p.length < s.alen.toNat
      omega
  | qPs =>
    have hs : s.phase ≠ .idle := by simp [hph]
    simp only [PhaseInv, hph] at hp
    simp only [seqStep, hph, phaseQPs]
    split
    · exact hI.afterRaise hs (by simp) (.inr hp.1)
    · exact go hs (by simp) hp
  | qEmit =>
    have hs : s.phase ≠ .idle := by simp [hph]
    simp only [PhaseInv, hph] at hp
    have h1 := hp.2.1
    simp only [seqStep, hph, phaseQEmit]
    refine hI.afterEmit hs ?_
    rw [List.length_drop, length_operandA]; omega

/-- A run of phases keeps the invariant. -/
theorem seqRun_inv (n : Nat) (hI : Inv s) : Inv (seqRun n s) := seqRun_induct (P := Inv) (fun _ => seqStep_inv) n hI

end Sys2Proof.Machine
end

