-- ==== Sys2Proof/Laws/Commands.lean ====
section
/-! SUPPORT. A whole command: how it starts (60_exceptions.md R185), that `exec` runs it, and that it keeps the invariant. -/

namespace Sys2Proof.Machine

/-- `exec` runs the command (10_state.md R40). -/
theorem exec_eq (i : Instr) (s : State) : exec i s = .next (runCommand i s) := by cases i <;> rfl

/-- How a command starts: stopped by a capacity check, stopped by the digest-size check, started with hLen latched, or started without it. -/
theorem beginCommand_cases (i : Instr) (s : State) :
    (capacityFault i s = true ∧ beginCommand i s = running i (.fail .use) s.scratch s.env s) ∨
      (capacityFault i s = false ∧ usesHash i = true ∧ s.hv = false ∧ (s.env.hashLen < 1 ∨ s.env.hashLen > s.cfg.hmax) ∧
        beginCommand i s = running i (.fail .use) s.scratch (s.env.logged [.digestSize]) s) ∨
      (capacityFault i s = false ∧ usesHash i = true ∧ digestUsable s ∧
        beginCommand i s = running i (firstPhase i) s.scratch (withLatch s).env (withLatch s)) ∨
      (capacityFault i s = false ∧ usesHash i = false ∧ beginCommand i s = running i (firstPhase i) s.scratch s.env s) := by
  cases hc : capacityFault i s with
  | true => exact .inl ⟨rfl, beginCommand_capacityFault hc⟩
  | false =>
    right
    cases hu : usesHash i with
    | false => exact .inr (.inr ⟨rfl, rfl, beginCommand_plain hc hu⟩)
    | true =>
      cases hv : s.hv with
      | true => exact .inr (.inl ⟨rfl, rfl, .inl hv, beginCommand_latched hc hu (.inl hv)⟩)
      | false =>
        by_cases hd : s.env.hashLen < 1 ∨ s.env.hashLen > s.cfg.hmax
        · exact .inl ⟨rfl, rfl, rfl, hd, beginCommand_digestFault hc hu hv hd⟩
        · have hd' : digestUsable s := .inr (by omega)
          exact .inr (.inl ⟨rfl, rfl, hd', beginCommand_latched hc hu hd'⟩)

/-- A command that a capacity check stops (60_exceptions.md R184). -/
theorem runCommand_capacityFault {i : Instr} {s : State} (h : capacityFault i s = true) :
    runCommand i s = failState i.opcode .use s.env s := by
  rw [runCommand, beginCommand_capacityFault h]
  exact seqRun_running_fail i s.scratch s.env s .use (one_le_phaseBudget s)

/-- A command that the digest-size check stops (10_state.md R33). -/
theorem runCommand_digestFault {i : Instr} {s : State} (hc : capacityFault i s = false) (hu : usesHash i = true) (hv : s.hv = false)
    (hd : s.env.hashLen < 1 ∨ s.env.hashLen > s.cfg.hmax) :
    runCommand i s = failState i.opcode .use (s.env.logged [.digestSize]) s := by
  rw [runCommand, beginCommand_digestFault hc hu hv hd]
  exact seqRun_running_fail i s.scratch (s.env.logged [.digestSize]) s .use (one_le_phaseBudget s)

theorem firstPhase_ne_idle (i : Instr) : firstPhase i ≠ .idle := by cases i <;> simp [firstPhase]

theorem beginCommand_ne_idle (i : Instr) (s : State) : (beginCommand i s).phase ≠ .idle := by
  rcases beginCommand_cases i s with ⟨-, h⟩ | ⟨-, -, -, -, h⟩ | ⟨-, -, -, h⟩ | ⟨-, -, h⟩ <;> rw [h]
  · simp
  · simp
  · exact firstPhase_ne_idle i
  · exact firstPhase_ne_idle i

/-! ### The shapes a run has -/

/-- What a run of a command other than CLR has come to: it is still running, it has succeeded, or it has failed (60_exceptions.md R186). The operand
registers, HLEN, HV and every byte outside O are those of `s` (10_state.md R26). -/
def RunShape (i : Instr) (s t : State) : Prop :=
  (∃ ph sc e, ph ≠ .idle ∧ ph ≠ .kClr ∧ ph ≠ .fail .ok ∧ s.env.sameCollaborators e ∧ t = running i ph sc e s) ∨
    (∃ r e, s.env.sameCollaborators e ∧ t = okState i r e s) ∨
      ∃ k e, k ≠ .ok ∧ s.env.sameCollaborators e ∧ t = failState i.opcode k e s

theorem RunShape.seqStep {i : Instr} {s t : State} (h : RunShape i s t) : RunShape i s (seqStep t) := by
  rcases h with ⟨ph, sc, e, h1, h2, h3, he, rfl⟩ | ⟨r, e, he, rfl⟩ | ⟨k, e, hk, he, rfl⟩
  · rcases seqStep_cases (running i ph sc e s) with ⟨h, -⟩ | ⟨k, h, h'⟩ | ⟨h, -⟩ | ⟨-, -, -, h⟩
    · exact absurd h h1
    · have hk : ph = .fail k := h
      subst hk
      refine .inr (.inr ⟨k, e, fun hk => h3 (by rw [hk]), he, ?_⟩)
      rw [h', completeFail_running]
    · exact absurd h h2
    · have hne := seqStep_ne_kClr (s := running i ph sc e s) h2
      rcases h with ⟨r, hr⟩ | ⟨sc', ph', e', hr, h4, h5, he'⟩
      · exact .inr (.inl ⟨r, e, he, by rw [hr, emit_running]⟩)
      · refine .inl ⟨ph', sc', e', h4, ?_, ?_, Env.sameCollaborators_trans he he', ?_⟩
        · rw [hr] at hne; exact hne
        · intro hk; rcases h5 _ hk with h | h <;> cases h
        · rw [hr]; rfl
  · rw [seqStep_of_idle rfl]; exact .inr (.inl ⟨r, e, he, rfl⟩)
  · rw [seqStep_of_idle rfl]; exact .inr (.inr ⟨k, e, hk, he, rfl⟩)

/-- What the start sequence of a command other than CLR comes to, from the state it latched hLen in (10_state.md R33). -/
theorem beginCommand_shape {i : Instr} (hi : i ≠ .clr) (s : State) :
    ∃ S, (S = s ∨ (S = withLatch s ∧ usesHash i = true ∧ capacityFault i s = false ∧ digestUsable s)) ∧
      RunShape i S (beginCommand i s) := by
  have hfirst : firstPhase i ≠ .kClr ∧ firstPhase i ≠ .fail .ok := by
    cases i <;> simp_all [firstPhase]
  rcases beginCommand_cases i s with ⟨-, h⟩ | ⟨-, -, -, -, h⟩ | ⟨hc, hu, hd, h⟩ | ⟨-, -, h⟩
  · exact ⟨s, .inl rfl, .inl ⟨.fail .use, _, _, by simp, by simp, by simp, Env.sameCollaborators_refl _, h⟩⟩
  · exact ⟨s, .inl rfl, .inl ⟨.fail .use, _, s.env.logged [.digestSize], by simp, by simp, by simp, ⟨rfl, rfl, rfl, rfl⟩, h⟩⟩
  · exact ⟨withLatch s, .inr ⟨rfl, hu, hc, hd⟩,
      .inl ⟨_, _, _, firstPhase_ne_idle i, hfirst.1, hfirst.2, Env.sameCollaborators_refl _, h⟩⟩
  · exact ⟨s, .inl rfl, .inl ⟨_, _, _, firstPhase_ne_idle i, hfirst.1, hfirst.2, Env.sameCollaborators_refl _, h⟩⟩

/-- What `exec` of a command other than CLR comes to. -/
theorem runCommand_shape {i : Instr} (hi : i ≠ .clr) (s : State) :
    ∃ S, (S = s ∨ (S = withLatch s ∧ usesHash i = true ∧ capacityFault i s = false ∧ digestUsable s)) ∧
      RunShape i S (runCommand i s) :=
  (beginCommand_shape hi s).imp fun S h => ⟨h.1, seqRun_induct (P := RunShape i S) (fun _ h => h.seqStep) _ h.2⟩

/-- CLR as one transition (44_control.md R170). -/
theorem runCommand_clr (s : State) : runCommand .clr s = phaseKClr (beginCommand .clr s) := by
  rw [runCommand]
  exact seqRun_of_le (m := 1) rfl rfl (one_le_phaseBudget s)

/-! ### The invariant -/

/-- The state with hLen latched keeps what holds between commands (10_state.md R32, R33). -/
theorem Inv.afterLatch {s : State} (hI : Inv s) (hd : digestUsable s) (hs : s.phase = .idle) : Inv (withLatch s) := by
  by_cases hv : s.hv = true
  · rwa [withLatch, if_pos hv]
  · have h := hLen_withLatch hI.cfg hd hI.latched
    have hw : withLatch s =
        { s with hlen := BitVec.ofNat 32 s.env.hashLen, hv := true, env := s.env.logged [.digestSize] } := by
      rw [withLatch, if_neg hv]
    have hl : latchAgrees (withLatch s) := fun _ => by
      rw [h.1, withLatch_hashLen, withLatch_cfg]; exact ⟨rfl, h.2⟩
    rw [hw] at hl ⊢
    exact
      { cfg := hI.cfg, room := hI.room, memWf := hI.memWf, mapped := hI.mapped, latched := hl, unlatched := by simp, olenCap := hI.olenCap,
        oTail := hI.oTail, failed := hI.failed, kind := hI.kind, idleScratch := hI.idleScratch, running := hI.running
        phase := by
          simp only [PhaseInv]; rw [show s.phase = .idle from hs]; trivial }

/-- The start sequence for any word, in a phase whose own conditions hold. -/
theorem Inv.afterStart {s : State} (hI : Inv s) {w : Word} {ph : Phase} {sc : Scratch} {e : Env} (hph : ph ≠ .idle)
    (he : s.env.sameCollaborators e) (hp : PhaseInv (moved (startSequence w s) sc ph e)) : Inv (moved (startSequence w s) sc ph e) where
  cfg := hI.cfg
  room := hI.room
  memWf := Memory.wf_clear hI.memWf _ _
  mapped := fun c hc => hI.mapped c (Memory.mem_clear hc)
  latched := fun hv => ⟨(hI.latched hv).1.trans he.1.symm, (hI.latched hv).2⟩
  unlatched := hI.unlatched
  olenCap := Nat.zero_le _
  oTail := fun i _ h2 => by
    have h2' : i < s.cfg.cap := h2
    rw [bufRead]
    exact (Memory.read_clear _ _ _ _).trans (if_pos (by rw [Buf.window_o]; omega))
  failed := fun _ => rfl
  kind := fun h => absurd h hph
  idleScratch := fun h => absurd h hph
  running := fun _ => rfl
  phase := hp

/-- What the first phase of each command needs is what the capacity checks and the latch give (60_exceptions.md R184). -/
theorem phaseInv_firstPhase {i : Instr} {s : State} (hc : capacityFault i s = false) (hv : usesHash i = true → s.hv = true) (sc : Scratch)
    (e : Env) : PhaseInv (running i (firstPhase i) sc e s) := by
  cases i with
  | i2osp => rfl
  | clr => rfl
  | xor =>
    simp only [capacityFault, Bool.or_eq_false_iff, decide_eq_false_iff_not, Nat.not_lt] at hc
    exact ⟨rfl, hc.1, hc.2⟩
  | mgf1 =>
    simp only [capacityFault, Bool.or_eq_false_iff, decide_eq_false_iff_not, Nat.not_lt] at hc
    exact ⟨rfl, hv rfl, hc.1, hc.2, trivial⟩
  | oaepenc =>
    simp only [capacityFault, Bool.or_eq_false_iff, decide_eq_false_iff_not, Nat.not_lt, Int.not_lt] at hc
    exact ⟨rfl, hv rfl, hc.1.1, hc.1.2, hc.2⟩
  | oaepdec =>
    simp only [capacityFault, Bool.or_eq_false_iff, decide_eq_false_iff_not, Nat.not_lt] at hc
    exact ⟨rfl, hv rfl, hc.1, hc.2⟩
  | p15enc =>
    simp only [capacityFault, Bool.or_eq_false_iff, decide_eq_false_iff_not, Nat.not_lt, Int.not_lt] at hc
    exact ⟨rfl, hc.1, hc.2⟩
  | p15dec =>
    simp only [capacityFault, decide_eq_false_iff_not, Nat.not_lt] at hc
    exact ⟨rfl, hc⟩

theorem capacityFault_withLatch (i : Instr) (s : State) : capacityFault i (withLatch s) = capacityFault i s := by
  unfold withLatch; split
  · rfl
  · cases i <;> rfl

/-- Starting a command keeps the invariant. -/
theorem beginCommand_inv {i : Instr} {s : State} (hI : Inv s) (hs : s.phase = .idle) : Inv (beginCommand i s) := by
  rcases beginCommand_cases i s with ⟨-, h⟩ | ⟨-, -, -, -, h⟩ | ⟨hc, hu, hd, h⟩ | ⟨hc, hu, h⟩ <;> rw [h]
  · exact hI.afterStart (w := encode i) (ph := .fail .use) (by simp) (Env.sameCollaborators_refl _) ⟨by simp, trivial⟩
  · exact hI.afterStart (w := encode i) (ph := .fail .use) (by simp) ⟨rfl, rfl, rfl, rfl⟩ ⟨by simp, trivial⟩
  · exact (hI.afterLatch hd hs).afterStart (w := encode i) (firstPhase_ne_idle i) (Env.sameCollaborators_refl _)
      (phaseInv_firstPhase (by rw [capacityFault_withLatch]; exact hc) (fun _ => withLatch_hv s) _ _)
  · exact hI.afterStart (w := encode i) (firstPhase_ne_idle i) (Env.sameCollaborators_refl _)
      (phaseInv_firstPhase hc (fun h' => absurd h' (by simp [hu])) _ _)

/-- Starting an illegal word keeps the invariant (30_encoding.md R94). -/
theorem beginIllegal_inv {w : Word} {s : State} (hI : Inv s) : Inv (beginIllegal w s) :=
  hI.afterStart (w := w) (sc := s.scratch) (ph := .fail .use) (by simp) (Env.sameCollaborators_refl _) ⟨by simp, trivial⟩

theorem beginWord_inv {w : Word} {s : State} (hI : Inv s) (hs : s.phase = .idle) : Inv (beginWord w s) := by
  unfold beginWord
  split
  · exact beginCommand_inv hI hs
  · exact beginIllegal_inv hI

theorem runCommand_inv {i : Instr} {s : State} (hI : Inv s) (hs : s.phase = .idle) : Inv (runCommand i s) :=
  seqRun_inv _ (beginCommand_inv hI hs)

theorem runIllegal_inv {w : Word} {s : State} (hI : Inv s) : Inv (runIllegal w s) := seqRun_inv _ (beginIllegal_inv hI)

/-- An illegal word as one transition (30_encoding.md R94). -/
theorem runIllegal_eq (w : Word) (s : State) : runIllegal w s = failState (CommandWord.op w) .use s.env s := by
  have h : seqRun (phaseBudget s) (beginIllegal w s) = completeFail .use (beginIllegal w s) := seqRun_fail rfl (one_le_phaseBudget s)
  rw [runIllegal, h]
  have hm : (completeFail .use (beginIllegal w s)).mem = s.mem.clear 0x4000 s.cfg.cap := clear_clear _ _ _
  unfold failState
  rw [← hm]; rfl

/-- A state with no command run yet: nothing latched, nothing in O, nothing stored outside A, B and L. -/
theorem Inv.of_fresh {s : State} (hcfg : s.cfg.wf = true) (hroom : 4 ≤ s.cfg.cap) (hmem : s.mem.wf = true)
    (hbelow : ∀ c ∈ s.mem, inBuffers s.cfg.cap c.1 ∧ c.1 < 0x4000) (hhv : s.hv = false) (hhlen : s.hlen = 0) (holen : s.olen = 0)
    (herr : s.err = .ok) (hsc : s.scratch = Scratch.zero) (hph : s.phase = .idle) : Inv s where
  cfg := hcfg
  room := hroom
  memWf := hmem
  mapped := fun c hc => (hbelow c hc).1
  latched := fun h => by rw [hhv] at h; cases h
  unlatched := fun _ => hhlen
  olenCap := by rw [holen]; exact Nat.zero_le _
  oTail := fun i _ _ => Memory.read_of_forall_ne fun c hc => by have := (hbelow c hc).2; rw [Buf.window_o]; omega
  failed := fun h => absurd herr h
  kind := fun _ => by rw [herr]; trivial
  idleScratch := fun _ => hsc
  running := fun h => absurd hph h
  phase := by rw [PhaseInv, hph]; trivial

end Sys2Proof.Machine
end

