-- ==== Sys2Proof/Laws/Bus.lean ====
section
/-! SUPPORT. The bus: where an access goes (20_memory.md R61), when it is refused (R66), what a step does with the next entry of the list of
inputs, and that accesses keep the invariant. -/

namespace Sys2Proof.Machine

theorem offsetOf_busAddress {p : Params} {off : Nat} (h : off < 0x8000) : offsetOf p (busAddress p off) = some off := by
  unfold offsetOf busAddress hostSpace
  rw [if_pos ⟨Nat.le_add_right _ _, by omega⟩, Nat.add_sub_cancel_left]

theorem target_busAddress {p : Params} {off width : Nat} (h : off < 0x8000) : target p (busAddress p off) width = locate p off width := by
  rw [target, offsetOf_busAddress h]

theorem offset_lt (r : Reg) : r.offset < 0x1000 := by cases r <;> decide

theorem regAt_offset (r : Reg) : regAt r.offset = some r := by cases r <;> rfl

/-- Where a register access goes (20_memory.md R61). -/
theorem locate_reg (p : Params) (r : Reg) : locate p r.offset 4 = .ok (.reg r) := by
  have h4 : r.offset % 4 = 0 := by cases r <;> rfl
  rw [locate, if_pos (offset_lt r), if_neg (by simp), if_neg (by rw [h4]; simp), regAt_offset]

theorem target_reg (p : Params) (r : Reg) : target p (busAddress p r.offset) 4 = .ok (.reg r) := by
  rw [target_busAddress (Nat.lt_trans (offset_lt r) (by decide)), locate_reg]

theorem windowAt_window {bf : Buf} {i : Nat} (h : i < 0x1000) : windowAt (bf.window + i) = some bf := by
  have hd : (bf.window + i) / 0x1000 = bf.window / 0x1000 := by cases bf <;> simp only [Buf.window] <;> omega
  rw [windowAt, hd]; cases bf <;> rfl

theorem window_ge (bf : Buf) : 0x1000 ≤ bf.window := by cases bf <;> decide
theorem window_le (bf : Buf) : bf.window ≤ 0x4000 := by cases bf <;> decide

/-- Where a buffer access goes (20_memory.md R61). -/
theorem locate_buf {p : Params} (hp : p.wf = true) {bf : Buf} {i : Nat} (h : i < p.cap) : locate p (bf.window + i) 1 = .ok (.buf bf i) := by
  have hc := Params.cap_le hp
  have h1 := window_ge bf
  rw [locate, if_neg (by omega), if_neg (by simp), windowAt_window (by omega)]
  simp [h]

theorem target_buf {p : Params} (hp : p.wf = true) {bf : Buf} {i : Nat} (h : i < p.cap) :
    target p (busAddress p (bf.window + i)) 1 = .ok (.buf bf i) := by
  have hc := Params.cap_le hp
  have h1 := window_le bf
  rw [target_busAddress (by omega), locate_buf hp h]

/-! ### What an access leaves alone -/

@[simp] theorem readTarget_bus (t : Target) (s : State) : (readTarget t s).bus.inputs = s.bus.inputs := by cases t <;> rfl

theorem readTarget_eq (t : Target) (s : State) : ∃ r, readTarget t s = respond r s := by
  cases t with
  | reg r => exact ⟨_, rfl⟩
  | buf bf i => exact ⟨_, rfl⟩

/-- The bus and the list of inputs are no part of the invariant. -/
theorem Inv.withBus {s : State} (hI : Inv s) (b : Bus) : Inv { s with bus := b } :=
  { cfg := hI.cfg, room := hI.room, memWf := hI.memWf, mapped := hI.mapped, latched := hI.latched, unlatched := hI.unlatched,
    olenCap := hI.olenCap, oTail := hI.oTail, failed := hI.failed, kind := hI.kind, idleScratch := hI.idleScratch,
    running := hI.running, phase := hI.phase }

theorem Inv.afterDrop {s : State} (hI : Inv s) : Inv (dropInput s) := hI.withBus _

theorem Inv.afterRead {s : State} (hI : Inv s) (t : Target) : Inv (readTarget t s) := by
  obtain ⟨r, h⟩ := readTarget_eq t s
  rw [h]; exact hI.withBus _

theorem Inv.afterWriteReg {s : State} (hI : Inv s) (hs : s.phase = .idle) (r : Reg) (v : Word) : Inv (writeReg r v s) := by
  have hp : ∀ t : State, t.phase = s.phase → PhaseInv t := fun t h => by
    rw [PhaseInv, h, hs]; trivial
  cases r with
  | cmd | status | hlen | olen => exact hI
  | _ =>
    exact
      { cfg := hI.cfg, room := hI.room, memWf := hI.memWf, mapped := hI.mapped, latched := hI.latched, unlatched := hI.unlatched,
        olenCap := hI.olenCap, oTail := hI.oTail, failed := hI.failed, kind := hI.kind, idleScratch := hI.idleScratch,
        running := hI.running, phase := hp _ rfl }

theorem Inv.afterBufWrite {s : State} (hI : Inv s) (hs : s.phase = .idle) {bf : Buf} (hbf : bf ≠ .o) {i : Nat} (hi : i < s.cfg.cap) (v : Byte) :
    Inv (bufWrite bf i v s) :=
  { cfg := hI.cfg, room := hI.room, memWf := Memory.wf_write hI.memWf _ _
    mapped := fun c hc => by
      rcases Memory.mem_write hc with hc | hc
      · exact hI.mapped c hc
      · exact ⟨bf, by omega, by rw [hc]; exact Nat.add_lt_add_left hi _⟩
    latched := hI.latched, unlatched := hI.unlatched, olenCap := hI.olenCap
    oTail := fun k h1 h2 => by
      have hc := Params.cap_le hI.cfg
      have h := hI.oTail k h1 h2
      have h2' : k < s.cfg.cap := h2
      rw [bufRead] at h ⊢
      rw [bufWrite_mem, Memory.read_write hI.memWf, if_neg]
      · exact h
      · rw [Buf.window_o]
        cases bf with
        | o => exact absurd rfl hbf
        | _ => simp only [Buf.window]; omega
    failed := hI.failed, kind := hI.kind, idleScratch := hI.idleScratch, running := hI.running
    phase := by
      have : (bufWrite bf i v s).phase = .idle := hs
      rw [PhaseInv, this]; trivial }

/-- Where an accepted access inside a buffer goes lies below CAP (20_memory.md R66). -/
theorem target_buf_lt {p : Params} {addr width i : Nat} {bf : Buf} (h : target p addr width = .ok (.buf bf i)) : i < p.cap := by
  unfold target at h
  split at h
  · rename_i off _
    unfold locate at h
    split at h
    · split at h
      · cases h
      · split at h
        · cases h
        · split at h <;> cases h
    · split at h
      · cases h
      · split at h
        · split at h
          · rename_i hlt; cases h; exact hlt
          · cases h
        · cases h
  · cases h

theorem Inv.afterWrite {s : State} (hI : Inv s) (hs : s.phase = .idle) {addr width : Nat} {t : Target}
    (ht : target s.cfg addr width = .ok t) (v : Word) : Inv (writeTarget t v s) := by
  cases t with
  | reg r => exact (hI.afterWriteReg hs r v).withBus _
  | buf bf i =>
    cases bf with
    | o => exact hI.withBus _
    | a => exact (hI.afterBufWrite hs (by simp) (target_buf_lt ht) _).withBus _
    | b => exact (hI.afterBufWrite hs (by simp) (target_buf_lt ht) _).withBus _
    | l => exact (hI.afterBufWrite hs (by simp) (target_buf_lt ht) _).withBus _

/-- Reset (70_reset_and_hazards.md R210). -/
theorem Inv.afterReset {s : State} (hI : Inv s) : Inv (resetBlock s) :=
  Inv.of_fresh hI.cfg hI.room rfl (fun _ hc => absurd hc (by simp [resetBlock, State.reset])) rfl rfl rfl rfl rfl rfl

/-- Reset with other collaborators (70_reset_and_hazards.md R212). -/
theorem Inv.afterExchange {s : State} (hI : Inv s) (n i : Nat) (k : List (Octets × Octets)) (r : Nat) (a : Octets) :
    Inv (exchangeCollaborators n i k r a s) :=
  Inv.of_fresh hI.cfg hI.room rfl (fun _ hc => absurd hc (by simp [exchangeCollaborators, resetBlock, State.reset])) rfl rfl rfl rfl rfl rfl

/-- What the collaborators will answer is no part of the invariant. -/
theorem Inv.withEnv {s : State} (hI : Inv s) {e : Env} (he : e.hashLen = s.env.hashLen) : Inv { s with env := e } :=
  { cfg := hI.cfg, room := hI.room, memWf := hI.memWf, mapped := hI.mapped
    latched := fun h => ⟨(hI.latched h).1.trans he.symm, (hI.latched h).2⟩
    unlatched := hI.unlatched, olenCap := hI.olenCap, oTail := hI.oTail, failed := hI.failed, kind := hI.kind
    idleScratch := hI.idleScratch, running := hI.running, phase := hI.phase }

/-! ### What a step does -/

/-- The next entry is a bus access or an access with a reset to follow: what waits while a command holds the bus (20_memory.md R70). -/
def Input.isAccess : Input → Bool
  | .read _ _ | .write _ _ _ | .cut _ _ => true
  | _ => false

/-- A held access waits, and the running command runs one more phase (20_memory.md R70). -/
theorem step_held {s : State} {x : Input} {rest : List Input} (hs : s.phase ≠ .idle) (hx : x.isAccess = true)
    (h : s.bus.inputs = x :: rest) : step s = .next (seqStep s) := by
  cases x <;> simp_all [step, nextAction, Input.isAccess]

theorem step_none {s : State} (h : s.bus.inputs = []) : step s = .next (seqStep s) := by simp [step, nextAction, h]

theorem step_wait {s : State} {rest : List Input} (h : s.bus.inputs = .wait :: rest) : step s = .next (seqStep (dropInput s)) := by
  simp [step, nextAction, h]

theorem step_read {s : State} {addr width : Nat} {rest : List Input} (hs : s.phase = .idle) (h : s.bus.inputs = .read addr width :: rest) :
    step s = match target s.cfg addr width with
      | .ok t => .next (readTarget t (dropInput s))
      | .error c => .refused (.busError c addr width) := by
  simp only [step, nextAction, h, hs, if_pos, serveRead]
  cases target s.cfg addr width <;> rfl

theorem step_write {s : State} {addr width : Nat} {v : Word} {rest : List Input} (hs : s.phase = .idle)
    (h : s.bus.inputs = .write addr width v :: rest) :
    step s = match target s.cfg addr width with
      | .ok (.reg .cmd) =>
        (match decode v with
          | .ok i => exec i (dropInput s)
          | .error _ => .next (runIllegal v (dropInput s)))
      | .ok t => .next (writeTarget t v (dropInput s))
      | .error c => .refused (.busError c addr width) := by
  simp only [step, nextAction, h, hs, if_pos, serveWrite]
  rcases target s.cfg addr width with c | t
  · rfl
  · rcases t with r | ⟨bf, i⟩
    · cases r <;> rfl
    · rfl

theorem step_cut {s : State} {w : Word} {n : Nat} {rest : List Input} (hs : s.phase = .idle) (h : s.bus.inputs = .cut w n :: rest) :
    step s = .next (resetBlock (seqRun n (beginWord w (dropInput s)))) := by
  simp [step, nextAction, h, hs]

theorem step_reset {s : State} {rest : List Input} (h : s.bus.inputs = .reset :: rest) : step s = .next (resetBlock (dropInput s)) := by
  simp [step, nextAction, h]

theorem step_exchange {s : State} {n i : Nat} {k : List (Octets × Octets)} {r : Nat} {a : Octets} {rest : List Input}
    (h : s.bus.inputs = .exchange n i k r a :: rest) : step s = .next (exchangeCollaborators n i k r a (dropInput s)) := by
  simp [step, nextAction, h]

theorem step_hashAnswers {s : State} {n : Option Nat} {rest : List Input} (h : s.bus.inputs = .hashAnswers n :: rest) :
    step s = .next { dropInput s with env := { s.env with hashAnswers := n } } := by
  simp [step, nextAction, h]

theorem step_randAnswers {s : State} {n : Option Nat} {rest : List Input} (h : s.bus.inputs = .randAnswers n :: rest) :
    step s = .next { dropInput s with env := { s.env with randAnswers := n } } := by
  simp [step, nextAction, h]

end Sys2Proof.Machine
end

