-- ==== Sys2Proof/Laws/Phases.lean ====
section
/-! SUPPORT. What each phase of the OAEP and PKCS1-v1.5 codecs makes of a running command, one lemma a phase (42_oaep.md R130, R135,
43_pkcs1v15.md R150, R155). -/

namespace Sys2Proof.Machine

variable {sc : Scratch} {e : Env} {s : State}

/-! ### OAEPENC -/

theorem running_eCheck : seqStep (running .oaepenc .eCheck sc e s) =
    if oaepTooLong s.alen.toNat (hLen s) (emLength s) then
      running .oaepenc (.fail .enc) { sc with k := keyBytes s, emLen := emLength s, mLen := s.alen.toNat } e s
    else running .oaepenc .ePs { sc with k := keyBytes s, emLen := emLength s, mLen := s.alen.toNat } e s := by
  show phaseECheck _ = _
  have h : (operandA (running .oaepenc .eCheck sc e s)).length = s.alen.toNat := length_operandA _
  simp only [phaseECheck, h]
  rfl

theorem running_ePs : seqStep (running .oaepenc .ePs sc e s) =
    running .oaepenc .eDb { sc with ps := zeros (sc.emLen - sc.mLen - 2 * hLen s - 1).toNat } e s := rfl

theorem running_eDb (ha : s.alen.toNat ≤ 4096) (hl : s.llen.toNat ≤ 4096) (hans : e.hashAnswers = none) :
    seqStep (running .oaepenc .eDb sc e s) =
      running .oaepenc .eSeed
        { sc with lHash := hashValue e (label s), db := hashValue e (label s) ++ sc.ps ++ [1] ++ operandA s }
        (e.logged [.hash (label s)]) s := by
  show phaseEDb _ = _
  have hA := operandA_running (i := .oaepenc) (ph := .eDb) (sc := sc) (e := e.logged [.hash (label s)]) ha
  rw [phaseEDb, label_running hl, hashPort_of_answers (by exact hans), ← hA]
  rfl

theorem running_eDb_silent (hans : e.hashAnswers = some 0) :
    seqStep (running .oaepenc .eDb sc e s) = running .oaepenc .eDb sc e s := by
  show phaseEDb _ = _
  rw [phaseEDb, hashPort, if_pos (by exact hans)]

theorem running_eSeed (hans : e.randAnswers = none) : seqStep (running .oaepenc .eSeed sc e s) =
    running .oaepenc (.eDbMask .init) { sc with seed := rhoNext e (hLen s) } (e.afterRand (hLen s)) s := by
  show phaseESeed _ = _
  rw [phaseESeed, hLen_running, randPort_delivers (by exact hans)]
  rfl

theorem running_eSeed_silent (hans : e.delivers (hLen s) = false) :
    seqStep (running .oaepenc .eSeed sc e s) = running .oaepenc .eSeed sc e s := by
  show phaseESeed _ = _
  rw [phaseESeed, hLen_running, randPort, if_neg (by rw [running_env, hans]; simp)]

theorem running_eXorDb (h : sc.db.length = sc.dbMask.length) : seqStep (running .oaepenc .eXorDb sc e s) =
    running .oaepenc (.eSeedMask .init) { sc with maskedDb := List.zipWith (· ^^^ ·) sc.db sc.dbMask } e s := by
  show phaseEXorDb _ = _
  rw [phaseEXorDb, running_scratch, xorOctets_of_length_eq h]
  rfl

theorem running_eXorSeed (h : sc.seed.length = sc.seedMask.length) : seqStep (running .oaepenc .eXorSeed sc e s) =
    running .oaepenc .eEmit { sc with maskedSeed := List.zipWith (· ^^^ ·) sc.seed sc.seedMask } e s := by
  show phaseEXorSeed _ = _
  rw [phaseEXorSeed, running_scratch, xorOctets_of_length_eq h]
  rfl

theorem running_eEmit : seqStep (running .oaepenc .eEmit sc e s) = okState .oaepenc (sc.maskedSeed ++ sc.maskedDb) e s :=
  emit_running .oaepenc .eEmit sc e s (sc.maskedSeed ++ sc.maskedDb)

/-! ### OAEPDEC -/

theorem running_dCheck : seqStep (running .oaepdec .dCheck sc e s) =
    if s.alen.toNat < 2 * hLen s + 1 then running .oaepdec (.fail .dec) sc e s else running .oaepdec .dSplit sc e s := by
  show phaseDCheck _ = _
  have h : (operandA (running .oaepdec .dCheck sc e s)).length = s.alen.toNat := length_operandA _
  rw [phaseDCheck, h]
  rfl

theorem running_dSplit (ha : s.alen.toNat ≤ 4096) : seqStep (running .oaepdec .dSplit sc e s) =
    running .oaepdec (.dSeedMask .init)
      { sc with maskedSeed := (operandA s).take (hLen s), maskedDb := (operandA s).drop (hLen s) } e s := by
  show phaseDSplit _ = _
  rw [phaseDSplit, operandA_running ha]
  rfl

theorem running_dXorSeed (h : sc.maskedSeed.length = sc.seedMask.length) : seqStep (running .oaepdec .dXorSeed sc e s) =
    running .oaepdec (.dDbMask .init) { sc with seed := List.zipWith (· ^^^ ·) sc.maskedSeed sc.seedMask } e s := by
  show phaseDXorSeed _ = _
  rw [phaseDXorSeed, running_scratch, xorOctets_of_length_eq h]
  rfl

theorem running_dXorDb (h : sc.maskedDb.length = sc.dbMask.length) : seqStep (running .oaepdec .dXorDb sc e s) =
    running .oaepdec .dLhash { sc with db := List.zipWith (· ^^^ ·) sc.maskedDb sc.dbMask } e s := by
  show phaseDXorDb _ = _
  rw [phaseDXorDb, running_scratch, xorOctets_of_length_eq h]
  rfl

theorem running_dLhash (hl : s.llen.toNat ≤ 4096) (hans : e.hashAnswers = none) : seqStep (running .oaepdec .dLhash sc e s) =
    running .oaepdec .dCmp { sc with lHash := hashValue e (label s) } (e.logged [.hash (label s)]) s := by
  show phaseDLhash _ = _
  rw [phaseDLhash, label_running hl, hashPort_of_answers (by exact hans)]
  rfl

theorem running_dCmp : seqStep (running .oaepdec .dCmp sc e s) =
    running .oaepdec .dScan { sc with hashOk := sameOctets (hLen s) sc.db sc.lHash } e s := rfl

theorem running_dScan : seqStep (running .oaepdec .dScan sc e s) =
    if !sc.hashOk || (scanFor 1 (hLen s) (sc.db.drop (hLen s))).isNone then
      running .oaepdec (.fail .dec) { sc with j := scanFor 1 (hLen s) (sc.db.drop (hLen s)) } e s
    else running .oaepdec .dEmit { sc with j := scanFor 1 (hLen s) (sc.db.drop (hLen s)) } e s := rfl

theorem running_dEmit {j : Nat} (hj : sc.j = some j) : seqStep (running .oaepdec .dEmit sc e s) = okState .oaepdec (sc.db.drop (j + 1)) e s := by
  show phaseDEmit _ = _
  rw [phaseDEmit, running_scratch, hj, emit_running]
  rfl

/-! ### P15ENC -/

theorem running_pCheck : seqStep (running .p15enc .pCheck sc e s) =
    if (s.alen.toNat : Int) > emLength s - 10 then
      running .p15enc (.fail .enc) { sc with k := keyBytes s, emLen := emLength s, mLen := s.alen.toNat } e s
    else running .p15enc .pDraw { sc with k := keyBytes s, emLen := emLength s, mLen := s.alen.toNat } e s := by
  show phasePCheck _ = _
  have h : (operandA (running .p15enc .pCheck sc e s)).length = s.alen.toNat := length_operandA _
  simp only [phasePCheck, h]
  rfl

theorem running_pDraw (hans : e.randAnswers = none) : seqStep (running .p15enc .pDraw sc e s) =
    running .p15enc .pFix
      { sc with psLen := (sc.emLen - sc.mLen - 2).toNat, ps := rhoNext e (sc.emLen - sc.mLen - 2).toNat, i := 0 }
      (e.afterRand (sc.emLen - sc.mLen - 2).toNat) s := by
  show phasePDraw _ = _
  simp only [phasePDraw, running_scratch]
  rw [randPort_delivers (by exact hans)]
  rfl

theorem running_pDraw_silent (hans : e.delivers (sc.emLen - sc.mLen - 2).toNat = false) :
    seqStep (running .p15enc .pDraw sc e s) = running .p15enc .pDraw sc e s := by
  show phasePDraw _ = _
  simp only [phasePDraw, running_scratch]
  rw [randPort, if_neg (by rw [running_env, hans]; simp)]

/-- P_FIX redraws a zero octet. -/
theorem running_pFix_zero (hi : sc.i < sc.psLen) (hz : sc.ps.getD sc.i 0 = 0) (hans : e.randAnswers = none) :
    seqStep (running .p15enc .pFix sc e s) = running .p15enc .pFix { sc with ps := sc.ps.set sc.i (rhoAt e 0) } (e.afterRand 1) s := by
  show phasePFix _ = _
  rw [phasePFix, if_pos (by exact hi), if_pos (by exact hz), randPort_delivers (by exact hans)]
  rfl

/-- P_FIX leaves a non-zero octet and goes on. -/
theorem running_pFix_nonzero (hi : sc.i < sc.psLen) (hz : sc.ps.getD sc.i 0 ≠ 0) :
    seqStep (running .p15enc .pFix sc e s) = running .p15enc .pFix { sc with i := sc.i + 1 } e s := by
  show phasePFix _ = _
  rw [phasePFix, if_pos (by exact hi), if_neg (by exact hz)]
  rfl

theorem running_pFix_end (hi : ¬ sc.i < sc.psLen) : seqStep (running .p15enc .pFix sc e s) = running .p15enc .pEmit sc e s := by
  show phasePFix _ = _
  rw [phasePFix, if_neg (by exact hi)]
  rfl

theorem running_pEmit (ha : s.alen.toNat ≤ 4096) :
    seqStep (running .p15enc .pEmit sc e s) = okState .p15enc ([2] ++ sc.ps ++ [0] ++ operandA s) e s := by
  show phasePEmit _ = _
  rw [phasePEmit, operandA_running ha, emit_running]
  rfl

/-! ### P15DEC -/

theorem running_qLen : seqStep (running .p15dec .qLen sc e s) =
    if s.alen.toNat < 10 then running .p15dec (.fail .dec) sc e s else running .p15dec .qTag sc e s := by
  show phaseQLen _ = _
  have h : (operandA (running .p15dec .qLen sc e s)).length = s.alen.toNat := length_operandA _
  rw [phaseQLen, h]
  rfl

theorem running_qTag (ha : s.alen.toNat ≤ 4096) : seqStep (running .p15dec .qTag sc e s) =
    if (operandA s).getD 0 0 ≠ 2 then running .p15dec (.fail .dec) sc e s else running .p15dec .qScan sc e s := by
  show phaseQTag _ = _
  rw [phaseQTag, operandA_running ha]
  rfl

theorem running_qScan (ha : s.alen.toNat ≤ 4096) : seqStep (running .p15dec .qScan sc e s) =
    if (scanFor 0 0 (operandA s)).isNone then running .p15dec (.fail .dec) { sc with sep := scanFor 0 0 (operandA s) } e s
    else running .p15dec .qPs { sc with sep := scanFor 0 0 (operandA s) } e s := by
  show phaseQScan _ = _
  rw [phaseQScan, operandA_running ha]
  rfl

theorem running_qPs (ha : s.alen.toNat ≤ 4096) {k : Nat} (hk : sc.sep = some k) : seqStep (running .p15dec .qPs sc e s) =
    if (((operandA s).take k).drop 1).length < 8 then running .p15dec (.fail .dec) { sc with ps := ((operandA s).take k).drop 1 } e s
    else running .p15dec .qEmit { sc with ps := ((operandA s).take k).drop 1 } e s := by
  show phaseQPs _ = _
  have h : (running .p15dec .qPs sc e s).scratch.sep = some k := hk
  rw [phaseQPs, operandA_running ha, h]
  rfl

theorem running_qEmit (ha : s.alen.toNat ≤ 4096) {k : Nat} (hk : sc.sep = some k) :
    seqStep (running .p15dec .qEmit sc e s) = okState .p15dec ((operandA s).drop (k + 1)) e s := by
  show phaseQEmit _ = _
  rw [phaseQEmit, operandA_running ha, running_scratch, hk, emit_running]
  rfl

end Sys2Proof.Machine
end

