-- ==== Sys2Proof/Laws/Padding.lean ====
section
/-! SUPPORT. The random stream and the redraw loop P_FIX (43_pkcs1v15.md R152): what a whole run of it does. -/

namespace Sys2Proof.Machine

/-- The octets after `n` have been drawn (00_scope.md R17). -/
theorem rhoAt_afterRand (e : Env) (n i : Nat) : rhoAt (e.afterRand n) i = rhoAt e (n + i) := by
  simp [rhoAt, Env.afterRand, List.getD, Nat.add_assoc]

theorem rhoNext_succ (e : Env) (n : Nat) : rhoNext e (n + 1) = rhoAt e 0 :: rhoNext (e.afterRand 1) n := by
  simp only [rhoNext, List.range_succ_eq_map, List.map_cons, List.map_map, List.cons.injEq, true_and]
  refine List.map_congr_left fun i _ => ?_
  simp only [Function.comp, rhoAt_afterRand]
  congr 1; omega

theorem rhoNext_drop (e : Env) (n m : Nat) : (rhoNext e (n + m)).drop n = rhoNext (e.afterRand n) m := by
  refine List.ext_getElem (by simp) fun i h1 h2 => ?_
  simp [rhoNext, rhoAt_afterRand]

/-- The environment after `used` single octets have been drawn. -/
def Env.afterSingles (e : Env) (used : Nat) : Env :=
  { e with rhoAhead := e.rhoAhead.drop used, rc := e.rc + used, events := e.events ++ List.replicate used (.rand 1) }

theorem Env.afterSingles_zero (e : Env) : e.afterSingles 0 = e := by simp [Env.afterSingles]

theorem Env.afterSingles_afterRand (e : Env) (h : e.randAnswers = none) (k : Nat) : (e.afterRand 1).afterSingles k = e.afterSingles (k + 1) := by
  simp only [Env.afterSingles, Env.afterRand, h, List.drop_drop]
  simp [List.replicate_succ, Nat.add_comm, Nat.add_left_comm]

/-- A zero octet takes the next octet of the stream, and stays where that is zero too. -/
theorem redraw_zero_cons (xs : Octets) (y : Byte) (L : Octets) : redraw (0 :: xs) (y :: L) =
    if y = 0 then (redraw (0 :: xs) L).map fun r => (r.1, r.2 + 1) else (redraw xs L).map fun r => (y :: r.1, r.2 + 1) := by
  by_cases hy : y = 0
  · subst hy
    rw [if_pos rfl]
    simp only [redraw, ne_eq, not_true_eq_false, if_false, List.dropWhile_cons, List.takeWhile_cons, beq_self_eq_true, if_true]
    cases L.dropWhile (· == 0) with
    | nil => rfl
    | cons z ys =>
      simp only [Option.map_map]
      congr 1
      funext r
      simp only [Function.comp, List.length_cons, Prod.mk.injEq, true_and]
      omega
  · have hb : (y == 0) = false := by simpa using hy
    rw [if_neg hy]
    simp only [redraw, ne_eq, not_true_eq_false, if_false, List.dropWhile_cons, List.takeWhile_cons, hb, Bool.false_eq_true]
    congr 1
    funext r
    simp only [List.length_nil, Prod.mk.injEq, true_and]
    omega

/-- The whole of P_FIX: `rest` are the octets not yet visited, `L` the octets the source delivers next. -/
theorem pFix_run {s : State} (sc : Scratch) (rest : Octets) :
    ∀ (done : Octets) (L : Octets) (e : Env) (ps : Octets) (used : Nat), e.randAnswers = none →
   rhoNext e L.length = L → redraw rest L = some (ps, used) →
   seqRun (rest.length + used) (running .p15enc .pFix { sc with psLen := done.length + rest.length, ps := done ++ rest, i := done.length } e s) =
    running .p15enc .pFix { sc with psLen := done.length + rest.length, ps := done ++ ps, i := done.length + rest.length }
      (e.afterSingles used) s := by
  induction rest with
  | nil =>
    intro done L e ps used he hL h
    cases h
    simp [Env.afterSingles_zero]
  | cons x xs ih =>
    have visit : ∀ (done : Octets) (y : Byte) (L : Octets) (e : Env) (ps : Octets) (used : Nat), y ≠ 0 → e.randAnswers = none →
        rhoNext e L.length = L → redraw xs L = some (ps, used) →
        seqRun (xs.length + 1 + used)
            (running .p15enc .pFix { sc with psLen := done.length + (xs.length + 1), ps := done ++ y :: xs, i := done.length } e s) =
          running .p15enc .pFix
            { sc with psLen := done.length + (xs.length + 1), ps := done ++ y :: ps, i := done.length + (xs.length + 1) }
            (e.afterSingles used) s := by
      intro done y L e ps used hy he hL h
      rw [show xs.length + 1 + used = xs.length + used + 1 by omega, seqRun_succ',
        running_pFix_nonzero (by simp) (by simpa [List.getD] using hy)]
      have := ih (done ++ [y]) L e ps used he hL h
      simp only [List.length_append, List.length_singleton, List.append_assoc, List.singleton_append, Nat.add_assoc, Nat.add_comm 1] at this
      exact this
    intro done L
    by_cases hx : x ≠ 0
    · intro e ps used he hL h
      simp only [redraw, if_pos hx, Option.map_eq_some_iff] at h
      obtain ⟨⟨ps', used'⟩, h, heq⟩ := h
      cases heq
      exact visit done x L e ps' used' hx he hL h
    · push Not at hx
      subst hx
      induction L with
      | nil => intro e ps used he hL h; simp [redraw] at h
      | cons y L ihL =>
        intro e ps used he hL h
        rw [List.length_cons, rhoNext_succ] at hL
        obtain ⟨hy0, hL'⟩ := List.cons.inj hL
        rw [redraw_zero_cons] at h
        have hstep : seqStep (running .p15enc .pFix { sc with psLen := done.length + (xs.length + 1), ps := done ++ 0 :: xs, i := done.length } e s) =
            running .p15enc .pFix { sc with psLen := done.length + (xs.length + 1), ps := done ++ y :: xs, i := done.length } (e.afterRand 1) s := by
          rw [running_pFix_zero (by simp) (by simp [List.getD]) he, hy0]
          simp
        have he' : (e.afterRand 1).randAnswers = none := by simp [Env.afterRand, he]
        by_cases hy : y = 0
        · rw [if_pos hy] at h
          simp only [Option.map_eq_some_iff] at h
          obtain ⟨⟨ps', used'⟩, h, heq⟩ := h
          cases heq
          have := ihL (e.afterRand 1) ps' used' he' hL' h
          rw [List.length_cons] at this ⊢
          rw [show xs.length + 1 + (used' + 1) = xs.length + 1 + used' + 1 by omega, seqRun_succ', hstep, hy, this, Env.afterSingles_afterRand e he]
        · rw [if_neg hy] at h
          simp only [Option.map_eq_some_iff] at h
          obtain ⟨⟨ps', used'⟩, h, heq⟩ := h
          cases heq
          have := visit done y L (e.afterRand 1) ps' used' hy he' hL' h
          rw [List.length_cons]
          rw [show xs.length + 1 + (used' + 1) = xs.length + 1 + used' + 1 by omega, seqRun_succ', hstep, this, Env.afterSingles_afterRand e he]

/-- The padding string keeps its length: only offending octets are replaced (43_pkcs1v15.md R152). -/
theorem redraw_length : ∀ (xs L ps : Octets) (used : Nat), redraw xs L = some (ps, used) → ps.length = xs.length := by
  intro xs
  induction xs with
  | nil => intro L ps used h; cases h; rfl
  | cons x xs ih =>
    intro L ps used h
    unfold redraw at h
    split at h
    · simp only [Option.map_eq_some_iff] at h
      obtain ⟨⟨p, u⟩, h, heq⟩ := h; cases heq
      simp [ih _ _ _ h]
    · split at h
      · cases h
      · simp only [Option.map_eq_some_iff] at h
        obtain ⟨⟨p, u⟩, h, heq⟩ := h; cases heq
        simp [ih _ _ _ h]
theorem afterSingles_afterRand_eq (e : Env) (h : e.randAnswers = none) (n used : Nat) :
    (e.afterRand n).afterSingles used = e.afterPadding n used := by
  simp [Env.afterSingles, Env.afterRand, Env.afterPadding, h, List.drop_drop, Nat.add_assoc]

end Sys2Proof.Machine
end

