-- ==== Sys2Proof/Laws/PerInstr.lean ====
section
/-! SUPPORT. A statement made for each command: its word decodes to it (30_encoding.md R92). -/

namespace Sys2Proof.Laws.RoundTrip

/-- Decoding the encoded command gives it back. -/
def Statement : Instr → Prop := fun i => decode (encode i) = .ok i

theorem i2osp : Statement .i2osp := rfl
theorem xor : Statement .xor := rfl
theorem mgf1 : Statement .mgf1 := rfl
theorem oaepenc : Statement .oaepenc := rfl
theorem oaepdec : Statement .oaepdec := rfl
theorem p15enc : Statement .p15enc := rfl
theorem p15dec : Statement .p15dec := rfl
theorem clr : Statement .clr := rfl

end Sys2Proof.Laws.RoundTrip
end

