-- ==== Sys2Proof/Laws/Reaches.lean ====
section
/-! SUPPORT. The states a command comes to: that `exec` and every number of phases lead to one, and what holds of all of them. -/

namespace Sys2Proof.Machine

@[simp] theorem served_phase (h r : Option Nat) (l : List Input) (s : State) : (served h r l s).phase = s.phase := rfl
@[simp] theorem served_scratch (h r : Option Nat) (l : List Input) (s : State) : (served h r l s).scratch = s.scratch := rfl
@[simp] theorem served_mem (h r : Option Nat) (l : List Input) (s : State) : (served h r l s).mem = s.mem := rfl
@[simp] theorem served_err (h r : Option Nat) (l : List Input) (s : State) : (served h r l s).err = s.err := rfl
@[simp] theorem served_olen (h r : Option Nat) (l : List Input) (s : State) : (served h r l s).olen = s.olen := rfl
@[simp] theorem served_rc (h r : Option Nat) (l : List Input) (s : State) : (served h r l s).env.rc = s.env.rc := rfl
@[simp] theorem served_events (h r : Option Nat) (l : List Input) (s : State) : (served h r l s).env.events = s.env.events := rfl
@[simp] theorem served_responses (h r : Option Nat) (l : List Input) (s : State) :
    (served h r l s).bus.responses = s.bus.responses := rfl

/-- Taking an input off the list and nothing else. -/
theorem dropInput_eq_served (s : State) :
    dropInput s = served s.env.hashAnswers s.env.randAnswers s.bus.inputs.tail s := rfl

theorem Reaches.seqRun {i : Instr} {s t : State} (h : Reaches i s t) (n : Nat) : Reaches i s (seqRun n t) :=
  seqRun_induct (fun _ h => h.phase) n h

theorem Reaches.of_exec {i : Instr} {s t : State} (h : exec i s = .next t) : Reaches i s t := by
  rw [exec_eq] at h
  cases h
  exact Reaches.start.seqRun _

/-- What the start sequence gives and every phase and every answer keeps holds of every state the command comes to. -/
theorem Reaches.induct {i : Instr} {s : State} {P : State → Prop} (h0 : P (beginCommand i s)) (hstep : ∀ t, P t → P (seqStep t))
    (hserved : ∀ t h r l, P t → P (Machine.served h r l t)) {t : State} (h : Reaches i s t) : P t := by
  induction h with
  | start => exact h0
  | phase _ ih => exact hstep _ ih
  | served h r l _ ih => exact hserved _ h r l ih

theorem Inv.afterServed {s : State} (hI : Inv s) (h r : Option Nat) (l : List Input) : Inv (served h r l s) :=
  (hI.withEnv (e := { s.env with hashAnswers := h, randAnswers := r }) rfl).withBus _

theorem Reaches.inv {i : Instr} {s t : State} (h : Reaches i s t) (hI : Inv s) (hs : s.phase = .idle) : Inv t :=
  h.induct (beginCommand_inv hI hs) (fun _ h => seqStep_inv h) fun _ h r l hI => hI.afterServed h r l

theorem RunShape.afterServed {i : Instr} {s t : State} (hr : RunShape i s t) (h r : Option Nat) (l : List Input) :
    RunShape i { s with bus := { s.bus with inputs := l } } (served h r l t) := by
  rcases hr with ⟨ph, sc, e, h1, h2, h3, he, rfl⟩ | ⟨o, e, he, rfl⟩ | ⟨k, e, hk, he, rfl⟩
  · exact .inl ⟨ph, sc, { e with hashAnswers := h, randAnswers := r }, h1, h2, h3, he, rfl⟩
  · exact .inr (.inl ⟨o, { e with hashAnswers := h, randAnswers := r }, he, rfl⟩)
  · exact .inr (.inr ⟨k, { e with hashAnswers := h, randAnswers := r }, hk, he, rfl⟩)

/-- What a command other than CLR has come to, whenever that is, up to the inputs taken off the list. -/
theorem Reaches.shape {i : Instr} {s t : State} (hi : i ≠ .clr) (h : Reaches i s t) :
    ∃ S, (S = s ∨ (S = withLatch s ∧ usesHash i = true ∧ capacityFault i s = false ∧ digestUsable s)) ∧
      RunShape i { S with bus := { S.bus with inputs := t.bus.inputs } } t := by
  obtain ⟨S, hS, h0⟩ := beginCommand_shape hi s
  refine ⟨S, hS, h.induct (P := fun t => RunShape i { S with bus := { S.bus with inputs := t.bus.inputs } } t) ?_ ?_ ?_⟩
  · have : (beginCommand i s).bus.inputs = S.bus.inputs := by
      rcases h0 with ⟨_, _, _, _, _, _, _, h⟩ | ⟨_, _, _, h⟩ | ⟨_, _, _, _, h⟩ <;> rw [h] <;> rfl
    rw [this]; exact h0
  · intro t ht
    rw [(seqStep_keptByClr t).inputs]
    exact ht.seqStep
  · intro t h r l ht
    exact ht.afterServed h r l

/-- CLR, whenever that is: its one phase lies ahead, or it has completed (44_control.md R170). -/
theorem reaches_clr {s t : State} (h : Reaches .clr s t) :
    ∃ h r l, t = served h r l (beginCommand .clr s) ∨ t = served h r l (runCommand .clr s) := by
  have hb : (beginCommand .clr s).phase = .kClr := rfl
  refine h.induct (P := fun t => ∃ h r l, t = served h r l (beginCommand .clr s) ∨ t = served h r l (runCommand .clr s))
    ⟨_, _, _, .inl rfl⟩ ?_ ?_
  · rintro _ ⟨h, r, l, rfl | rfl⟩
    · refine ⟨h, r, l, .inr ?_⟩
      rw [runCommand_clr]
      simp only [seqStep, served_phase, hb]
      rfl
    · refine ⟨h, r, l, .inr (seqStep_of_idle ?_)⟩
      rw [runCommand_clr]; rfl
  · rintro _ h r l ⟨_, _, _, rfl | rfl⟩
    · exact ⟨h, r, l, .inl rfl⟩
    · exact ⟨h, r, l, .inr rfl⟩

end Sys2Proof.Machine
end

