-- ==== Sys2Proof/Laws/Status.lean ====
section
/-! SUPPORT. STATUS.ERR is written at completion and read by no phase (10_state.md R35). -/

namespace Sys2Proof.Machine

/-- The state with another completion kind. -/
def withErr (e : ErrKind) (s : State) : State := { s with err := e }

theorem hashPort_withErr (e : ErrKind) (m : Octets) (s : State) :
    hashPort m (withErr e s) = (hashPort m s).map fun r => (r.1, withErr e r.2) := by
  unfold hashPort
  by_cases h : s.env.hashAnswers = some 0
  · rw [if_pos h, if_pos (by exact h)]; rfl
  · rw [if_neg h, if_neg (by exact h)]; rfl

theorem randPort_withErr (e : ErrKind) (n : Nat) (s : State) :
    randPort n (withErr e s) = (randPort n s).map fun r => (r.1, withErr e r.2) := by
  unfold randPort
  by_cases h : s.env.delivers n = true
  · rw [if_pos h, if_pos (by exact h)]; rfl
  · rw [if_neg h, if_neg (by exact h)]; rfl

/-- The same phase with another ERR: it differs in ERR alone, and not at all once the command has completed. -/
def SameButErr (e : ErrKind) (t t' : State) : Prop := (t.phase ≠ .idle ∧ t' = withErr e t) ∨ (t.phase = .idle ∧ t' = t)

theorem SameButErr.running {e : ErrKind} {t : State} (h : t.phase ≠ .idle) : SameButErr e t (withErr e t) := .inl ⟨h, rfl⟩

theorem mgfPhase_withErr {cmd : Instr} {seed : Octets} {length : Nat} {here : MgfPhase → Phase} {done : Octets → State → State} {m : MgfPhase}
    {e : ErrKind} {s : State} (hph : s.phase = here m) (hne : ∀ m, here m ≠ .idle)
    (hdone : ∀ r, SameButErr e (done r s) (done r (withErr e s))) :
    SameButErr e (mgfPhase cmd seed length here done m s) (mgfPhase cmd seed length here done m (withErr e s)) := by
  cases m with
  | init => exact .inl ⟨hne _, rfl⟩
  | i2osp =>
    have h : (withErr e s).scratch = s.scratch := rfl
    simp only [mgfPhase, h]
    cases Sys2Proof.Machine.i2osp s.scratch.c with
    | none => exact .inl ⟨by simp [raise], rfl⟩
    | some c4 => exact .inl ⟨hne _, rfl⟩
  | hash =>
    have h : (withErr e s).scratch = s.scratch := rfl
    simp only [mgfPhase, h, hashPort_withErr]
    cases hashPort (seed ++ s.scratch.c4) s with
    | none => exact .inl ⟨hph ▸ hne _, rfl⟩
    | some r => exact .inl ⟨hne _, rfl⟩
  | append =>
    have h : (withErr e s).scratch = s.scratch := rfl
    simp only [mgfPhase, h]
    by_cases hc : s.scratch.c + 1 < s.scratch.n
    · simp only [if_pos hc]; exact .inl ⟨hne _, rfl⟩
    · simp only [if_neg hc]; exact .inl ⟨hne _, rfl⟩
  | trunc =>
    have h : (withErr e s).scratch = s.scratch := rfl
    simp only [mgfPhase, h]
    by_cases hc : s.scratch.t.length < length
    · simp only [if_pos hc]; exact .inl ⟨by simp [raise], rfl⟩
    · simp only [if_neg hc]; exact hdone _

/-- No phase reads ERR (10_state.md R35). -/
theorem seqStep_withErr (e : ErrKind) {s : State} (hs : s.phase ≠ .idle) : SameButErr e (seqStep s) (seqStep (withErr e s)) := by
  have hsc : (withErr e s).scratch = s.scratch := rfl
  have hp : (withErr e s).phase = s.phase := rfl
  cases hph : s.phase with
  | idle => exact absurd hph hs
  | fail k => simp only [seqStep, hp, hph]; exact .inr ⟨rfl, rfl⟩
  | kClr => simp only [seqStep, hp, hph]; exact .inr ⟨rfl, rfl⟩
  | eEmit => simp only [seqStep, hp, hph]; exact .inr ⟨rfl, rfl⟩
  | dEmit => simp only [seqStep, hp, hph]; exact .inr ⟨rfl, rfl⟩
  | pEmit => simp only [seqStep, hp, hph]; exact .inr ⟨rfl, rfl⟩
  | qEmit => simp only [seqStep, hp, hph]; exact .inr ⟨rfl, rfl⟩
  | ePs => simp only [seqStep, hp, hph]; exact .inl ⟨by simp [phaseEPs], rfl⟩
  | dSplit => simp only [seqStep, hp, hph]; exact .inl ⟨by simp [phaseDSplit], rfl⟩
  | dCmp => simp only [seqStep, hp, hph]; exact .inl ⟨by simp [phaseDCmp], rfl⟩
  | mgf1 m => simp only [seqStep, hp, hph]; exact mgfPhase_withErr hph (by simp) fun r => .inr ⟨rfl, rfl⟩
  | eDbMask m => simp only [seqStep, hp, hph]; exact mgfPhase_withErr hph (by simp) fun r => .inl ⟨by simp, rfl⟩
  | eSeedMask m => simp only [seqStep, hp, hph]; exact mgfPhase_withErr hph (by simp) fun r => .inl ⟨by simp, rfl⟩
  | dSeedMask m => simp only [seqStep, hp, hph]; exact mgfPhase_withErr hph (by simp) fun r => .inl ⟨by simp, rfl⟩
  | dDbMask m => simp only [seqStep, hp, hph]; exact mgfPhase_withErr hph (by simp) fun r => .inl ⟨by simp, rfl⟩
  | iConv =>
    have h : operandX (withErr e s) = operandX s := rfl
    simp only [seqStep, hp, hph, phaseIConv, h]
    cases i2osp (operandX s) with
    | none => exact .inl ⟨by simp [raise], rfl⟩
    | some r => exact .inr ⟨rfl, rfl⟩
  | xXor =>
    have h : operandA (withErr e s) = operandA s := rfl
    have h' : operandB (withErr e s) = operandB s := rfl
    simp only [seqStep, hp, hph, phaseXXor, h, h']
    cases xorOctets (operandA s) (operandB s) with
    | none => exact .inl ⟨by simp [raise], rfl⟩
    | some r => exact .inr ⟨rfl, rfl⟩
  | eXorDb =>
    simp only [seqStep, hp, hph, phaseEXorDb, hsc]
    cases xorOctets s.scratch.db s.scratch.dbMask with
    | none => exact .inl ⟨by simp [raise], rfl⟩
    | some r => exact .inl ⟨by simp, rfl⟩
  | eXorSeed =>
    simp only [seqStep, hp, hph, phaseEXorSeed, hsc]
    cases xorOctets s.scratch.seed s.scratch.seedMask with
    | none => exact .inl ⟨by simp [raise], rfl⟩
    | some r => exact .inl ⟨by simp, rfl⟩
  | dXorSeed =>
    simp only [seqStep, hp, hph, phaseDXorSeed, hsc]
    cases xorOctets s.scratch.maskedSeed s.scratch.seedMask with
    | none => exact .inl ⟨by simp [raise], rfl⟩
    | some r => exact .inl ⟨by simp, rfl⟩
  | dXorDb =>
    simp only [seqStep, hp, hph, phaseDXorDb, hsc]
    cases xorOctets s.scratch.maskedDb s.scratch.dbMask with
    | none => exact .inl ⟨by simp [raise], rfl⟩
    | some r => exact .inl ⟨by simp, rfl⟩
  | eDb =>
    have h : label (withErr e s) = label s := rfl
    simp only [seqStep, hp, hph, phaseEDb, h, hashPort_withErr]
    cases hq : hashPort (label s) s with
    | none => exact .inl ⟨by simp [hph], rfl⟩
    | some r => exact .inl ⟨by simp, rfl⟩
  | dLhash =>
    have h : label (withErr e s) = label s := rfl
    simp only [seqStep, hp, hph, phaseDLhash, h, hashPort_withErr]
    cases hq : hashPort (label s) s with
    | none => exact .inl ⟨by simp [hph], rfl⟩
    | some r => exact .inl ⟨by simp, rfl⟩
  | eSeed =>
    have h : hLen (withErr e s) = hLen s := rfl
    simp only [seqStep, hp, hph, phaseESeed, h, randPort_withErr]
    cases hq : randPort (hLen s) s with
    | none => exact .inl ⟨by simp [hph], rfl⟩
    | some r => exact .inl ⟨by simp, rfl⟩
  | pDraw =>
    simp only [seqStep, hp, hph, phasePDraw, hsc, randPort_withErr]
    cases hq : randPort (s.scratch.emLen - s.scratch.mLen - 2).toNat s with
    | none => exact .inl ⟨by simp [hph], rfl⟩
    | some r => exact .inl ⟨by simp, rfl⟩
  | pFix =>
    simp only [seqStep, hp, hph, phasePFix, hsc, randPort_withErr]
    by_cases h1 : s.scratch.i < s.scratch.psLen
    · simp only [if_pos h1]
      by_cases h2 : s.scratch.ps.getD s.scratch.i 0 = 0
      · simp only [if_pos h2]
        cases hq : randPort 1 s with
        | none => exact .inl ⟨by simp [hph], rfl⟩
        | some r =>
          obtain ⟨-, ht⟩ := randPort_cases (r := r.1) (t := r.2) hq
          refine .inl ⟨?_, rfl⟩
          have : r.2.phase = s.phase := by rw [ht]
          simp [this, hph]
      · simp only [if_neg h2]; exact .inl ⟨by simp, rfl⟩
    · simp only [if_neg h1]; exact .inl ⟨by simp, rfl⟩
  | eCheck =>
    simp only [seqStep, hp, hph, phaseECheck]
    by_cases h : oaepTooLong (operandA s).length (hLen s) (emLength s) = true
    · rw [if_pos (by exact h), if_pos (by exact h)]; exact .inl ⟨by simp [raise], rfl⟩
    · rw [if_neg (by exact h), if_neg (by exact h)]; exact .inl ⟨by simp, rfl⟩
  | dCheck =>
    simp only [seqStep, hp, hph, phaseDCheck]
    by_cases h : (operandA s).length < 2 * hLen s + 1
    · rw [if_pos (by exact h), if_pos (by exact h)]; exact .inl ⟨by simp [raise], rfl⟩
    · rw [if_neg (by exact h), if_neg (by exact h)]; exact .inl ⟨by simp, rfl⟩
  | dScan =>
    simp only [seqStep, hp, hph, phaseDScan]
    by_cases h : (!s.scratch.hashOk || (scanFor 1 (hLen s) (s.scratch.db.drop (hLen s))).isNone) = true
    · rw [if_pos (by exact h), if_pos (by exact h)]; exact .inl ⟨by simp [raise], rfl⟩
    · rw [if_neg (by exact h), if_neg (by exact h)]; exact .inl ⟨by simp, rfl⟩
  | pCheck =>
    simp only [seqStep, hp, hph, phasePCheck]
    by_cases h : ((operandA s).length : Int) > emLength s - 10
    · rw [if_pos (by exact h), if_pos (by exact h)]; exact .inl ⟨by simp [raise], rfl⟩
    · rw [if_neg (by exact h), if_neg (by exact h)]; exact .inl ⟨by simp, rfl⟩
  | qLen =>
    simp only [seqStep, hp, hph, phaseQLen]
    by_cases h : (operandA s).length < 10
    · rw [if_pos (by exact h), if_pos (by exact h)]; exact .inl ⟨by simp [raise], rfl⟩
    · rw [if_neg (by exact h), if_neg (by exact h)]; exact .inl ⟨by simp, rfl⟩
  | qTag =>
    simp only [seqStep, hp, hph, phaseQTag]
    by_cases h : (operandA s).getD 0 0 ≠ 2
    · rw [if_pos (by exact h), if_pos (by exact h)]; exact .inl ⟨by simp [raise], rfl⟩
    · rw [if_neg (by exact h), if_neg (by exact h)]; exact .inl ⟨by simp, rfl⟩
  | qScan =>
    simp only [seqStep, hp, hph, phaseQScan]
    by_cases h : (scanFor 0 0 (operandA s)).isNone = true
    · rw [if_pos (by exact h), if_pos (by exact h)]; exact .inl ⟨by simp [raise], rfl⟩
    · rw [if_neg (by exact h), if_neg (by exact h)]; exact .inl ⟨by simp, rfl⟩
  | qPs =>
    simp only [seqStep, hp, hph, phaseQPs]
    by_cases h : (((operandA s).take (s.scratch.sep.getD 0)).drop 1).length < 8
    · rw [if_pos (by exact h), if_pos (by exact h)]; exact .inl ⟨by simp [raise], rfl⟩
    · rw [if_neg (by exact h), if_neg (by exact h)]; exact .inl ⟨by simp, rfl⟩

end Sys2Proof.Machine
end

