-- ==== Sys2Proof/Tests/Slice0.lean ====
section
/-! SUPPORT. Tests of the model on vectors of spec/95_test_vectors.md, and for each statement a concrete case that meets all its hypotheses. -/

namespace Sys2Proof.Tests

open Sys2Proof.Machine

/-! ### Command words -/

/-- WellFormed smoke: OP 0x00, OP 0x09 and OP 0xFF are refused (30_encoding.md R94). -/
theorem test_undefined_opcode_refused :
    CommandWord.wf 0x00000000#32 = false ∧ CommandWord.wf 0x00000009#32 = false ∧ CommandWord.wf 0x000000FF#32 = false ∧
      decode 0x00000000#32 = .error (.opcodeUndefined 0x00) ∧ decode 0x00000009#32 = .error (.opcodeUndefined 0x09) ∧
      decode 0x000000FF#32 = .error (.opcodeUndefined 0xFF) := by decide

/-- WellFormed smoke: a legal OP under a reserved field that is not zero is refused (V61, V62). -/
theorem test_reserved_field_refused :
    CommandWord.wf 0x00000103#32 = false ∧ CommandWord.wf 0x80000001#32 = false ∧
      decode 0x00000103#32 = .error (.reservedNotZero 1) ∧ decode 0x80000001#32 = .error (.reservedNotZero 0x800000) := by decide

theorem test_decode_i2osp : decode 0b000000000000000000000000_00000001#32 = .ok .i2osp := by decide
theorem test_decode_xor : decode 0b000000000000000000000000_00000010#32 = .ok .xor := by decide
theorem test_decode_mgf1 : decode 0b000000000000000000000000_00000011#32 = .ok .mgf1 := by decide
theorem test_decode_oaepenc : decode 0b000000000000000000000000_00000100#32 = .ok .oaepenc := by decide
theorem test_decode_oaepdec : decode 0b000000000000000000000000_00000101#32 = .ok .oaepdec := by decide
theorem test_decode_p15enc : decode 0b000000000000000000000000_00000110#32 = .ok .p15enc := by decide
theorem test_decode_p15dec : decode 0b000000000000000000000000_00000111#32 = .ok .p15dec := by decide
theorem test_decode_clr : decode 0b000000000000000000000000_00001000#32 = .ok .clr := by decide

/-! ### States -/

/-- The test-only hash TOY2 (95_test_vectors.md, section 0). -/
def toy2 (m : Octets) : Octets :=
  [BitVec.ofNat 8 (0x5A + (m.map BitVec.toNat).sum),
    BitVec.ofNat 8 (0xC3 + m.length + ((m.zipIdx 1).map fun p => p.2 * p.1.toNat).sum)]

/-- The sample values the spec gives of TOY2. -/
theorem test_toy2 :
    toy2 [] = [0x5a, 0xc3] ∧ toy2 [0x61, 0x62, 0x63] = [0x80, 0x14] ∧ toy2 [0x4c] = [0xa6, 0x10] ∧
      toy2 [0xaa, 0xbb, 0, 0, 0, 3] = [0xc2, 0xfb] := by decide

/-- The reset state with a two-octet hash attached. -/
def fresh : State := { State.reset with env := { Env.initial with hashLen := 2 } }

/-- `LDA`, `LDB`, `LDL` (30_encoding.md R97). -/
def loadA (a : Octets) (s : State) : State := { s with mem := s.mem.store 0x1000 a, alen := BitVec.ofNat 32 a.length }
def loadB (b : Octets) (s : State) : State := { s with mem := s.mem.store 0x2000 b, blen := BitVec.ofNat 32 b.length }
def loadL (l : Octets) (s : State) : State := { s with mem := s.mem.store 0x3000 l, llen := BitVec.ofNat 32 l.length }

/-- KEYBITS. -/
def key (k : Word) (s : State) : State := { s with keybits := k }

/-- TOY2 answers these messages. -/
def toy (ms : List Octets) (s : State) : State := { s with env := { s.env with hashKnown := ms.map fun m => (m, toy2 m) } }

/-- The next random octets. -/
def stream (r : Octets) (s : State) : State := { s with env := { s.env with rhoAhead := r } }

/-- The host does this next. -/
def does (x : Input) (s : State) : State := { s with bus := { s.bus with inputs := [x] } }

/-- What a vector shows: the result, STATUS, how far rc has moved, the events. -/
def shown (o : Host.Outcome State Fault Refusal) : Option (Octets × Word × Nat × List Event) :=
  match o with
  | .next t => some (result t, statusWord t, t.env.rc, t.env.events)
  | .fault _ | .refused _ => none

/-! ### Commands -/

/-- V14 -/
theorem test_i2osp_big_endian :
    shown (exec .i2osp { fresh with xlo := 0x01020304 }) = some ([1, 2, 3, 4], 0x00000100, 0, []) := by decide

/-- V16 -/
theorem test_i2osp_out_of_range : shown (exec .i2osp { fresh with xhi := 1 }) = some ([], 0x00000101, 0, []) := by decide

/-- V22: octets at or beyond the length are ignored. -/
theorem test_xor_length :
    shown (exec .xor { loadB [0x0f, 0x0f, 0x0f, 0x0f] (loadA [0xaa, 0xbb, 0xcc, 0xdd] fresh) with alen := 2, blen := 2 }) =
      some ([0xa5, 0xb4], 0x00000200, 0, []) := by decide

/-- V20 -/
theorem test_xor_mismatch : shown (exec .xor (loadB [1, 2] (loadA [1, 2, 3] fresh))) = some ([], 0x00000201, 0, []) := by decide

/-- The messages of V27. -/
def seedAabb (c : Byte) : Octets := [0xaa, 0xbb, 0, 0, 0, c]

/-- V27 -/
theorem test_mgf1_five_octets :
    shown (exec .mgf1 { loadA [0xaa, 0xbb] (toy [seedAabb 0, seedAabb 1, seedAabb 2] fresh) with mlen := 5 }) =
      some ([0xbf, 0xe9, 0xc0, 0xef, 0xc1], 0x00000304, 0,
        [.digestSize, .hash (seedAabb 0), .hash (seedAabb 1), .hash (seedAabb 2)]) := by decide

/-- V24: one Hash call whose digest is discarded. -/
theorem test_mgf1_empty :
    shown (exec .mgf1 { loadA [0xaa, 0xbb] (toy [seedAabb 0] fresh) with mlen := 0 }) =
      some ([], 0x00000304, 0, [.digestSize, .hash (seedAabb 0)]) := by decide

/-- The messages of V30 whose digests make dbMask, and those whose digests make seedMask. -/
def seed1122 (c : Byte) : Octets := [0x11, 0x22, 0, 0, 0, c]
def masked (c : Byte) : Octets := [0xd7, 0xdd, 0x8e, 0x24, 0x8e, 0x42, 0xf9, 0, 0, 0, c]

/-- TOY2 on the messages of V30, and on the label of V32. -/
def toyV30 : State → State := toy [[], [0x4c], seed1122 0, seed1122 1, seed1122 2, seed1122 3, masked 0, masked 1]

/-- The encoded message of V30. -/
def emV30 : Octets := [0x98, 0x98, 0xd7, 0xdd, 0x8e, 0x24, 0x8e, 0x42, 0xf9]

/-- The start of V30. -/
def startV30 : State := stream [0x11, 0x22] (key 80 (loadA [0x68, 0x69] (toyV30 fresh)))

/-- V30 -/
theorem test_oaepenc_v30 :
    shown (exec .oaepenc startV30) =
      some (emV30, 0x00000404, 2,
        [.digestSize, .hash [], .rand 2, .hash (seed1122 0), .hash (seed1122 1), .hash (seed1122 2), .hash (seed1122 3), .hash (masked 0),
          .hash (masked 1)]) := by decide

/-- V38: KEYBITS = 48 admits the empty message only. -/
theorem test_oaepenc_too_long : shown (exec .oaepenc (key 48 (loadA [7] fresh))) = some ([], 0x00000405, 0, [.digestSize]) := by decide

/-- The start of V31. -/
def startV31 : State := loadA emV30 (toyV30 fresh)

/-- V31 -/
theorem test_oaepdec_v31 :
    shown (exec .oaepdec startV31) =
      some ([0x68, 0x69], 0x00000504, 0,
        [.digestSize, .hash (masked 0), .hash (masked 1), .hash (seed1122 0), .hash (seed1122 1), .hash (seed1122 2), .hash (seed1122 3),
          .hash []]) := by decide

/-- V36: no separator. -/
def startV36 : State :=
  loadA [0x9b, 0x9d, 0xd7, 0xdd, 0x8e, 0x24, 0x8f, 0x42, 0xf9]
    (toy [[], seed1122 0, seed1122 1, seed1122 2, seed1122 3, [0xd7, 0xdd, 0x8e, 0x24, 0x8f, 0x42, 0xf9, 0, 0, 0, 0]] fresh)

theorem test_oaepdec_no_separator :
    (shown (exec .oaepdec startV36)).map (fun r => (r.1, r.2.1, r.2.2.2.length)) = some ([], 0x00000506, 8) := by decide

/-- The start of V40. -/
def startV40 : State :=
  stream [0x11, 0, 0x33, 0x44, 0, 0x66, 0x77, 0x88, 0, 0xa1, 0xb2, 0xc3] (key 104 (loadA [0x4f, 0x4b] fresh))

/-- The encoded message of V40. -/
def emV40 : Octets := [0x02, 0x11, 0xa1, 0x33, 0x44, 0xb2, 0x66, 0x77, 0x88, 0x00, 0x4f, 0x4b]

/-- V40 -/
theorem test_p15enc_v40 :
    shown (exec .p15enc startV40) = some (emV40, 0x00000600, 11, [.rand 8, .rand 1, .rand 1, .rand 1]) := by decide

/-- V42, the row KEYBITS = 88, ALEN = 1. -/
theorem test_p15enc_too_long : shown (exec .p15enc (key 88 (loadA [7] fresh))) = some ([], 0x00000601, 0, []) := by decide

/-- V47: the later 0x00 is message. -/
theorem test_p15dec_second_zero :
    shown (exec .p15dec (loadA [2, 1, 1, 1, 1, 1, 1, 1, 1, 0, 5, 0, 6] fresh)) = some ([5, 0, 6], 0x00000700, 0, []) := by decide

/-- V45, last row: seven octets of padding. -/
theorem test_p15dec_short_padding :
    shown (exec .p15dec (loadA [2, 1, 1, 1, 1, 1, 1, 1, 0, 5, 6] fresh)) = some ([], 0x00000702, 0, []) := by decide

/-- V67, from a state with hLen latched. -/
theorem test_clr :
    (match exec .clr { startV31 with hv := true, hlen := 2, llen := 9, err := .dec } with
      | .next t => statusWord t == 0x00000804 && t.hlen == 2 && t.alen == 0 && t.llen == 0 && t.mem == []
      | .fault _ | .refused _ => false) = true := by decide

/-! ### The invariant holds of fresh states -/

/-- What makes a state in which no command has run satisfy the invariant, as a check. -/
def freshCheck (s : State) : Bool :=
  s.cfg.wf && decide (4 ≤ s.cfg.cap) && s.mem.wf &&
    s.mem.all (fun c => [Buf.a, Buf.b, Buf.l].any fun bf => decide (bf.window ≤ c.1) && decide (c.1 < bf.window + s.cfg.cap)) &&
    decide (s.hv = false) && decide (s.hlen = 0) && decide (s.olen = 0) && decide (s.err = .ok) &&
    decide (s.scratch = Scratch.zero) && decide (s.phase = .idle)

theorem inv_of_freshCheck {s : State} (h : freshCheck s = true) : Inv s := by
  simp only [freshCheck, Bool.and_eq_true, decide_eq_true_eq, List.all_eq_true, List.any_eq_true] at h
  obtain ⟨⟨⟨⟨⟨⟨⟨⟨⟨h1, h2⟩, h3⟩, h4⟩, h5⟩, h6⟩, h7⟩, h8⟩, h9⟩, h10⟩ := h
  refine Inv.of_fresh h1 h2 h3 (fun c hc => ?_) h5 h6 h7 h8 h9 h10
  obtain ⟨bf, hb, hlo, hhi⟩ := h4 c hc
  refine ⟨⟨bf, hlo, hhi⟩, ?_⟩
  have hcap : s.cfg.cap ≤ 4096 := by
    simp only [Params.wf, Bool.and_eq_true, decide_eq_true_eq] at h1; exact h1.1.1.1.2
  rcases List.mem_cons.1 hb with rfl | hb
  · simp only [Buf.window] at hhi; omega
  rcases List.mem_cons.1 hb with rfl | hb
  · simp only [Buf.window] at hhi; omega
  rcases List.mem_cons.1 hb with rfl | hb
  · simp only [Buf.window] at hhi; omega
  · cases hb

/-! ### A case for every statement with hypotheses -/

/-- Buffers of 16 bytes, so that the edges are near. -/
def small (s : State) : State := { s with cfg := { s.cfg with cap := 16 } }

/-- The hash primitive has fallen silent; the source has `n` octets left. -/
def silentHash (s : State) : State := { s with env := { s.env with hashAnswers := some 0 } }
def lastOctets (n : Nat) (s : State) : State := { s with env := { s.env with randAnswers := some n } }

theorem latchAgrees_of_unlatched {s : State} (h : s.hv = false) : latchAgrees s := fun h' => by rw [h] at h'; cases h'

/-- A field of the state that a command leaves. -/
def ends {α : Type} (i : Instr) (s : State) (f : State → α) : α := f (runCommand i s)

/-- The illegal words at the edges of R94, and a CMD write of one. -/
theorem witness_IllegalWordsRaiseUsageFault :
    (∃ e, decode 0x00000000#32 = .error e) ∧ (∃ e, decode 0x00000009#32 = .error e) ∧ (∃ e, decode 0x000000FF#32 = .error e) ∧
      (∃ e, decode 0x00000103#32 = .error e) ∧ (does (.write 0 4 0x103) fresh).phase = .idle ∧
      (does (.write 0 4 0x103) fresh).bus.inputs = [.write fresh.cfg.base 4 0x103] :=
  ⟨⟨_, rfl⟩, ⟨_, rfl⟩, ⟨_, rfl⟩, ⟨_, rfl⟩, rfl, rfl⟩

/-- A CMD write of OAEPENC; and the table's word of it. -/
theorem witness_StepRunsWrittenCommand :
    (does (.write 0 4 4) fresh).phase = .idle ∧ decode 4#32 = .ok .oaepenc ∧
      (does (.write 0 4 4) fresh).bus.inputs = [.write fresh.cfg.base 4 4#32] ∧ decodeTableWord 32 4 = some .oaepenc :=
  ⟨rfl, by decide, rfl, by decide⟩

/-- Whether an access is refused. -/
def refused (x : Input) (s : State) : Bool :=
  match step (does x s) with
  | .refused (.busError _ _ _) => true
  | _ => false

/-- V69 and the edges of the map: which accesses are refused and which are served. -/
theorem witness_RefusedAccesses :
    ([(0x010, 1), (0x010, 2), (0x012, 4), (0x1000, 4), (0x02C, 4), (0xFFC, 4), (0x5000, 1), (0x7FFF, 1)].all fun c =>
        refused (.read c.1 c.2) fresh && refused (.write c.1 c.2 7) fresh) = true ∧
      refused (.write 0x1010 1 7) (small fresh) = true ∧ refused (.read 0x100F 1) (small fresh) = false ∧
      ([(0x000, 4), (0x028, 4), (0x1000, 1), (0x4FFF, 1)].all fun c => !refused (.read c.1 c.2) fresh) = true := by decide

/-- Eleven different values in the eleven registers. -/
def filled : State :=
  { fresh with
    hlen := 2, hv := true, olen := 3, keybits := 4, xlo := 5, xhi := 6, alen := 7, blen := 8, llen := 9, mlen := 10, lastOp := 5
    err := .dec }

/-- The response to one access. -/
def response (x : Input) (s : State) : Option Response :=
  match step (does x s) with
  | .next t => t.bus.responses.head?
  | _ => none

theorem witness_RegisterReads :
    filled.phase = .idle ∧
      ([(0x000, 0), (0x004, 0x506), (0x008, 2), (0x00C, 3), (0x010, 4), (0x014, 5), (0x018, 6), (0x01C, 7), (0x020, 8), (0x024, 9),
        (0x028, 10)].all fun c => response (.read c.1 4) filled == some (.word c.2)) = true := by decide

/-- V68 and the operand registers: each write keeps or changes one register. -/
theorem witness_RegisterWrites :
    ([(0x004, 0x506), (0x008, 2), (0x00C, 3), (0x010, 99), (0x014, 99), (0x018, 99), (0x01C, 99), (0x020, 99), (0x024, 99),
      (0x028, (99 : Word))].all fun c =>
        match step (does (.write c.1 4 99) filled) with
        | .next t => response (.read c.1 4) { t with bus := { t.bus with responses := [] } } == some (.word c.2)
        | _ => false) = true ∧
      filled.phase = .idle ∧ (does (.write 0 4 8) filled).bus.inputs = [.write (filled.cfg.base + 0) 4 8] := by decide

theorem witness_BufferReads :
    Inv startV31 ∧ startV31.phase = .idle ∧ startV31.cfg.wf = true ∧ 0x1000 ∈ [0x1000, 0x2000, 0x3000, 0x4000] ∧ 4095 < startV31.cfg.cap ∧
      response (.read 0x1008 1) startV31 = some (.byte 0xf9) ∧ response (.read 0x1FFF 1) startV31 = some (.byte 0) ∧
      startV31.olen.toNat ≤ 0 ∧ response (.read 0x4000 1) startV31 = some (.byte 0) :=
  ⟨inv_of_freshCheck (by decide), by decide⟩

theorem witness_BufferWrites :
    startV31.phase = .idle ∧ startV31.cfg.wf = true ∧ startV31.mem.wf = true ∧
      ([(0x1000, 7), (0x1FFF, 7), (0x2000, 7), (0x3FFF, 7), (0x4000, (0 : Byte))].all fun c =>
        match step (does (.write c.1 1 0x107) startV31) with
        | .next t => t.mem.read c.1 == c.2
        | _ => false) = true := by decide

/-- A running command and a waiting read, an empty list and a `wait`; a command in its last phase. -/
theorem witness_CommandHoldsBus :
    (does (.read 4 4) (beginCommand .p15enc startV40)).phase ≠ .idle ∧
      (does (.read 4 4) (beginCommand .p15enc startV40)).bus.inputs = [.read 4 4] ∧ (beginCommand .p15enc startV40).bus.inputs = [] ∧
      (does .wait (beginCommand .p15enc startV40)).bus.inputs = [.wait] ∧
      (seqStep (beginCommand .p15enc startV40)).phase ≠ .idle ∧ (beginCommand .i2osp fresh).phase ≠ .idle ∧
      (seqStep (beginCommand .i2osp fresh)).phase = .idle := by decide

theorem witness_ResetInput :
    (does .reset (beginCommand .p15enc startV40)).bus.inputs = [.reset] ∧ (does (.cut 6 2) startV40).phase = .idle ∧
      (does (.cut 6 2) startV40).bus.inputs = [.cut 6 2] := ⟨rfl, rfl, rfl⟩

theorem witness_CollaboratorsExchangedUnderResetOnly :
    (∃ t, step (does (.exchange 20 1 [] 1 []) fresh) = .next t ∧ ¬ fresh.env.sameCollaborators t.env) ∧
      ∃ t, step (does .wait fresh) = .next t ∧ fresh.env.sameCollaborators t.env :=
  ⟨⟨_, rfl, fun h => absurd h.1 (by decide)⟩, ⟨_, rfl, rfl, rfl, rfl, rfl⟩⟩

theorem witness_ParametersNeverChange : ∃ t, step (does .reset (small fresh)) = .next t ∧ t.cfg.cap = 16 := ⟨_, rfl, rfl⟩

/-- Equal lengths, different lengths, and one longer than CAP. -/
theorem witness_XorResult :
    (small fresh).cfg.wf = true ∧ ends .xor (small { fresh with alen := 17 }) (·.err) = .use ∧
      ends .xor (small { fresh with alen := 16, blen := 16 }) (·.err) = .ok ∧
      ends .xor (small { fresh with alen := 16 }) (·.err) = .enc := by decide

theorem witness_XorLaws : ([1, 2, 3] : Octets).length ≠ ([1, 2] : Octets).length ∧ ([1, 2] : Octets).length = ([3, 4] : Octets).length :=
  by decide

theorem witness_ClrLeavesBuffersZero : startV31.cfg.wf = true ∧ startV31.mem.read 0x1008 ≠ 0 := by decide

/-- The start of V27. -/
def startV27 : State := { loadA [0xaa, 0xbb] (toy [seedAabb 0, seedAabb 1, seedAabb 2] fresh) with mlen := 5 }

theorem witness_Mgf1Result :
    startV27.cfg.wf = true ∧ latchAgrees startV27 ∧ startV27.env.hashAnswers = none ∧
      ends .mgf1 (small { fresh with mlen := 17 }) (·.err) = .use ∧
      ends .mgf1 { fresh with env := { fresh.env with hashLen := 65 } } (·.err) = .use :=
  ⟨by decide, latchAgrees_of_unlatched rfl, rfl, by decide, by decide⟩

theorem witness_Mgf1Octets :
    startV27.cfg.wf = true ∧ startV27.mem.wf = true ∧ latchAgrees startV27 ∧ digestUsable startV27 ∧ startV27.env.hashAnswers = none ∧
      startV27.alen.toNat ≤ startV27.cfg.cap ∧ startV27.mlen.toNat ≤ startV27.cfg.cap ∧ 4 < startV27.mlen.toNat :=
  ⟨by decide, by decide, latchAgrees_of_unlatched rfl, .inr (by decide), rfl, by decide, by decide, by decide⟩

theorem witness_Mgf1PrefixLaw :
    latchAgrees startV27 ∧ digestUsable startV27 ∧ startV27.cfg.wf = true ∧ startV27.mem.wf = true ∧ startV27.env.hashAnswers = none ∧
      startV27.alen.toNat ≤ startV27.cfg.cap ∧ (5#32).toNat ≤ startV27.cfg.cap ∧ (3#32).toNat ≤ (5#32).toNat :=
  ⟨latchAgrees_of_unlatched rfl, .inr (by decide), by decide⟩

theorem witness_OaepEncodeResult :
    startV30.cfg.wf = true ∧ latchAgrees startV30 ∧ startV30.env.answersAll ∧
      ends .oaepenc (small { fresh with llen := 17 }) (·.err) = .use ∧ ends .oaepenc (small (key 144 fresh)) (·.err) = .use :=
  ⟨by decide, latchAgrees_of_unlatched rfl, ⟨rfl, rfl⟩, by decide, by decide⟩

/-- The longest message under KEYBITS = 80, and one octet more. -/
theorem witness_OaepEncodeAcceptedLengths :
    startV30.cfg.wf = true ∧ latchAgrees startV30 ∧ digestUsable startV30 ∧ startV30.env.answersAll ∧
      startV30.alen.toNat ≤ startV30.cfg.cap ∧ startV30.llen.toNat ≤ startV30.cfg.cap ∧ emLength startV30 ≤ (startV30.cfg.cap : Int) ∧
      ends .oaepenc { startV30 with alen := 4 } (·.err) = .ok ∧ ends .oaepenc { startV30 with alen := 5 } (·.err) = .enc :=
  ⟨by decide, latchAgrees_of_unlatched rfl, .inr (by decide), ⟨rfl, rfl⟩, by decide⟩

/-- A short EM makes no Hash event; the other outcomes are V31 and V36. -/
theorem witness_OaepDecodeResult :
    startV31.cfg.wf = true ∧ latchAgrees startV31 ∧ startV31.env.hashAnswers = none ∧
      ends .oaepdec { startV31 with alen := 4 } (fun t => (t.err, t.env.events)) = (.dec, [.digestSize]) :=
  ⟨by decide, latchAgrees_of_unlatched rfl, rfl, by decide⟩

theorem witness_DecodeFailuresLookAlike :
    (∃ t, exec .oaepdec startV36 = .next t ∧ t.phase = .idle ∧ t.err = .dec) ∧
      ∃ t, exec .p15dec startV31 = .next t ∧ t.phase = .idle ∧ t.err = .dec :=
  ⟨⟨_, exec_eq _ _, by decide, by decide⟩, ⟨_, exec_eq _ _, by decide, by decide⟩⟩

theorem witness_OaepRoundTrip :
    Inv startV30 ∧ startV30.phase = .idle ∧ startV30.env.answersAll ∧ exec .oaepenc startV30 = .next (runCommand .oaepenc startV30) ∧
      (runCommand .oaepenc startV30).err = .ok ∧ Inv startV31 ∧ startV31.phase = .idle ∧ digestUsable startV31 ∧
      startV31.env.hashAnswers = none ∧ startV31.cfg = startV30.cfg ∧ startV30.env.sameCollaborators startV31.env ∧
      operandA startV31 = result (runCommand .oaepenc startV30) ∧ label startV31 = label startV30 :=
  ⟨inv_of_freshCheck (by decide), rfl, ⟨rfl, rfl⟩, exec_eq _ _, by decide, inv_of_freshCheck (by decide), rfl, .inr (by decide), rfl, rfl,
    ⟨rfl, rfl, rfl, rfl⟩, by decide, by decide⟩

/-- The empty label of V30 against the label of V32. -/
theorem witness_OaepWrongLabelFails :
    Inv (loadL [0x4c] startV31) ∧ (loadL [0x4c] startV31).phase = .idle ∧ digestUsable (loadL [0x4c] startV31) ∧
      (loadL [0x4c] startV31).env.hashAnswers = none ∧ (loadL [0x4c] startV31).cfg = startV30.cfg ∧
      startV30.env.sameCollaborators (loadL [0x4c] startV31).env ∧
      operandA (loadL [0x4c] startV31) = result (runCommand .oaepenc startV30) ∧
      (loadL [0x4c] startV31).llen.toNat ≤ (loadL [0x4c] startV31).cfg.cap ∧
      hashValue startV30.env (label (loadL [0x4c] startV31)) ≠ hashValue startV30.env (label startV30) :=
  ⟨inv_of_freshCheck (by decide), rfl, .inr (by decide), rfl, rfl, ⟨rfl, rfl, rfl, rfl⟩, by decide, by decide, by decide⟩

/-- The three clauses: too large for the buffer, too long for the key, and V40, where three more octets suffice. -/
theorem witness_P15EncodeResult :
    startV40.cfg.wf = true ∧ (small { fresh with alen := 17 }).cfg.cap < (small { fresh with alen := 17 }).alen.toNat ∧
      ((key 88 (loadA [7] fresh)).alen.toNat : Int) > emLength (key 88 (loadA [7] fresh)) - 10 ∧
      startV40.alen.toNat ≤ startV40.cfg.cap ∧ emLength startV40 ≤ (startV40.cfg.cap : Int) ∧
      (startV40.alen.toNat : Int) ≤ emLength startV40 - 10 ∧ startV40.env.randAnswers = none ∧
      redraw (rhoNext startV40.env (p15PsLen startV40)) ((rhoNext startV40.env (p15PsLen startV40 + 3)).drop (p15PsLen startV40)) =
        some ([0x11, 0xa1, 0x33, 0x44, 0xb2, 0x66, 0x77, 0x88], 3) := by decide

/-- V40, in one transition. -/
theorem witness_P15EncodedLayout :
    Inv startV40 ∧ startV40.phase = .idle ∧ Reaches .p15enc startV40 (runCommand .p15enc startV40) ∧
      (runCommand .p15enc startV40).phase = .idle ∧ (runCommand .p15enc startV40).err = .ok :=
  ⟨inv_of_freshCheck (by decide), rfl, .of_exec (exec_eq _ _), by decide, by decide⟩

/-- V40 with a source that stops after nine octets, as `exec` leaves it, and after the source delivers again. -/
def stoppedV40 : State := runCommand .p15enc (lastOctets 9 (small startV40))
def resumedV40 : State := seqRun 20 (served none none [] stoppedV40)

/-- A P15ENC that completes in a later step. -/
theorem witness_P15EncodedLayout_later :
    Inv (lastOctets 9 (small startV40)) ∧ stoppedV40.phase = .pFix ∧ Reaches .p15enc (lastOctets 9 (small startV40)) resumedV40 ∧
      resumedV40.phase = .idle ∧ resumedV40.err = .ok ∧ result resumedV40 = emV40 :=
  ⟨inv_of_freshCheck (by decide), by decide, Reaches.seqRun (.served _ _ _ (.of_exec (exec_eq _ _))) 20, by decide, by decide, by decide⟩

/-- Both outcomes, and a length beyond CAP. -/
theorem witness_P15DecodeResult :
    fresh.cfg.wf = true ∧ ends .p15dec (small { fresh with alen := 17 }) (·.err) = .use ∧
      ends .p15dec (loadA emV40 fresh) (·.err) = .ok ∧ ends .p15dec (loadA [2] fresh) (·.err) = .dec := by decide

theorem witness_P15RoundTrip :
    (loadA emV40 fresh).cfg = startV40.cfg ∧ (loadA emV40 fresh).mem.wf = true ∧
      operandA (loadA emV40 fresh) = result (runCommand .p15enc startV40) := ⟨rfl, by decide, by decide⟩

/-- Each length at CAP and one above it. -/
theorem witness_UsageFaultsExactly :
    (∃ e, decode 0x00000009#32 = .error e) ∧
      ([(Instr.xor, { fresh with blen := 17 }), (.mgf1, { fresh with mlen := 17 }), (.oaepenc, { fresh with llen := 17 }),
        (.oaepdec, { fresh with alen := 17 }), (.p15enc, key 144 fresh), (.p15dec, { fresh with alen := 17 })].all fun c =>
          ends c.1 (small c.2) (fun t => t.phase == .idle && t.err == .use)) = true ∧
      ([(Instr.xor, { fresh with blen := 16 }), (.mgf1, { fresh with mlen := 16 }), (.oaepenc, { fresh with llen := 16 }),
        (.p15enc, stream (List.replicate 14 1) (key 136 fresh)), (.p15dec, { fresh with alen := 16 })].all fun c =>
          ends c.1 (small c.2) (fun t => t.phase == .idle && t.err != .use)) = true := ⟨⟨_, rfl⟩, by decide, by decide⟩

/-- Digest sizes 1 and HMAX are latched, 0 and HMAX + 1 are not (V65); a command whose capacity check fails latches nothing (V29c). -/
theorem witness_DigestSizeLatch :
    ([(0, 0), (1, 1), (64, 64), (65, (0 : Word))].all fun c =>
        ends .mgf1 { fresh with env := { fresh.env with hashLen := c.1 } } (fun t => t.hlen == c.2 && t.hv == (c.2 != 0))) = true ∧
      capacityFault .mgf1 { fresh with mlen := 4097 } = true ∧ capacityFault .mgf1 fresh = false ∧ fresh.hv = false := by decide

/-- The state after a command has latched hLen. -/
def latched : State := { fresh with hv := true, hlen := 2 }

theorem witness_DigestSizeStaysLatched :
    latched.hv = true ∧ (∃ t, step (does .reset latched) = .next t ∧ t.hv = false) ∧
      (∃ t, step (does .wait latched) = .next t ∧ t.hv = true) ∧ Inv (fresh.withFetchWord 32 3) ∧
      ∃ t, step (fresh.withFetchWord 32 3) = .next t ∧ t.hv = true :=
  ⟨rfl, ⟨_, rfl, rfl⟩, ⟨_, rfl, rfl⟩, inv_of_freshCheck (by decide), ⟨_, rfl, by decide⟩⟩

/-- A whole command, and a phase of one. -/
theorem witness_CommandsKeepInputs :
    Instr.oaepenc ≠ .clr ∧ Inv startV30 ∧ startV30.phase = .idle ∧ exec .oaepenc startV30 = .next (runCommand .oaepenc startV30) ∧
      Inv (beginCommand .oaepenc startV30) ∧ (beginCommand .oaepenc startV30).phase = .eCheck :=
  ⟨by decide, inv_of_freshCheck (by decide), rfl, exec_eq _ _, beginCommand_inv (inv_of_freshCheck (by decide)) rfl, by decide⟩

/-- The three outcomes: V30, V36, and a silent hash primitive. -/
theorem witness_CompletionHasTwoShapes :
    Inv startV30 ∧ ends .oaepenc startV30 (·.err) = .ok ∧ Inv startV36 ∧ ends .oaepdec startV36 (·.err) = .dec ∧
      Inv (silentHash (small startV30)) ∧ ends .oaepenc (silentHash (small startV30)) (·.phase) = .eDb :=
  ⟨inv_of_freshCheck (by decide), by decide, inv_of_freshCheck (by decide), by decide, inv_of_freshCheck (by decide), by decide⟩

theorem witness_StatusFields :
    fresh.phase = .idle ∧ (does (.write 4 4 7) fresh).bus.inputs = [.write (fresh.cfg.base + 0x004) 4 7] := ⟨rfl, rfl⟩

theorem witness_LastOpWritten :
    ∃ t, step (does (.write 0 4 0x109) fresh) = .next t ∧ t.lastOp = 9 := ⟨_, rfl, by decide⟩

theorem witness_CommandsIgnoreStatus :
    exec .p15enc startV40 = .next (runCommand .p15enc startV40) ∧ (runCommand .p15enc startV40).phase = .idle := ⟨exec_eq _ _, by decide⟩

/-- V27, V42 (a rejected message), V30 and V40. -/
theorem witness_RandomOctetsDrawn :
    Inv startV27 ∧ ends .mgf1 startV27 (·.phase) = .idle ∧ Inv (key 88 (loadA [7] fresh)) ∧
      ends .p15enc (key 88 (loadA [7] fresh)) (fun t => (t.phase, t.err)) = (.idle, .enc) ∧ Inv startV30 ∧
      ends .oaepenc startV30 (fun t => (t.phase, t.err)) = (.idle, .ok) ∧ Inv startV40 ∧
      ends .p15enc startV40 (fun t => (t.phase, t.err)) = (.idle, .ok) :=
  ⟨inv_of_freshCheck (by decide), by decide, inv_of_freshCheck (by decide), by decide, inv_of_freshCheck (by decide), by decide,
    inv_of_freshCheck (by decide), by decide⟩

theorem witness_EncodedLengthIsKeyBytesLessOne :
    Inv startV30 ∧ ends .oaepenc startV30 (fun t => (t.phase, t.err)) = (.idle, .ok) ∧ Inv startV40 ∧
      ends .p15enc startV40 (fun t => (t.phase, t.err)) = (.idle, .ok) :=
  ⟨inv_of_freshCheck (by decide), by decide, inv_of_freshCheck (by decide), by decide⟩

/-- Every phase that makes a request, its collaborator silent, as a state of a run; and the five first requests that get no answer. -/
theorem witness_SilentCollaboratorHangs :
    ([(Instr.mgf1, startV27, 2), (.oaepenc, startV30, 2), (.oaepenc, startV30, 6), (.oaepenc, startV30, 21), (.oaepdec, startV31, 4),
        (.oaepdec, startV31, 13), (.oaepdec, startV31, 26)].map fun c =>
          (silentHash (seqRun c.2.2 (beginCommand c.1 (small c.2.1)))).phase) =
        [.mgf1 .hash, .eDb, .eDbMask .hash, .eSeedMask .hash, .dSeedMask .hash, .dDbMask .hash, .dLhash] ∧
      (seqRun 3 (beginCommand .oaepenc startV30)).phase = .eSeed ∧ hLen (seqRun 3 (beginCommand .oaepenc startV30)) = 2 ∧
      (seqRun 1 (beginCommand .p15enc startV40)).phase = .pDraw ∧ (seqRun 3 (beginCommand .p15enc startV40)).phase = .pFix ∧
      (seqRun 3 (beginCommand .p15enc startV40)).scratch.i = 1 ∧
      (seqRun 3 (beginCommand .p15enc startV40)).scratch.ps.getD 1 0 = 0 ∧
      (lastOctets 0 (seqRun 3 (beginCommand .p15enc startV40))).env.delivers 1 = false := by decide

theorem witness_SilentCollaboratorHangs_first :
    latchAgrees (silentHash (small startV30)) ∧ digestUsable (silentHash (small startV30)) ∧
      ends .mgf1 (silentHash (small startV27)) (·.phase) = .mgf1 .hash ∧
      ends .oaepenc (silentHash (small startV30)) (·.phase) = .eDb ∧
      ends .oaepdec (silentHash (small startV31)) (·.phase) = .dSeedMask .hash ∧
      (lastOctets 1 (small startV30)).env.delivers 2 = false ∧ ends .oaepenc (lastOctets 1 (small startV30)) (·.phase) = .eSeed ∧
      (lastOctets 7 (small startV40)).env.delivers (p15PsLen startV40) = false ∧
      ends .p15enc (lastOctets 7 (small startV40)) (·.phase) = .pDraw :=
  ⟨latchAgrees_of_unlatched rfl, .inr (by decide), by decide⟩

/-- V49, for twelve octets beyond the first draw. -/
theorem witness_ZeroStreamKeepsP15encRunning :
    let s := stream (zeros 20) startV40
    s.cfg.wf = true ∧ s.alen.toNat ≤ s.cfg.cap ∧ emLength s ≤ (s.cfg.cap : Int) ∧ (s.alen.toNat : Int) ≤ emLength s - 10 ∧
      s.env.randAnswers = none ∧ 0 ∈ rhoNext s.env (p15PsLen s) ∧ ∀ k, p15PsLen s ≤ k → k < p15PsLen s + 12 → rhoAt s.env k = 0 := by
  decide

theorem witness_PhasesFollowTheLists : Inv startV40 ∧ (beginCommand .p15enc startV40).phase = .pCheck :=
  ⟨inv_of_freshCheck (by decide), by decide⟩

theorem witness_StepKeepsInv : Inv (fresh.withFetchWord 32 3) ∧ ∃ t, step (fresh.withFetchWord 32 3) = .next t :=
  ⟨inv_of_freshCheck (by decide), ⟨_, rfl⟩⟩

/-- A command silenced in its first Hash request and answered again: the state after the `hashAnswers` step is one it comes to. -/
theorem witness_StepsStayOnTheCommand :
    let t := does (.hashAnswers none) (runCommand .oaepenc (silentHash (small startV30)))
    Reaches .oaepenc (silentHash (small startV30)) t ∧ t.phase ≠ .idle ∧ ∃ t', step t = .next t' ∧ t'.env.hashAnswers = none :=
  ⟨(Reaches.of_exec (exec_eq _ _)).served _ _ [.hashAnswers none], by decide, _, rfl, rfl⟩

end Sys2Proof.Tests
end

section
/-! PROOFS. What one step can lead to, said once, and that no step writes the parameters (00_scope.md R7 to R9). -/

namespace Sys2Proof.Machine

/-! ### The cases of a step -/

/-- The next states a step can answer, one constructor for each way, under the condition it is taken. A refused access has none
(20_memory.md R66). -/
inductive StepTo (s : State) : State → Prop where
  /-- No input. -/
  | noInput (hin : s.bus.inputs = []) : StepTo s (seqStep s)
  /-- A running command holds the bus. -/
  | held {x : Input} {rest : List Input} (hs : s.phase ≠ .idle) (hx : x.isAccess = true) (hin : s.bus.inputs = x :: rest) :
      StepTo s (seqStep s)
  | wait {rest : List Input} (hin : s.bus.inputs = .wait :: rest) : StepTo s (seqStep (dropInput s))
  | reset {rest : List Input} (hin : s.bus.inputs = .reset :: rest) : StepTo s (resetBlock (dropInput s))
  | exchange {n i : Nat} {k : List (Octets × Octets)} {r : Nat} {a : Octets} {rest : List Input}
      (hin : s.bus.inputs = .exchange n i k r a :: rest) : StepTo s (exchangeCollaborators n i k r a (dropInput s))
  | hashAnswers {n : Option Nat} {rest : List Input} (hin : s.bus.inputs = .hashAnswers n :: rest) :
      StepTo s { dropInput s with env := { s.env with hashAnswers := n } }
  | randAnswers {n : Option Nat} {rest : List Input} (hin : s.bus.inputs = .randAnswers n :: rest) :
      StepTo s { dropInput s with env := { s.env with randAnswers := n } }
  | read {addr width : Nat} {rest : List Input} {loc : Target} (hs : s.phase = .idle) (hin : s.bus.inputs = .read addr width :: rest)
      (hloc : target s.cfg addr width = .ok loc) : StepTo s (readTarget loc (dropInput s))
  /-- A write other than to CMD. -/
  | write {addr width : Nat} {v : Word} {rest : List Input} {loc : Target} (hs : s.phase = .idle)
      (hin : s.bus.inputs = .write addr width v :: rest) (hloc : target s.cfg addr width = .ok loc) (hcmd : loc ≠ .reg .cmd) :
      StepTo s (writeTarget loc v (dropInput s))
  /-- A write to CMD, of a legal word or an illegal one. -/
  | command {addr width : Nat} {v : Word} {rest : List Input} (hs : s.phase = .idle)
      (hin : s.bus.inputs = .write addr width v :: rest) (hloc : target s.cfg addr width = .ok (.reg .cmd)) :
      StepTo s (seqRun (phaseBudget s) (beginWord v (dropInput s)))
  | cut {w : Word} {n : Nat} {rest : List Input} (hs : s.phase = .idle) (hin : s.bus.inputs = .cut w n :: rest) :
      StepTo s (resetBlock (seqRun n (beginWord w (dropInput s))))

theorem beginWord_of_ok {w : Word} {i : Instr} (h : decode w = .ok i) (s : State) : beginWord w s = beginCommand i s := by
  simp [beginWord, h]

theorem beginWord_of_error {w : Word} {e : DecodeError} (h : decode w = .error e) (s : State) : beginWord w s = beginIllegal w s := by
  simp [beginWord, h]

theorem StepTo.of_read {s t : State} {addr width : Nat} {rest : List Input} (hs : s.phase = .idle)
    (hin : s.bus.inputs = .read addr width :: rest) (h : step s = .next t) : StepTo s t := by
  rw [step_read hs hin] at h
  cases hloc : target s.cfg addr width with
  | error c => rw [hloc] at h; cases h
  | ok loc => rw [hloc] at h; cases h; exact .read hs hin hloc

/-- A CMD write runs from the start sequence, whether its word is legal or not (60_exceptions.md R185). -/
theorem step_cmdWrite {s : State} {addr width : Nat} {v : Word} {rest : List Input} (hs : s.phase = .idle)
    (hin : s.bus.inputs = .write addr width v :: rest) (hloc : target s.cfg addr width = .ok (.reg .cmd)) :
    step s = .next (seqRun (phaseBudget s) (beginWord v (dropInput s))) := by
  rw [step_write hs hin, hloc]
  cases hw : decode v with
  | ok i => rw [beginWord_of_ok hw]; exact exec_eq i _
  | error e => rw [beginWord_of_error hw]; rfl

theorem step_plainWrite {s : State} {addr width : Nat} {v : Word} {rest : List Input} {loc : Target} (hs : s.phase = .idle)
    (hin : s.bus.inputs = .write addr width v :: rest) (hloc : target s.cfg addr width = .ok loc) (hcmd : loc ≠ .reg .cmd) :
    step s = .next (writeTarget loc v (dropInput s)) := by
  rw [step_write hs hin, hloc]
  split
  next hl => exact absurd (Except.ok.inj hl) hcmd
  next hl => cases hl; rfl
  next hl => cases hl

theorem StepTo.of_write {s t : State} {addr width : Nat} {v : Word} {rest : List Input} (hs : s.phase = .idle)
    (hin : s.bus.inputs = .write addr width v :: rest) (h : step s = .next t) : StepTo s t := by
  cases hloc : target s.cfg addr width with
  | error c => rw [step_write hs hin, hloc] at h; cases h
  | ok loc =>
    by_cases hcmd : loc = .reg .cmd
    · subst hcmd
      rw [step_cmdWrite hs hin hloc] at h; cases h; exact .command hs hin hloc
    · rw [step_plainWrite hs hin hloc hcmd] at h; cases h; exact .write hs hin hloc hcmd

/-- A step that answers a next state went one of these ways. -/
theorem step_cases {s t : State} (h : step s = .next t) : StepTo s t := by
  cases hin : s.bus.inputs with
  | nil => rw [step_none hin] at h; cases h; exact .noInput hin
  | cons x rest =>
    by_cases hheld : s.phase ≠ .idle ∧ x.isAccess = true
    · rw [step_held hheld.1 hheld.2 hin] at h; cases h; exact .held hheld.1 hheld.2 hin
    · cases x with
      | wait => rw [step_wait hin] at h; cases h; exact .wait hin
      | reset => rw [step_reset hin] at h; cases h; exact .reset hin
      | exchange n i k r a => rw [step_exchange hin] at h; cases h; exact .exchange hin
      | hashAnswers n => rw [step_hashAnswers hin] at h; cases h; exact .hashAnswers hin
      | randAnswers n => rw [step_randAnswers hin] at h; cases h; exact .randAnswers hin
      | read addr width => exact .of_read (not_not.mp fun hs => hheld ⟨hs, rfl⟩) hin h
      | write addr width v => exact .of_write (not_not.mp fun hs => hheld ⟨hs, rfl⟩) hin h
      | cut w n =>
        have hs : s.phase = .idle := not_not.mp fun hs => hheld ⟨hs, rfl⟩
        rw [step_cut hs hin] at h; cases h; exact .cut hs hin

/-! ### The parameters -/

@[simp] theorem seqStep_cfg (s : State) : (seqStep s).cfg = s.cfg := (seqStep_keptByClr s).cfg

@[simp] theorem seqRun_cfg (n : Nat) (s : State) : (seqRun n s).cfg = s.cfg := (seqRun_keptByClr n s).cfg

@[simp] theorem beginCommand_cfg (i : Instr) (s : State) : (beginCommand i s).cfg = s.cfg := by
  obtain ⟨-, h⟩ | ⟨-, -, -, -, h⟩ | ⟨-, -, -, h⟩ | ⟨-, -, h⟩ := beginCommand_cases i s <;> rw [h]
  · rfl
  · rfl
  · exact withLatch_cfg s
  · rfl

@[simp] theorem beginWord_cfg (w : Word) (s : State) : (beginWord w s).cfg = s.cfg := by
  cases hw : decode w with
  | ok i => rw [beginWord_of_ok hw, beginCommand_cfg]
  | error e => rw [beginWord_of_error hw]; rfl

@[simp] theorem readTarget_cfg (loc : Target) (s : State) : (readTarget loc s).cfg = s.cfg := by cases loc <;> rfl

@[simp] theorem writeReg_cfg (r : Reg) (v : Word) (s : State) : (writeReg r v s).cfg = s.cfg := by cases r <;> rfl

@[simp] theorem writeTarget_cfg (loc : Target) (v : Word) (s : State) : (writeTarget loc v s).cfg = s.cfg := by
  cases loc with
  | reg r => exact writeReg_cfg r v s
  | buf bf i => cases bf <;> rfl

/-- Settles O16: the parameters survive every way a step can go. -/
theorem parametersNeverChange : Obligations.ParametersNeverChange := by
  intro s t h
  cases step_cases h with
  | noInput | held => exact seqStep_cfg s
  | wait => exact seqStep_cfg (dropInput s)
  | reset | exchange | hashAnswers | randAnswers => rfl
  | read => exact readTarget_cfg _ (dropInput s)
  | write => exact writeTarget_cfg _ _ (dropInput s)
  | command | cut => exact (seqRun_cfg _ _).trans (beginWord_cfg _ (dropInput s))

end Sys2Proof.Machine
end

section
/-! PROOFS. What holds of every step (10_state.md R20 to R43): the invariant, reset, STATUS, the latch of the digest size, the frame of a command,
and that a command stays on its way. -/

namespace Sys2Proof.Machine

/-! ### The invariant -/

/-- Settles O49: nothing is stored and no command has run, with the default parameters. -/
theorem resetInv : Obligations.ResetInv :=
  Inv.of_fresh rfl (by decide) rfl (fun _ hc => absurd hc List.not_mem_nil) rfl rfl rfl rfl rfl rfl

/-- Settles O48: each way a step can go keeps the invariant. -/
theorem stepKeepsInv : Obligations.StepKeepsInv := by
  intro s t hI h
  have hD := hI.afterDrop
  cases step_cases h with
  | noInput | held => exact seqStep_inv hI
  | wait => exact seqStep_inv hD
  | reset => exact hD.afterReset
  | exchange => exact hD.afterExchange _ _ _ _ _
  | hashAnswers | randAnswers => exact hD.withEnv rfl
  | read => exact hD.afterRead _
  | write hs _ hloc => exact hD.afterWrite hs hloc _
  | command hs => exact seqRun_inv _ (beginWord_inv hD hs)
  | cut hs => exact (seqRun_inv _ (beginWord_inv hD hs)).afterReset

/-! ### Reset -/

theorem dropInput_of_cons {s : State} {x : Input} {rest : List Input} (hin : s.bus.inputs = x :: rest) :
    dropInput s = { s with bus := { s.bus with inputs := rest } } := by
  rw [dropInput, hin]; rfl

theorem statusWord_reset : statusWord State.reset = 0 := by decide

/-- Reset gives every piece of the block its reset value (10_state.md R43). -/
theorem atReset_resetBlock (s : State) : AtReset (resetBlock s) :=
  ⟨rfl, rfl, rfl, rfl, rfl, rfl, rfl, statusWord_reset, rfl, rfl, fun _ => rfl, rfl, rfl⟩

theorem withLatch_collaborators (s : State) : s.env.sameCollaborators (withLatch s).env := by
  unfold withLatch; split <;> exact ⟨rfl, rfl, rfl, rfl⟩

theorem beginCommand_collaborators (i : Instr) (s : State) : s.env.sameCollaborators (beginCommand i s).env := by
  obtain ⟨-, h⟩ | ⟨-, -, -, -, h⟩ | ⟨-, -, -, h⟩ | ⟨-, -, h⟩ := beginCommand_cases i s <;> rw [h]
  · exact Env.sameCollaborators_refl _
  · exact ⟨rfl, rfl, rfl, rfl⟩
  · exact withLatch_collaborators s
  · exact Env.sameCollaborators_refl _

theorem beginWord_collaborators (w : Word) (s : State) : s.env.sameCollaborators (beginWord w s).env := by
  cases hw : decode w with
  | ok i => rw [beginWord_of_ok hw]; exact beginCommand_collaborators i s
  | error e => rw [beginWord_of_error hw]; exact Env.sameCollaborators_refl _

/-- Settles O13: reset keeps what the start sequence and the phases have kept. -/
theorem resetInput : Obligations.ResetInput := by
  refine ⟨fun s rest hin => ⟨_, step_reset hin, atReset_resetBlock _, rfl, rfl, ?_⟩,
    fun s w n rest hs hin => ⟨_, step_cut hs hin, atReset_resetBlock _, ?_, ?_, ?_⟩⟩
  · rw [dropInput_of_cons hin]; rfl
  · exact Env.sameCollaborators_trans (beginWord_collaborators w (dropInput s)) (seqRun_keptByClr n _).collaborators
  · exact (seqRun_cfg n _).trans (beginWord_cfg w (dropInput s))
  · rw [← dropInput_of_cons hin]; rfl

/-- Settles O14: State.reset is what reset leaves of itself. -/
theorem resetValues : Obligations.ResetValues :=
  ⟨atReset_resetBlock State.reset, rfl, rfl, rfl⟩

/-! ### STATUS and LASTOP -/

/-- The five fields of STATUS, from bit 0 up (10_state.md R28). -/
theorem statusWord_fields (s : State) :
    (statusWord s).extractLsb' 0 2 = s.err.code ∧ (statusWord s).extractLsb' 2 1 = BitVec.ofBool s.hv ∧
      (statusWord s).extractLsb' 3 5 = 0#5 ∧ (statusWord s).extractLsb' 8 8 = s.lastOp ∧ (statusWord s).extractLsb' 16 16 = 0#16 := by
  unfold statusWord
  refine ⟨BitVec.extractLsb'_append_eq_right, ?_, ?_, ?_, ?_⟩
  · rw [BitVec.extractLsb'_append_eq_of_le (by decide)]
    exact BitVec.extractLsb'_append_eq_right
  · iterate 2 rw [BitVec.extractLsb'_append_eq_of_le (by decide)]
    exact BitVec.extractLsb'_append_eq_right
  · iterate 3 rw [BitVec.extractLsb'_append_eq_of_le (by decide)]
    exact BitVec.extractLsb'_append_eq_right
  · iterate 3 rw [BitVec.extractLsb'_append_eq_of_le (by decide)]
    exact BitVec.extractLsb'_append_eq_left

/-- Settles O35: STATUS is composed of its fields, and the write goes to a read-only register. -/
theorem statusFields : Obligations.StatusFields := by
  refine ⟨statusWord_reset, fun s => ?_⟩
  obtain ⟨herr, hhv, hlow, hop, hhigh⟩ := statusWord_fields s
  refine ⟨herr, hhv, hlow, hop, hhigh, rfl, rfl, rfl, rfl, fun v rest hs hin => ?_⟩
  have hloc : target s.cfg (s.cfg.base + 0x004) 4 = .ok (.reg .status) := target_reg s.cfg .status
  rw [step_plainWrite hs hin hloc (by simp), dropInput_of_cons hin]; rfl

theorem opcode_of_decodeOp {op : BitVec 8} {i : Instr} (h : decodeOp op = some i) : i.opcode = op := by
  unfold decodeOp at h
  split at h
  case h_9 => cases h
  all_goals next hop => cases h; exact BitVec.eq_of_toNat_eq hop.symm

theorem opcode_of_decode {w : Word} {i : Instr} (h : decode w = .ok i) : i.opcode = CommandWord.op w := by
  unfold decode at h
  split at h
  · cases h
  · split at h
    · next hop => cases h; exact opcode_of_decodeOp hop
    · cases h

theorem beginCommand_lastOp (i : Instr) (s : State) : (beginCommand i s).lastOp = i.opcode := by
  rw [← op_encode]
  obtain ⟨-, h⟩ | ⟨-, -, -, -, h⟩ | ⟨-, -, -, h⟩ | ⟨-, -, h⟩ := beginCommand_cases i s <;> rw [h] <;> rfl

theorem beginWord_lastOp (w : Word) (s : State) : (beginWord w s).lastOp = CommandWord.op w := by
  cases hw : decode w with
  | ok i => rw [beginWord_of_ok hw, beginCommand_lastOp, opcode_of_decode hw]
  | error e => rw [beginWord_of_error hw]; rfl

/-- Settles O41: the start sequence writes LASTOP, and no phase does. -/
theorem lastOpWritten : Obligations.LastOpWritten := by
  intro s t w rest hs hin h
  rw [step_cmdWrite hs hin (target_reg s.cfg .cmd)] at h
  cases h
  exact (seqRun_keptByClr _ _).lastOp.trans (beginWord_lastOp w _)

/-! ### What a command does not read -/

/-- The state with other values of ERR, LASTOP and OLEN. -/
def withStatus (e : ErrKind) (op : BitVec 8) (n : Word) (s : State) : State := { s with err := e, lastOp := op, olen := n }

theorem startSequence_withStatus (w : Word) (e : ErrKind) (op : BitVec 8) (n : Word) (s : State) :
    startSequence w (withStatus e op n s) = withErr e (startSequence w s) := rfl

theorem capacityFault_withErr (i : Instr) (e : ErrKind) (s : State) : capacityFault i (withErr e s) = capacityFault i s := by
  cases i <;> rfl

theorem latch_withErr (i : Instr) (e : ErrKind) (s : State) : latch i (withErr e s) = withErr e (latch i s) := by
  simp only [latch, apply_ite (withErr e)]; rfl

theorem beginCommand_withStatus (i : Instr) (e : ErrKind) (op : BitVec 8) (n : Word) (s : State) :
    beginCommand i (withStatus e op n s) = withErr e (beginCommand i s) := by
  simp only [beginCommand, startSequence_withStatus, capacityFault_withErr, latch_withErr, apply_ite (withErr e)]; rfl

/-- `SameButErr` is kept by a run: `seqStep_withErr` until the command completes, equality from then on. -/
theorem seqRun_sameButErr (e : ErrKind) (k : Nat) {s s' : State} (h : SameButErr e s s') : SameButErr e (seqRun k s) (seqRun k s') := by
  induction k generalizing s s' with
  | zero => exact h
  | succ k ih =>
    rw [seqRun_succ', seqRun_succ']
    obtain ⟨hs, rfl⟩ | ⟨hs, rfl⟩ := h
    · exact ih (seqStep_withErr e hs)
    · rw [seqStep_of_idle hs]; exact ih (.inr ⟨hs, rfl⟩)

theorem SameButErr.agree {e : ErrKind} {t t' : State} (h : SameButErr e t t') :
    { t' with err := t.err } = t ∧ (t.phase = .idle → t' = t) := by
  obtain ⟨ht, rfl⟩ | ⟨-, rfl⟩ := h
  · exact ⟨rfl, fun h => absurd h ht⟩
  · exact ⟨rfl, fun _ => rfl⟩

/-- Settles O42: the start sequence writes OLEN and LASTOP, and no phase reads ERR. -/
theorem commandsIgnoreStatus : Obligations.CommandsIgnoreStatus := by
  intro i s e op n s'
  have hrun (k : Nat) : SameButErr e (seqRun k (beginCommand i s)) (seqRun k (beginCommand i s')) :=
    seqRun_sameButErr e k (.inl ⟨beginCommand_ne_idle i s, beginCommand_withStatus i e op n s⟩)
  refine ⟨fun t h => ?_, fun k => (hrun k).agree⟩
  rw [exec_eq] at h
  cases h
  exact ⟨_, exec_eq i s', (hrun (phaseBudget s)).agree⟩

/-! ### A command on its way -/

/-- Settles O50: a step of a running command is a phase or takes an input that a command is served. -/
theorem stepsStayOnTheCommand : Obligations.StepsStayOnTheCommand := by
  refine ⟨fun i s t => Reaches.of_exec, fun i s t t' ht hrun h => ?_⟩
  have served (h r) : Reaches i s (served h r t.bus.inputs.tail t) := ht.served h r _
  cases step_cases h with
  | noInput | held => exact .inl ht.phase
  | wait => exact .inl (served _ _).phase
  | hashAnswers | randAnswers => exact .inl (served _ _)
  | reset hin => exact .inr ⟨_, .inl hin⟩
  | exchange hin => exact .inr ⟨_, .inr ⟨_, _, _, _, _, hin⟩⟩
  | read hs | write hs | command hs | cut hs => exact absurd hs hrun

/-! ### The digest size -/

/-- HLEN and HV are as they were. -/
def SameLatch (s t : State) : Prop := t.hv = s.hv ∧ t.hlen = s.hlen

theorem SameLatch.refl (s : State) : SameLatch s s := ⟨rfl, rfl⟩

theorem SameLatch.trans {s t u : State} (h : SameLatch s t) (h' : SameLatch t u) : SameLatch s u :=
  ⟨h'.1.trans h.1, h'.2.trans h.2⟩

theorem KeptByClr.sameLatch {s t : State} (h : KeptByClr s t) : SameLatch s t := ⟨h.hv, h.hlen⟩

/-- The phases and the inputs served keep what the start sequence left in HLEN and HV. -/
theorem Reaches.sameLatch {i : Instr} {s t : State} (h : Reaches i s t) : SameLatch (beginCommand i s) t :=
  h.induct (P := SameLatch (beginCommand i s)) (.refl _) (fun t ht => ht.trans (seqStep_keptByClr t).sameLatch) fun _ _ _ _ ht => ht

theorem usesHash_iff (i : Instr) : usesHash i = true ↔ i ∈ [.mgf1, .oaepenc, .oaepdec] := by cases i <;> decide

/-- A command that does not latch starts with HLEN and HV as they were (10_state.md R33). -/
theorem beginCommand_sameLatch {i : Instr} {s : State} (h : ¬ (usesHash i = true ∧ capacityFault i s = false ∧ s.hv = false)) :
    SameLatch s (beginCommand i s) := by
  obtain ⟨-, hb⟩ | ⟨-, -, -, -, hb⟩ | ⟨hc, hu, -, hb⟩ | ⟨-, -, hb⟩ := beginCommand_cases i s <;> rw [hb]
  · exact .refl s
  · exact .refl s
  · have hv : s.hv = true := by
      by_contra hv
      exact h ⟨hu, hc, Bool.eq_false_iff.2 hv⟩
    rw [withLatch, if_pos hv]; exact .refl s
  · exact .refl s

/-- Settles O37: what the start sequence does to HLEN and HV is all that a command does to them. -/
theorem digestSizeLatch : Obligations.DigestSizeLatch := by
  intro i s t h latches
  have ht : Reaches i s t := h.elim Reaches.of_exec id
  obtain ⟨hhv, hhlen⟩ := ht.sameLatch
  rw [hhv, hhlen]
  refine ⟨?_, ?_, ?_⟩
  · rintro ⟨hu, hc, hv⟩ h1 h2
    rw [beginCommand_latched hc ((usesHash_iff i).2 hu) (.inr ⟨h1, h2⟩), withLatch, if_neg (by simp [hv])]
    exact ⟨rfl, rfl⟩
  · rintro ⟨hu, hc, hv⟩ hd
    have hu := (usesHash_iff i).2 hu
    rw [beginCommand_digestFault hc hu hv hd, exec_eq, runCommand_digestFault hc hu hv hd]
    exact ⟨rfl, rfl, rfl⟩
  · intro hn
    exact beginCommand_sameLatch fun ⟨hu, hcv⟩ => hn ⟨(usesHash_iff i).1 hu, hcv⟩

theorem beginWord_sameLatch {w : Word} {s : State} (hv : s.hv = true) : SameLatch s (beginWord w s) := by
  cases hw : decode w with
  | ok i => rw [beginWord_of_ok hw]; exact beginCommand_sameLatch fun ⟨_, _, hv'⟩ => by simp [hv] at hv'
  | error e => rw [beginWord_of_error hw]; exact .refl s

theorem readTarget_sameLatch (loc : Target) (s : State) : SameLatch s (readTarget loc s) := by cases loc <;> exact .refl s

theorem writeReg_sameLatch (r : Reg) (v : Word) (s : State) : SameLatch s (writeReg r v s) := by cases r <;> exact .refl s

theorem writeTarget_sameLatch (loc : Target) (v : Word) (s : State) : SameLatch s (writeTarget loc v s) := by
  cases loc with
  | reg r => exact writeReg_sameLatch r v s
  | buf bf i => cases bf <;> exact .refl s

/-- A step that starts latched keeps HLEN and HV, or resets the block. -/
theorem StepTo.sameLatch {s t : State} (h : StepTo s t) (hv : s.hv = true) : SameLatch s t ∨
    (t.hv = false ∧ t.hlen = 0 ∧ ∃ rest, s.bus.inputs = .reset :: rest ∨ (∃ w n, s.bus.inputs = .cut w n :: rest) ∨
      ∃ n i k r a, s.bus.inputs = .exchange n i k r a :: rest) := by
  cases h with
  | noInput | held => exact .inl (seqStep_keptByClr s).sameLatch
  | wait => exact .inl (seqStep_keptByClr (dropInput s)).sameLatch
  | hashAnswers | randAnswers => exact .inl (.refl s)
  | read => exact .inl (readTarget_sameLatch _ (dropInput s))
  | write => exact .inl (writeTarget_sameLatch _ _ (dropInput s))
  | command => exact .inl ((beginWord_sameLatch (s := dropInput s) hv).trans (seqRun_keptByClr _ _).sameLatch)
  | reset hin => exact .inr ⟨rfl, rfl, _, .inl hin⟩
  | cut _ hin => exact .inr ⟨rfl, rfl, _, .inr (.inl ⟨_, _, hin⟩)⟩
  | exchange hin => exact .inr ⟨rfl, rfl, _, .inr (.inr ⟨_, _, _, _, _, hin⟩)⟩

/-- Settles O38: the values once latched stay by the cases of a step, and their range is in the invariant. -/
theorem digestSizeStaysLatched : Obligations.DigestSizeStaysLatched := by
  refine ⟨fun s t h hv => ?_, fun s t hI h => ?_⟩
  · exact ((step_cases h).sameLatch hv).imp_left fun ⟨hhv, hhlen⟩ => ⟨hhv.trans hv, hhlen⟩
  · have hT := stepKeepsInv s t hI h
    exact ⟨hT.unlatched, fun hv => (hT.latched hv).2⟩

/-! ### The frame of a command -/

/-- What a command other than CLR leaves alone from its CMD write on (10_state.md R26). -/
structure InputsKept (s t : State) : Prop where
  keybits : t.keybits = s.keybits
  xlo : t.xlo = s.xlo
  xhi : t.xhi = s.xhi
  alen : t.alen = s.alen
  blen : t.blen = s.blen
  llen : t.llen = s.llen
  mlen : t.mlen = s.mlen
  cfg : t.cfg = s.cfg
  collaborators : s.env.sameCollaborators t.env
  inputs : t.bus.inputs = s.bus.inputs
  outsideO : ∀ a, ¬ (0x4000 ≤ a ∧ a < 0x4000 + s.cfg.cap) → t.mem.read a = s.mem.read a

theorem InputsKept.trans {s t u : State} (h : InputsKept s t) (h' : InputsKept t u) : InputsKept s u :=
  ⟨h'.keybits.trans h.keybits, h'.xlo.trans h.xlo, h'.xhi.trans h.xhi, h'.alen.trans h.alen, h'.blen.trans h.blen,
    h'.llen.trans h.llen, h'.mlen.trans h.mlen, h'.cfg.trans h.cfg, Env.sameCollaborators_trans h.collaborators h'.collaborators,
    h'.inputs.trans h.inputs, fun a ha => (h'.outsideO a (by rwa [h.cfg])).trans (h.outsideO a ha)⟩

theorem InputsKept.withLatch (s : State) : InputsKept s (withLatch s) := by
  constructor
  case collaborators => exact withLatch_collaborators s
  all_goals simp

theorem InputsKept.running (i : Instr) (ph : Phase) (sc : Scratch) {e : Env} {s : State} (he : s.env.sameCollaborators e) :
    InputsKept s (running i ph sc e s) :=
  ⟨rfl, rfl, rfl, rfl, rfl, rfl, rfl, rfl, he, rfl, fun _ ha => (Memory.read_clear _ _ _ _).trans (if_neg ha)⟩

theorem beginCommand_inputsKept (i : Instr) (s : State) : InputsKept s (beginCommand i s) := by
  obtain ⟨-, h⟩ | ⟨-, -, -, -, h⟩ | ⟨-, -, -, h⟩ | ⟨-, -, h⟩ := beginCommand_cases i s <;> rw [h]
  · exact .running _ _ _ (Env.sameCollaborators_refl _)
  · exact .running _ _ _ ⟨rfl, rfl, rfl, rfl⟩
  · exact (InputsKept.withLatch s).trans (.running _ _ _ (Env.sameCollaborators_refl _))
  · exact .running _ _ _ (Env.sameCollaborators_refl _)

theorem read_above_buffers {s : State} (hI : Inv s) {a : Nat} (ha : 0x4000 + s.cfg.cap ≤ a) : s.mem.read a = 0 := by
  refine Memory.read_of_forall_ne fun c hc => ?_
  obtain ⟨bf, -, hlt⟩ := hI.mapped c hc
  have := window_le bf
  omega

/-- `Kept` speaks of the bytes below O; under the invariant nothing is stored above it. -/
theorem Kept.inputsKept {s t : State} (h : Kept s t) (hs : Inv s) (ht : Inv t) : InputsKept s t := by
  refine ⟨h.keybits, h.xlo, h.xhi, h.alen, h.blen, h.llen, h.mlen, h.cfg, h.collaborators, h.inputs, fun a ha => ?_⟩
  by_cases hlo : a < 0x4000
  · exact h.below hs.memWf a hlo
  · rw [read_above_buffers hs (by omega), read_above_buffers ht (by rw [h.cfg]; omega)]

theorem beginCommand_ne_kClr {i : Instr} (hi : i ≠ .clr) (s : State) : (beginCommand i s).phase ≠ .kClr := by
  have hfirst : firstPhase i ≠ .kClr := by cases i <;> simp_all [firstPhase]
  obtain ⟨-, h⟩ | ⟨-, -, -, -, h⟩ | ⟨-, -, -, h⟩ | ⟨-, -, h⟩ := beginCommand_cases i s <;> rw [h]
  · simp
  · simp
  · exact hfirst
  · exact hfirst

/-- Settles O39: the start sequence and every phase but K_CLR keep the inputs. -/
theorem commandsKeepInputs : Obligations.CommandsKeepInputs := by
  unfold Obligations.CommandsKeepInputs
  intro keeps
  have of_inputsKept {s t : State} (h : InputsKept s t) : keeps s t :=
    ⟨h.keybits, h.xlo, h.xhi, h.alen, h.blen, h.llen, h.mlen, h.cfg, h.collaborators, h.inputs, h.outsideO⟩
  refine ⟨fun i s t hi hI hs h => of_inputsKept ?_, fun s hI hs => ⟨of_inputsKept ?_, seqStep_ne_kClr hs⟩,
    fun i s hi => beginCommand_ne_kClr hi s⟩
  · rw [exec_eq] at h
    cases h
    have hrun : Kept (beginCommand i s) (runCommand i s) := seqRun_kept (beginCommand_ne_kClr hi s)
    exact (beginCommand_inputsKept i s).trans (hrun.inputsKept (beginCommand_inv hI hs) (runCommand_inv hI hs))
  · exact (seqStep_kept hs).inputsKept hI (seqStep_inv hI)

end Sys2Proof.Machine
end

section
/-! PROOFS. The bus port (20_memory.md R60 to R73): which accesses are refused, what an accepted one does, and how a running command holds the bus. -/

namespace Sys2Proof.Machine

/-! ### What a step does with an access -/

theorem step_read_ok {s : State} {addr width : Nat} {rest : List Input} {loc : Target} (hs : s.phase = .idle)
    (hin : s.bus.inputs = .read addr width :: rest) (hloc : target s.cfg addr width = .ok loc) :
    step s = .next (readTarget loc (dropInput s)) := by
  rw [step_read hs hin, hloc]

theorem step_read_error {s : State} {addr width : Nat} {rest : List Input} {c : BusErrorCause} (hs : s.phase = .idle)
    (hin : s.bus.inputs = .read addr width :: rest) (hloc : target s.cfg addr width = .error c) :
    step s = .refused (.busError c addr width) := by
  rw [step_read hs hin, hloc]

theorem step_write_error {s : State} {addr width : Nat} {v : Word} {rest : List Input} {c : BusErrorCause} (hs : s.phase = .idle)
    (hin : s.bus.inputs = .write addr width v :: rest) (hloc : target s.cfg addr width = .error c) :
    step s = .refused (.busError c addr width) := by
  rw [step_write hs hin, hloc]

/-- An accepted write has a next state, whatever it reaches. -/
theorem step_write_ok {s : State} {addr width : Nat} {v : Word} {rest : List Input} {loc : Target} (hs : s.phase = .idle)
    (hin : s.bus.inputs = .write addr width v :: rest) (hloc : target s.cfg addr width = .ok loc) : ∃ t, step s = .next t := by
  by_cases hcmd : loc = .reg .cmd
  · exact ⟨_, step_cmdWrite hs hin (hcmd ▸ hloc)⟩
  · exact ⟨_, step_plainWrite hs hin hloc hcmd⟩

/-- A CMD write of a legal word is `exec` of the command it decodes to (30_encoding.md R91). -/
theorem step_cmdWrite_legal {s : State} {addr width : Nat} {v : Word} {rest : List Input} {i : Instr} (hs : s.phase = .idle)
    (hin : s.bus.inputs = .write addr width v :: rest) (hloc : target s.cfg addr width = .ok (.reg .cmd)) (hv : decode v = .ok i) :
    step s = exec i { s with bus := { s.bus with inputs := rest } } := by
  rw [step_cmdWrite hs hin hloc, beginWord_of_ok hv, exec_eq, dropInput_of_cons hin]; rfl

/-- A CMD write of an illegal word completes with UsageFault (30_encoding.md R94). -/
theorem step_cmdWrite_illegal {s : State} {addr width : Nat} {v : Word} {rest : List Input} {e : DecodeError} (hs : s.phase = .idle)
    (hin : s.bus.inputs = .write addr width v :: rest) (hloc : target s.cfg addr width = .ok (.reg .cmd)) (hv : decode v = .error e) :
    step s = .next (failState (CommandWord.op v) .use s.env { s with bus := { s.bus with inputs := rest } }) := by
  rw [step_cmdWrite hs hin hloc, beginWord_of_error hv, dropInput_of_cons hin]
  exact congrArg _ (runIllegal_eq v _)

theorem decodeTableWord_eq_some {nbits w : Nat} {i : Instr} (h : decodeTableWord nbits w = some i) :
    decode (tableWord nbits w) = .ok i := by
  unfold decodeTableWord at h
  split at h
  · cases hd : decode (tableWord nbits w) with
    | ok j => rw [hd] at h; exact congrArg _ (Option.some.inj h)
    | error e => rw [hd] at h; cases h
  · cases h

/-- Settles O5: `withFetchWord` puts the CMD write of the first part at the head of the list. -/
theorem stepRunsWrittenCommand : Obligations.StepRunsWrittenCommand := by
  refine ⟨fun s i w rest hs hw hin => step_cmdWrite_legal hs hin (target_reg s.cfg .cmd) hw, fun s i nbits w hw => ?_⟩
  exact step_cmdWrite_legal (s := s.withFetchWord nbits w) rfl rfl (target_reg s.cfg .cmd) (decodeTableWord_eq_some hw)

/-- Settles O6: every entry but an access of an idle block has a next state, and an access has one unless its address is refused. -/
theorem onlyRefusedAccessesStop : Obligations.OnlyRefusedAccessesStop := by
  intro s
  cases hin : s.bus.inputs with
  | nil => exact .inl ⟨_, step_none hin⟩
  | cons x rest =>
    by_cases hheld : s.phase ≠ .idle ∧ x.isAccess = true
    · exact .inl ⟨_, step_held hheld.1 hheld.2 hin⟩
    · have idle (hx : x.isAccess = true) : s.phase = .idle := not_not.mp fun hs => hheld ⟨hs, hx⟩
      cases x with
      | wait => exact .inl ⟨_, step_wait hin⟩
      | reset => exact .inl ⟨_, step_reset hin⟩
      | exchange n i k r a => exact .inl ⟨_, step_exchange hin⟩
      | hashAnswers n => exact .inl ⟨_, step_hashAnswers hin⟩
      | randAnswers n => exact .inl ⟨_, step_randAnswers hin⟩
      | cut w n => exact .inl ⟨_, step_cut (idle rfl) hin⟩
      | read addr width =>
        cases hloc : target s.cfg addr width with
        | ok loc => exact .inl ⟨_, step_read_ok (idle rfl) hin hloc⟩
        | error c => exact .inr ⟨idle rfl, addr, width, c, step_read_error (idle rfl) hin hloc, rest, .inl rfl⟩
      | write addr width v =>
        cases hloc : target s.cfg addr width with
        | ok loc => exact .inl (step_write_ok (idle rfl) hin hloc)
        | error c => exact .inr ⟨idle rfl, addr, width, c, step_write_error (idle rfl) hin hloc, rest, .inr ⟨v, rfl⟩⟩

/-! ### Which accesses are refused -/

/-- An access of an idle block is refused where its address reaches nothing (20_memory.md R66). -/
theorem step_refused_iff {s : State} {addr width : Nat} {v : Word} {rest : List Input} (hs : s.phase = .idle)
    (hin : s.bus.inputs = .read addr width :: rest ∨ s.bus.inputs = .write addr width v :: rest) :
    (∃ c, step s = .refused (.busError c addr width)) ↔ ¬ ∃ loc, target s.cfg addr width = .ok loc := by
  cases hloc : target s.cfg addr width with
  | error c =>
    have : step s = .refused (.busError c addr width) := hin.elim (step_read_error hs · hloc) (step_write_error hs · hloc)
    simp [this]
  | ok loc =>
    obtain ⟨t, ht⟩ : ∃ t, step s = .next t := hin.elim (fun h => ⟨_, step_read_ok hs h hloc⟩) (step_write_ok hs · hloc)
    simp [ht]

theorem offset_of_regAt {off : Nat} {r : Reg} (h : regAt off = some r) : r.offset = off := by
  unfold regAt at h
  split at h <;> cases h <;> rfl

/-- The eleven registers fill the words below 0x02C (20_memory.md R61). -/
theorem exists_offset_iff (off : Nat) : (∃ r : Reg, r.offset = off) ↔ off % 4 = 0 ∧ off < 0x02C := by
  constructor
  · rintro ⟨r, rfl⟩; cases r <;> decide
  · rintro ⟨h4, hlt⟩
    obtain ⟨q, rfl⟩ := Nat.dvd_of_mod_eq_zero h4
    have hq : q < 11 := by omega
    interval_cases q
    exacts [⟨.cmd, rfl⟩, ⟨.status, rfl⟩, ⟨.hlen, rfl⟩, ⟨.olen, rfl⟩, ⟨.keybits, rfl⟩, ⟨.xlo, rfl⟩, ⟨.xhi, rfl⟩, ⟨.alen, rfl⟩,
      ⟨.blen, rfl⟩, ⟨.llen, rfl⟩, ⟨.mlen, rfl⟩]

/-- Below 0x1000 an access reaches a register, or it is refused. -/
theorem locate_low_iff {p : Params} {off width : Nat} (hoff : off < 0x1000) :
    (∃ loc, locate p off width = .ok loc) ↔ width = 4 ∧ off % 4 = 0 ∧ off < 0x02C := by
  constructor
  · rintro ⟨loc, h⟩
    rw [locate, if_pos hoff] at h
    split at h
    · cases h
    · next hw =>
      refine ⟨not_not.mp hw, (exists_offset_iff off).1 ?_⟩
      split at h
      · cases h
      · split at h
        · next r hr => exact ⟨r, offset_of_regAt hr⟩
        · cases h
  · rintro ⟨rfl, h⟩
    obtain ⟨r, rfl⟩ := (exists_offset_iff off).2 h
    exact ⟨_, locate_reg p r⟩

theorem windowAt_eq_some {off : Nat} {bf : Buf} (h : windowAt off = some bf) :
    off < 0x5000 ∧ off = bf.window + off % 0x1000 := by
  unfold windowAt at h
  split at h
  case h_5 => cases h
  all_goals next hq => cases h; simp only [Buf.window]; omega

theorem exists_window {off : Nat} (hge : 0x1000 ≤ off) (hlt : off < 0x5000) : ∃ bf : Buf, off = bf.window + off % 0x1000 := by
  have hdiv := Nat.div_add_mod off 0x1000
  have hq : off / 0x1000 = 1 ∨ off / 0x1000 = 2 ∨ off / 0x1000 = 3 ∨ off / 0x1000 = 4 := by omega
  rcases hq with hq | hq | hq | hq <;> rw [hq] at hdiv
  exacts [⟨.a, hdiv.symm⟩, ⟨.b, hdiv.symm⟩, ⟨.l, hdiv.symm⟩, ⟨.o, hdiv.symm⟩]

/-- From 0x1000 on an access reaches a byte of a buffer, or it is refused. -/
theorem locate_high_iff {p : Params} {off width : Nat} (hoff : 0x1000 ≤ off) :
    (∃ loc, locate p off width = .ok loc) ↔ width = 1 ∧ off < 0x5000 ∧ off % 0x1000 < p.cap := by
  constructor
  · rintro ⟨loc, h⟩
    rw [locate, if_neg (by omega)] at h
    split at h
    · cases h
    · next hw =>
      split at h
      · next bf hbf =>
        obtain ⟨hlt, heq⟩ := windowAt_eq_some hbf
        split at h
        · next hcap => exact ⟨not_not.mp hw, hlt, by omega⟩
        · cases h
      · cases h
  · rintro ⟨rfl, hlt, hcap⟩
    obtain ⟨bf, heq⟩ := exists_window hoff hlt
    have hwin : windowAt off = some bf := by
      rw [heq]; exact windowAt_window (Nat.mod_lt _ (by decide))
    refine ⟨.buf bf (off - bf.window), ?_⟩
    rw [locate, if_neg (by omega), if_neg (by simp), hwin]
    exact if_pos (by omega)

/-- Settles O7: a step is refused where `locate` finds nothing, and that is decided below 0x1000 and from there on apart. -/
theorem refusedAccesses : Obligations.RefusedAccesses := by
  intro s off width v rest hs hoff hin
  have htarget : target s.cfg (s.cfg.base + off) width = locate s.cfg off width := target_busAddress hoff
  rw [step_refused_iff hs hin, htarget]
  by_cases hlow : off < 0x1000
  · rw [locate_low_iff hlow]; omega
  · rw [locate_high_iff (Nat.le_of_not_lt hlow)]; omega

/-! ### Registers -/

/-- A register read (20_memory.md R62). -/
theorem step_readReg {s : State} (r : Reg) {rest : List Input} (hs : s.phase = .idle)
    (hin : s.bus.inputs = .read (s.cfg.base + r.offset) 4 :: rest) :
    step s = .next { s with bus := { inputs := rest, responses := s.bus.responses ++ [.word (readReg s r)] } } := by
  rw [step_read_ok hs hin (target_reg s.cfg r), dropInput_of_cons hin]
  cases r <;> rfl

/-- Settles O8: each row of the table is a register and the value it reads as. -/
theorem registerReads : Obligations.RegisterReads := by
  intro s off v rest hs hrow hin
  have hreg : ∃ r : Reg, off = r.offset ∧ v = readReg s r := by
    simp only [List.mem_cons, List.not_mem_nil, or_false, Prod.mk.injEq] at hrow
    rcases hrow with h | h | h | h | h | h | h | h | h | h | h
    exacts [⟨.cmd, h⟩, ⟨.status, h⟩, ⟨.hlen, h⟩, ⟨.olen, h⟩, ⟨.keybits, h⟩, ⟨.xlo, h⟩, ⟨.xhi, h⟩, ⟨.alen, h⟩, ⟨.blen, h⟩, ⟨.llen, h⟩,
      ⟨.mlen, h⟩]
  obtain ⟨r, rfl, rfl⟩ := hreg
  exact step_readReg r hs hin

/-- A register write other than to CMD (20_memory.md R63). -/
theorem step_writeReg {s : State} {r : Reg} {off : Nat} {v : Word} {rest : List Input} (hs : s.phase = .idle)
    (hin : s.bus.inputs = .write (s.cfg.base + off) 4 v :: rest) (hcmd : r ≠ .cmd) (hoff : off = r.offset) :
    step s = .next (writeReg r v { s with bus := { inputs := rest, responses := s.bus.responses ++ [.done] } }) := by
  subst hoff
  rw [step_plainWrite hs hin (target_reg s.cfg r) (by simpa using hcmd), dropInput_of_cons hin]
  cases r <;> rfl

/-- Settles O9: one register an offset, and CMD by its word. -/
theorem registerWrites : Obligations.RegisterWrites := by
  intro s off v rest hs hin
  have store (r : Reg) (hcmd : r ≠ .cmd := by decide) := step_writeReg hs hin hcmd
  refine ⟨store .keybits, store .xlo, store .xhi, store .alen, store .blen, store .llen, store .mlen, ?_, ?_⟩
  · rintro (h | h | h)
    exacts [store .status (hoff := h), store .hlen (hoff := h), store .olen (hoff := h)]
  · rintro rfl
    cases hv : decode v with
    | ok i => exact step_cmdWrite_legal hs hin (target_reg s.cfg .cmd) hv
    | error e => exact step_cmdWrite_illegal hs hin (target_reg s.cfg .cmd) hv

/-! ### Buffers -/

/-- Settles O10: the byte comes from memory, whatever the length registers hold, and the invariant keeps O's tail zero. -/
theorem bufferReads : Obligations.BufferReads := by
  intro s w i rest hs hcfg hw hi hin
  obtain ⟨bf, rfl⟩ : ∃ bf : Buf, w = bf.window := by
    simp only [List.mem_cons, List.not_mem_nil, or_false] at hw
    rcases hw with h | h | h | h
    exacts [⟨.a, h⟩, ⟨.b, h⟩, ⟨.l, h⟩, ⟨.o, h⟩]
  refine ⟨?_, fun hI ho hlen => ?_⟩
  · rw [step_read_ok hs hin (target_buf hcfg hi), dropInput_of_cons hin]; rfl
  · rw [ho]; exact hI.oTail i hlen hi

/-- A write to a buffer the host may write (20_memory.md R65). -/
theorem step_writeBuf {s : State} {bf : Buf} {i : Nat} {v : Word} {rest : List Input} (hs : s.phase = .idle) (hcfg : s.cfg.wf = true)
    (hbf : bf ≠ .o) (hi : i < s.cfg.cap) (hin : s.bus.inputs = .write (s.cfg.base + (bf.window + i)) 1 v :: rest) :
    step s = .next (bufWrite bf i (v.extractLsb' 0 8)
      { s with bus := { inputs := rest, responses := s.bus.responses ++ [.done] } }) := by
  rw [step_plainWrite hs hin (target_buf hcfg hi) (by simp), dropInput_of_cons hin]
  cases bf with
  | o => exact absurd rfl hbf
  | a | b | l => rfl

/-- A write to O is ignored (20_memory.md R65). -/
theorem step_writeBuf_o {s : State} {i : Nat} {v : Word} {rest : List Input} (hs : s.phase = .idle) (hcfg : s.cfg.wf = true)
    (hi : i < s.cfg.cap) (hin : s.bus.inputs = .write (s.cfg.base + (0x4000 + i)) 1 v :: rest) :
    step s = .next { s with bus := { inputs := rest, responses := s.bus.responses ++ [.done] } } := by
  rw [step_plainWrite hs hin (target_buf (bf := .o) hcfg hi) (by simp), dropInput_of_cons hin]; rfl

/-- Settles O11: a write of A, B or L is one memory write. -/
theorem bufferWrites : Obligations.BufferWrites := by
  intro s w i v rest hs hcfg hmem hi hin
  refine ⟨fun hw => ?_, ?_⟩
  · obtain ⟨bf, hbf, rfl⟩ : ∃ bf : Buf, bf ≠ .o ∧ w = bf.window := by
      simp only [List.mem_cons, List.not_mem_nil, or_false] at hw
      rcases hw with h | h | h
      exacts [⟨.a, by simp, h⟩, ⟨.b, by simp, h⟩, ⟨.l, by simp, h⟩]
    exact ⟨_, step_writeBuf hs hcfg hbf hi hin, Memory.wf_write hmem _ _, Memory.read_write hmem _ _⟩
  · rintro rfl
    exact step_writeBuf_o hs hcfg hi hin

/-! ### A running command holds the bus -/

/-- One phase of a running command answers the CMD write exactly when it completes (60_exceptions.md R186). -/
theorem seqStep_responses {s : State} (hs : s.phase ≠ .idle) :
    ((seqStep s).phase ≠ .idle ∧ (seqStep s).bus.responses = s.bus.responses) ∨
      ((seqStep s).phase = .idle ∧ (seqStep s).bus.responses = s.bus.responses ++ [.done]) := by
  obtain ⟨hidle, -⟩ | ⟨k, -, h⟩ | ⟨-, h⟩ | ⟨-, -, -, h⟩ := seqStep_cases s
  · exact absurd hidle hs
  · rw [h]; exact .inr ⟨rfl, rfl⟩
  · rw [h]; exact .inr ⟨rfl, rfl⟩
  · obtain ⟨r, h⟩ | ⟨sc, ph, e, h, hph, -, -⟩ := h
    · rw [h]; exact .inr ⟨rfl, rfl⟩
    · rw [h]; exact .inl ⟨hph, rfl⟩

/-- Settles O12: the step is one phase, and a phase leaves the host's list as it is. -/
theorem commandHoldsBus : Obligations.CommandHoldsBus := by
  rintro s s' hs (⟨rfl, hin⟩ | ⟨rest, hin, rfl⟩)
  · refine ⟨?_, (seqStep_keptByClr _).inputs, seqStep_responses hs⟩
    obtain hin | ⟨rest, ⟨addr, width, hin⟩ | ⟨addr, width, v, hin⟩ | ⟨w, n, hin⟩⟩ := hin
    · exact step_none hin
    · exact step_held hs rfl hin
    · exact step_held hs rfl hin
    · exact step_held hs rfl hin
  · rw [← dropInput_of_cons hin]
    exact ⟨step_wait hin, (seqStep_keptByClr _).inputs, seqStep_responses (s := dropInput s) hs⟩

end Sys2Proof.Machine
end

section
/-! PROOFS. The random octets a command draws (20_memory.md R78, 42_oaep.md R134, 43_pkcs1v15.md R152): which phases draw, and for the two encode
commands what has been drawn by each phase. -/

namespace Sys2Proof.Machine

/-! ### Which phases draw -/

theorem hashPort_rc {m d : Octets} {s t : State} (h : hashPort m s = some (d, t)) : t.env.rc = s.env.rc := by
  unfold hashPort at h
  split at h <;> cases h
  rfl

theorem mgfPhase_rc {cmd : Instr} {seed : Octets} {length : Nat} {here : MgfPhase → Phase} {done : Octets → State → State}
    {s : State} (m : MgfPhase) (hdone : ∀ r, (done r s).env.rc = s.env.rc) :
    (mgfPhase cmd seed length here done m s).env.rc = s.env.rc := by
  cases m with
  | init => rfl
  | i2osp => simp only [mgfPhase]; split <;> rfl
  | hash =>
    simp only [mgfPhase]
    split
    · rfl
    · next h => exact (hashPort_rc h :)
  | append => simp only [mgfPhase]; split <;> rfl
  | trunc =>
    simp only [mgfPhase]
    split
    · rfl
    · exact hdone _

/-- E_SEED, P_DRAW and P_FIX make the Rand requests (20_memory.md R78); every other phase leaves rc. -/
theorem seqStep_rc {s : State} (hSeed : s.phase ≠ .eSeed) (hDraw : s.phase ≠ .pDraw) (hFix : s.phase ≠ .pFix) :
    (seqStep s).env.rc = s.env.rc := by
  cases hph : s.phase with
  | eSeed => exact absurd hph hSeed
  | pDraw => exact absurd hph hDraw
  | pFix => exact absurd hph hFix
  | idle => rw [seqStep_of_idle hph]
  | fail | kClr | ePs | eEmit | dSplit | dCmp | dEmit | pEmit | qEmit => simp only [seqStep, hph]; rfl
  | mgf1 m | eDbMask m | eSeedMask m | dSeedMask m | dDbMask m => simp only [seqStep, hph]; exact mgfPhase_rc m fun _ => rfl
  | eDb =>
    simp only [seqStep, hph, phaseEDb]
    split
    · rfl
    · next h => exact (hashPort_rc h :)
  | dLhash =>
    simp only [seqStep, hph, phaseDLhash]
    split
    · rfl
    · next h => exact (hashPort_rc h :)
  | iConv | xXor | eCheck | eXorDb | eXorSeed | dCheck | dXorSeed | dXorDb | dScan | pCheck | qLen | qTag | qScan | qPs =>
    simp only [seqStep, hph, phaseIConv, phaseXXor, phaseECheck, phaseEXorDb, phaseEXorSeed, phaseDCheck, phaseDXorSeed, phaseDXorDb,
      phaseDScan, phasePCheck, phaseQLen, phaseQTag, phaseQScan, phaseQPs]
    split <;> rfl

@[simp] theorem withLatch_rc (s : State) : (withLatch s).env.rc = s.env.rc := by unfold withLatch; split <;> rfl

/-- No start draws (60_exceptions.md R185). -/
theorem beginCommand_rc (i : Instr) (s : State) : (beginCommand i s).env.rc = s.env.rc := by
  obtain ⟨-, h⟩ | ⟨-, -, -, -, h⟩ | ⟨-, -, -, h⟩ | ⟨-, -, h⟩ := beginCommand_cases i s <;> rw [h]
  · rfl
  · rfl
  · exact withLatch_rc s
  · rfl

/-! ### The commands that draw nothing -/

theorem opcode_injective : Function.Injective Instr.opcode := by
  have hdec (i : Instr) : decodeOp i.opcode = some i := by cases i <;> rfl
  intro i j h
  exact Option.some.inj ((hdec i).symm.trans (h ▸ hdec j))

theorem Reaches.lastOp {i : Instr} {s t : State} (h : Reaches i s t) : t.lastOp = i.opcode :=
  h.induct (P := fun t => t.lastOp = i.opcode) (beginCommand_lastOp i s) (fun t ht => (seqStep_keptByClr t).lastOp.trans ht)
    fun _ _ _ _ ht => ht

/-- The phases that draw belong to OAEPENC and P15ENC. -/
theorem Reaches.rc_afterPhase {i : Instr} {s t : State} (h : Reaches i s t) (hI : Inv t) (hOaep : i ≠ .oaepenc) (hP15 : i ≠ .p15enc) :
    (seqStep t).env.rc = t.env.rc := by
  have hp := hI.phase
  have other {j : Instr} (hj : i ≠ j) (hop : t.lastOp = j.opcode) : False := hj (opcode_injective (h.lastOp.symm.trans hop))
  refine seqStep_rc (fun hph => ?_) (fun hph => ?_) (fun hph => ?_) <;> simp only [PhaseInv, hph] at hp
  · obtain ⟨⟨⟨hop, -⟩, -⟩, -⟩ := hp
    exact other hOaep hop
  · obtain ⟨⟨hop, -⟩, -⟩ := hp
    exact other hP15 hop
  · obtain ⟨⟨⟨⟨hop, -⟩, -⟩, -⟩, -⟩ := hp
    exact other hP15 hop

theorem Reaches.rc_of_ne {i : Instr} {s t : State} (h : Reaches i s t) (hI : Inv s) (hs : s.phase = .idle) (hOaep : i ≠ .oaepenc)
    (hP15 : i ≠ .p15enc) : t.env.rc = s.env.rc := by
  induction h with
  | start => exact beginCommand_rc i s
  | phase ht ih => exact (ht.rc_afterPhase (ht.inv hI hs) hOaep hP15).trans ih
  | served _ _ _ _ ih => exact ih

/-! ### OAEPENC -/

/-- Under the pipeline's invariant a phase of `mgf` stays in the pipeline or hands over the mask: its guards do not raise (41_mgf1.md R121), and it
draws nothing. -/
theorem mgfPhase_induct {cmd : Instr} {seed : Octets} {length : Nat} {here : MgfPhase → Phase} {done : Octets → State → State}
    {m : MgfPhase} {s : State} {P : State → Prop} (hpos : 1 ≤ hLen s) (hlen : length < 4294967296) (hm : MgfInv length m s)
    (hstay : P s) (hmove : ∀ m' sc e, e.rc = s.env.rc → P (moved s sc (here m') e)) (hdone : ∀ r, P (done r s)) :
    P (mgfPhase cmd seed length here done m s) := by
  cases m with
  | init => exact hmove .i2osp _ _ rfl
  | i2osp =>
    obtain ⟨hn, hc, -⟩ := hm
    have hdiv : length / hLen s ≤ length := Nat.div_le_self _ _
    simp only [mgfPhase, i2osp_of_lt (show s.scratch.c < 4294967296 by omega)]
    exact hmove .hash _ _ rfl
  | hash =>
    simp only [mgfPhase]
    split
    · exact hstay
    · next h =>
      have hrc := hashPort_rc h
      obtain ⟨-, e, rfl, -⟩ := hashPort_cases h
      exact hmove .append _ e hrc
  | append =>
    simp only [mgfPhase]
    split
    · exact hmove .i2osp _ _ rfl
    · exact hmove .trunc _ _ rfl
  | trunc =>
    have hT : s.scratch.t.length = (length / hLen s + 1) * hLen s := hm
    have hle := le_rounds_mul (length := length) hpos
    simp only [mgfPhase]
    rw [if_neg (by omega)]
    exact hdone _

/-- What OAEPENC, started in `s`, has drawn by each phase (42_oaep.md R134): nothing up to E_SEED and in every failure, hLen octets after it. -/
def OaepDrawnBy (s t : State) : Prop :=
  match t.phase with
  | .eCheck | .ePs | .eDb | .eSeed | .fail _ => t.env.rc = s.env.rc
  | .eDbMask _ | .eXorDb | .eSeedMask _ | .eXorSeed | .eEmit => t.env.rc = s.env.rc + hLen t
  | .idle => (t.err = .ok → t.env.rc = s.env.rc + hLen t) ∧ (t.err ≠ .ok → t.env.rc = s.env.rc)
  | _ => False

theorem oaepDrawnBy_beginCommand (s : State) : OaepDrawnBy s (beginCommand .oaepenc s) := by
  have hrc := beginCommand_rc .oaepenc s
  obtain ⟨-, h⟩ | ⟨-, -, -, -, h⟩ | ⟨-, -, -, h⟩ | ⟨-, hu, -⟩ := beginCommand_cases .oaepenc s
  · rw [h] at hrc ⊢; exact hrc
  · rw [h] at hrc ⊢; exact hrc
  · rw [h] at hrc ⊢; exact hrc
  · cases hu

theorem OaepDrawnBy.afterPhase {s t : State} (h : OaepDrawnBy s t) (hI : Inv t) : OaepDrawnBy s (seqStep t) := by
  have hp := hI.phase
  have h' := h
  cases hph : t.phase with
  | idle => rw [seqStep_of_idle hph]; exact h
  | fail k =>
    simp only [PhaseInv, hph] at hp
    simp only [OaepDrawnBy, hph] at h
    simp only [seqStep, hph]
    exact ⟨fun hok => absurd hok hp.1, fun _ => h⟩
  | eCheck =>
    simp only [OaepDrawnBy, hph] at h
    simp only [seqStep, hph, phaseECheck]
    split <;> exact h
  | ePs =>
    simp only [OaepDrawnBy, hph] at h
    simp only [seqStep, hph]
    exact h
  | eDb =>
    simp only [OaepDrawnBy, hph] at h
    simp only [seqStep, hph, phaseEDb]
    split
    · exact h'
    · next hport => exact (hashPort_rc hport).trans h
  | eSeed =>
    simp only [OaepDrawnBy, hph] at h
    simp only [seqStep, hph, phaseESeed]
    split
    · exact h'
    · next hport =>
      obtain ⟨-, rfl⟩ := randPort_cases hport
      exact congrArg (· + hLen t) h
  | eDbMask m =>
    simp only [PhaseInv, hph] at hp
    simp only [OaepDrawnBy, hph] at h
    obtain ⟨⟨⟨-, hv, -, -, hcap⟩, hem, -, -, -⟩, -, -, hm⟩ := hp
    have := Params.cap_le hI.cfg
    simp only [seqStep, hph, phaseEDbMask, hem]
    exact mgfPhase_induct (hI.hLen_pos hv).1 (by omega) hm h' (fun _ _ _ he => he.trans h) fun _ => h
  | eXorDb =>
    simp only [PhaseInv, hph] at hp
    simp only [OaepDrawnBy, hph] at h
    obtain ⟨-, hdb, -, hmask⟩ := hp
    have hl : t.scratch.db.length = t.scratch.dbMask.length := by omega
    simp only [seqStep, hph, phaseEXorDb, xorOctets_of_length_eq hl]
    exact h
  | eSeedMask m =>
    simp only [PhaseInv, hph] at hp
    simp only [OaepDrawnBy, hph] at h
    obtain ⟨⟨⟨-, hv, -, -, hcap⟩, -, hem, hmsg, -⟩, -, -, hm⟩ := hp
    have := Params.cap_le hI.cfg
    simp only [seqStep, hph, phaseESeedMask]
    exact mgfPhase_induct (hI.hLen_pos hv).1 (by omega) hm h' (fun _ _ _ he => he.trans h) fun _ => h
  | eXorSeed =>
    simp only [PhaseInv, hph] at hp
    simp only [OaepDrawnBy, hph] at h
    obtain ⟨-, hseed, -, hmask⟩ := hp
    simp only [seqStep, hph, phaseEXorSeed, xorOctets_of_length_eq (hseed.trans hmask.symm)]
    exact h
  | eEmit =>
    simp only [OaepDrawnBy, hph] at h
    simp only [seqStep, hph]
    exact ⟨fun _ => h, fun herr => absurd rfl herr⟩
  | _ => simp only [OaepDrawnBy, hph] at h

theorem OaepDrawnBy.of_idle {s t : State} (h : OaepDrawnBy s t) (hidle : t.phase = .idle) :
    (t.err = .ok → t.env.rc = s.env.rc + hLen t) ∧ (t.err ≠ .ok → t.env.rc = s.env.rc) := by
  simpa only [OaepDrawnBy, hidle] using h

theorem Reaches.oaepDrawnBy {s t : State} (h : Reaches .oaepenc s t) (hI : Inv s) (hs : s.phase = .idle) : OaepDrawnBy s t := by
  induction h with
  | start => exact oaepDrawnBy_beginCommand s
  | phase ht ih => exact ih.afterPhase (ht.inv hI hs)
  | served _ _ _ _ ih => exact ih

/-! ### P15ENC -/

/-- One Rand event of `n` octets and then single ones lie between two environments (43_pkcs1v15.md R152). -/
def PaddingDrawn (n : Nat) (e e' : Env) : Prop :=
  ∃ used, e'.rc = e.rc + (n + used) ∧ e'.events = e.events ++ .rand n :: List.replicate used (.rand 1)

theorem PaddingDrawn.first {e e' : Env} (n : Nat) (hrc : e'.rc = e.rc) (hev : e'.events = e.events) :
    PaddingDrawn n e (e'.afterRand n) :=
  ⟨0, congrArg (· + n) hrc, congrArg (· ++ [Event.rand n]) hev⟩

theorem PaddingDrawn.afterRand {n : Nat} {e e' : Env} (h : PaddingDrawn n e e') : PaddingDrawn n e (e'.afterRand 1) := by
  obtain ⟨used, hrc, hev⟩ := h
  refine ⟨used + 1, congrArg (· + 1) hrc, ?_⟩
  show e'.events ++ [.rand 1] = _
  rw [hev, List.replicate_succ', List.append_assoc, List.cons_append]

/-- What P15ENC, started in `s`, has drawn by each phase: nothing up to P_DRAW and in every failure, the padding string and the redrawn octets
after it. -/
def P15DrawnBy (s t : State) : Prop :=
  match t.phase with
  | .pCheck | .pDraw => t.env.rc = s.env.rc ∧ t.env.events = s.env.events
  | .fail _ => t.env.rc = s.env.rc
  | .pFix | .pEmit => PaddingDrawn (p15PsLen s) s.env t.env
  | .idle => (t.err = .ok → PaddingDrawn (p15PsLen s) s.env t.env) ∧ (t.err ≠ .ok → t.env.rc = s.env.rc)
  | _ => False

theorem p15DrawnBy_beginCommand (s : State) : P15DrawnBy s (beginCommand .p15enc s) := by
  obtain ⟨-, h⟩ | ⟨-, hu, -⟩ | ⟨-, hu, -⟩ | ⟨-, -, h⟩ := beginCommand_cases .p15enc s
  · rw [h]; exact rfl
  · cases hu
  · cases hu
  · rw [h]; exact ⟨rfl, rfl⟩

/-- P_DRAW draws the length of the padding string. -/
theorem P15Checked.psLen {t : State} (h : P15Checked t) : (t.scratch.emLen - t.scratch.mLen - 2).toNat = p15PsLen t := by
  obtain ⟨-, hem, hmlen, hfit⟩ := h
  rw [hem, hmlen, p15PsLen]
  omega

theorem P15DrawnBy.afterPhase {s t : State} (h : P15DrawnBy s t) (hI : Inv t) (hlen : p15PsLen t = p15PsLen s) : P15DrawnBy s (seqStep t) := by
  have hp := hI.phase
  have h' := h
  cases hph : t.phase with
  | idle => rw [seqStep_of_idle hph]; exact h
  | fail k =>
    simp only [PhaseInv, hph] at hp
    simp only [P15DrawnBy, hph] at h
    simp only [seqStep, hph]
    exact ⟨fun hok => absurd hok hp.1, fun _ => h⟩
  | pCheck =>
    simp only [P15DrawnBy, hph] at h
    simp only [seqStep, hph, phasePCheck]
    split
    · exact h.1
    · exact h
  | pDraw =>
    simp only [PhaseInv, hph] at hp
    simp only [P15DrawnBy, hph] at h
    simp only [seqStep, hph, phasePDraw, hp.psLen, hlen]
    split
    · exact h'
    · next hport =>
      obtain ⟨-, rfl⟩ := randPort_cases hport
      exact PaddingDrawn.first _ h.1 h.2
  | pFix =>
    simp only [P15DrawnBy, hph] at h
    simp only [seqStep, hph, phasePFix]
    split
    · split
      · split
        · exact h'
        · next hport =>
          obtain ⟨-, rfl⟩ := randPort_cases hport
          simpa only [P15DrawnBy, hph] using h.afterRand
      · simpa only [P15DrawnBy, hph] using h
    · exact h
  | pEmit =>
    simp only [P15DrawnBy, hph] at h
    simp only [seqStep, hph]
    exact ⟨fun _ => h, fun herr => absurd rfl herr⟩
  | _ => simp only [P15DrawnBy, hph] at h

/-- P15ENC keeps the registers that give the length of the padding string. -/
theorem Reaches.p15PsLen_eq {i : Instr} {s t : State} (h : Reaches i s t) (hi : i ≠ .clr) : p15PsLen t = p15PsLen s := by
  obtain ⟨S, hS, hshape⟩ := h.shape hi
  have hlatch : p15PsLen S = p15PsLen s := by
    obtain rfl | ⟨rfl, -⟩ := hS
    · rfl
    · simp [p15PsLen, emLength, keyBytes]
  obtain ⟨ph, sc, e, -, -, -, -, h⟩ | ⟨r, e, -, h⟩ | ⟨k, e, -, -, h⟩ := hshape <;> rw [← hlatch, h] <;> rfl

theorem P15DrawnBy.of_idle {s t : State} (h : P15DrawnBy s t) (hidle : t.phase = .idle) :
    (t.err = .ok → PaddingDrawn (p15PsLen s) s.env t.env) ∧ (t.err ≠ .ok → t.env.rc = s.env.rc) := by
  simpa only [P15DrawnBy, hidle] using h

theorem Reaches.p15DrawnBy {s t : State} (h : Reaches .p15enc s t) (hI : Inv s) (hs : s.phase = .idle) : P15DrawnBy s t := by
  induction h with
  | start => exact p15DrawnBy_beginCommand s
  | phase ht ih => exact ih.afterPhase (ht.inv hI hs) (ht.p15PsLen_eq (by simp))
  | served _ _ _ _ ih => exact ih

/-- Settles O43: what each of the two encode commands has drawn once it is IDLE again, and that no other phase draws. -/
theorem randomOctetsDrawn : Obligations.RandomOctetsDrawn := by
  intro i s t hI hs ht
  refine ⟨ht.rc_of_ne hI hs, fun hidle herr => ?_, ?_, ?_⟩
  · by_cases hOaep : i = .oaepenc
    · subst hOaep
      exact ((ht.oaepDrawnBy hI hs).of_idle hidle).2 herr
    · by_cases hP15 : i = .p15enc
      · subst hP15
        exact ((ht.p15DrawnBy hI hs).of_idle hidle).2 herr
      · exact ht.rc_of_ne hI hs hOaep hP15
  · rintro rfl hidle
    exact ((ht.oaepDrawnBy hI hs).of_idle hidle).1
  · rintro rfl hidle
    exact ((ht.p15DrawnBy hI hs).of_idle hidle).1

end Sys2Proof.Machine
end

section
/-! PROOFS. The command words (30_encoding.md R90 to R95): a word is its two fields, the table's words are the ones with RSV zero and a defined OP, and
`decode` answers a command for these alone. -/

namespace Sys2Proof.Machine

/-! ### The fields of a word -/

theorem rsv_append_op (w : Word) : CommandWord.rsv w ++ CommandWord.op w = w := by
  have h : w.extractLsb' 8 24 ++ w.extractLsb' 0 8 = w.extractLsb' 0 (24 + 8) := BitVec.extractLsb'_append_extractLsb'_eq_extractLsb' rfl
  exact h.trans BitVec.extractLsb'_eq_self

@[simp] theorem rsv_encode (i : Instr) : CommandWord.rsv (encode i) = 0 := by cases i <;> rfl

/-- The table's word of a command is the one with zero in RSV and the command's OP (30_encoding.md R90, R92). -/
theorem eq_encode_iff {w : Word} {i : Instr} : w = encode i ↔ CommandWord.rsv w = 0 ∧ i.opcode = CommandWord.op w := by
  constructor
  · rintro rfl; exact ⟨rsv_encode i, (op_encode i).symm⟩
  · rintro ⟨hrsv, hop⟩; rw [← rsv_append_op w, hrsv, ← hop]; rfl

/-! ### The decoder -/

@[simp] theorem decodeOp_opcode (i : Instr) : decodeOp i.opcode = some i := by cases i <;> rfl

/-- The opcodes of no command (30_encoding.md R94). -/
theorem decodeOp_eq_none_iff {op : BitVec 8} : decodeOp op = none ↔ op = 0x00#8 ∨ 0x09 ≤ op.toNat := by
  rw [← BitVec.toNat_inj, BitVec.toNat_ofNat]
  unfold decodeOp
  split
  case h_9 => simp only [imp_false, true_iff] at *; omega
  all_goals simp only [reduceCtorEq, false_iff]; omega

theorem decode_of_rsv_ne_zero {w : Word} (h : CommandWord.rsv w ≠ 0) : decode w = .error (.reservedNotZero (CommandWord.rsv w)) := if_pos h

theorem decode_of_decodeOp_none {w : Word} (h : CommandWord.rsv w = 0) (hop : decodeOp (CommandWord.op w) = none) :
    decode w = .error (.opcodeUndefined (CommandWord.op w)) := by
  rw [decode, if_neg (not_not_intro h), hop]

@[simp] theorem decode_encode (i : Instr) : decode (encode i) = .ok i := by
  rw [decode, if_neg (not_not_intro (rsv_encode i)), op_encode, decodeOp_opcode]

/-- The decoder accepts the table's words only: a legal word has RSV zero and the OP of its command. -/
theorem decode_eq_ok_iff {w : Word} {i : Instr} : decode w = .ok i ↔ w = encode i := by
  refine ⟨fun h => eq_encode_iff.mpr ⟨?_, opcode_of_decode h⟩, fun h => h ▸ decode_encode i⟩
  by_contra hrsv
  rw [decode_of_rsv_ne_zero hrsv] at h
  cases h

/-- The two ways a word is illegal (30_encoding.md R94). -/
theorem exists_decode_error_iff {w : Word} :
    (∃ e, decode w = .error e) ↔ CommandWord.rsv w ≠ 0 ∨ decodeOp (CommandWord.op w) = none := by
  constructor
  · rintro ⟨e, he⟩
    by_contra! hlegal
    obtain ⟨hrsv, hop⟩ := hlegal
    obtain ⟨i, hi⟩ := Option.ne_none_iff_exists'.mp hop
    rw [decode_eq_ok_iff.mpr (eq_encode_iff.mpr ⟨hrsv, opcode_of_decodeOp hi⟩)] at he
    cases he
  · intro h
    by_cases hrsv : CommandWord.rsv w = 0
    · exact ⟨_, decode_of_decodeOp_none hrsv (h.resolve_left (not_not_intro hrsv))⟩
    · exact ⟨_, decode_of_rsv_ne_zero hrsv⟩

@[simp] theorem tableWord_toNat (w : Word) : tableWord 32 w.toNat = w := by
  rw [tableWord, Nat.mod_eq_of_lt w.isLt, BitVec.ofNat_toNat, BitVec.setWidth_eq]

/-! ### The obligations -/

/-- Settles O2: the mask keeps every bit, so a row selects its match word and no other, which is what `decode` accepts. -/
theorem wordsSelectTheirRows : Obligations.WordsSelectTheirRows := by
  refine ⟨fun w i => ?_, rfl, rfl, rfl, rfl, rfl, rfl, rfl, rfl⟩
  have hmask : w &&& 0xFFFFFFFF#32 = w := BitVec.and_allOnes
  rw [hmask]
  exact decode_eq_ok_iff

/-- Settles O4: a word is illegal by one of its two fields, and a CMD write of it is one failing start sequence. -/
theorem illegalWordsRaiseUsageFault : Obligations.IllegalWordsRaiseUsageFault := by
  constructor
  · exact fun w => exists_decode_error_iff.trans (or_congr Iff.rfl decodeOp_eq_none_iff)
  · rintro s w rest hs ⟨e, he⟩ hin
    exact step_cmdWrite_illegal hs hin (target_reg s.cfg .cmd) he

/-- Settles O1: the 32 bits of a word are the word, so the table's decoder reads it as `decode` does. -/
theorem decodeReadsEncodedWords : Obligations.DecodeReadsEncodedWords := by
  refine fun i => ⟨by cases i <;> rfl, decode_encode i, ?_⟩
  rw [decodeTableWord, if_pos le_rfl, tableWord_toNat, decode_encode]
  rfl

/-- Settles O3: each of the five words is the encoded command. -/
theorem tableWordsBitByBit : Obligations.TableWordsBitByBit :=
  ⟨decode_encode .i2osp, decode_encode .mgf1, decode_encode .oaepenc, decode_encode .p15dec, decode_encode .clr⟩

end Sys2Proof.Machine
end

section
/-! PROOFS. I2OSP, XOR and the octet operations they run (40_byte_vector.md R110 to R113): each command is one phase, which emits its result or
raises. -/

namespace Sys2Proof.Machine

/-! ### A command of one phase -/

section
variable {i : Instr} {s : State} (hc : capacityFault i s = false) (hu : usesHash i = false)
include hc hu

/-- A command that needs no hLen runs its phases from the first one on. -/
theorem runCommand_plain : runCommand i s = seqRun (phaseBudget s) (running i (firstPhase i) s.scratch s.env s) := by
  rw [runCommand, beginCommand_plain hc hu]

theorem runCommand_of_firstPhase_ok {r : Octets} {e : Env}
    (h : seqStep (running i (firstPhase i) s.scratch s.env s) = okState i r e s) : runCommand i s = okState i r e s := by
  rw [runCommand_plain hc hu]
  exact seqRun_of_le (m := 1) ((seqRun_succ' _ _).trans h) rfl (one_le_phaseBudget s)

theorem runCommand_of_firstPhase_fail {sc : Scratch} {e : Env} {k : ErrKind}
    (h : seqStep (running i (firstPhase i) s.scratch s.env s) = running i (.fail k) sc e s) :
    runCommand i s = failState i.opcode k e s := by
  have hfail : seqRun 2 (running i (firstPhase i) s.scratch s.env s) = failState i.opcode k e s := by
    rw [seqRun_succ', h, seqRun_running_fail _ _ _ _ _ le_rfl]
  rw [runCommand_plain hc hu]
  exact seqRun_of_le hfail rfl (by unfold phaseBudget; omega)

end

/-! ### I2OSP -/

theorem operandX_of_xhi_eq_zero {s : State} (h : s.xhi = 0) : operandX s = s.xlo.toNat := by
  simp [operandX, h]

/-- "that is when `x[XHI] != 0`" (40_byte_vector.md R111). -/
theorem operandX_ge_of_xhi_ne_zero {s : State} (h : s.xhi ≠ 0) : 4294967296 ≤ operandX s := by
  have : s.xhi.toNat ≠ 0 := fun h0 => h (BitVec.eq_of_toNat_eq h0)
  unfold operandX; omega

theorem ofNat_div_eq_extractLsb' (w : Word) (n k : Nat) (hk : k = 2 ^ n) : BitVec.ofNat 8 (w.toNat / k % 256) = w.extractLsb' n 8 := by
  apply BitVec.eq_of_toNat_eq
  rw [BitVec.toNat_ofNat, BitVec.extractLsb'_toNat, Nat.shiftRight_eq_div_pow, hk, Nat.mod_mod]

/-- The octets of a 32-bit word are its four bytes, most significant first (40_byte_vector.md R110). -/
theorem i2ospOctets_toNat (w : Word) :
    i2ospOctets w.toNat = [w.extractLsb' 24 8, w.extractLsb' 16 8, w.extractLsb' 8 8, w.extractLsb' 0 8] := by
  have hlast : BitVec.ofNat 8 (w.toNat % 256) = w.extractLsb' 0 8 := by
    rw [← ofNat_div_eq_extractLsb' w 0 1 rfl, Nat.div_one]
  rw [i2ospOctets, ofNat_div_eq_extractLsb' w 24 16777216 rfl, ofNat_div_eq_extractLsb' w 16 65536 rfl,
    ofNat_div_eq_extractLsb' w 8 256 rfl, hlast]

theorem running_iConv_ok {sc : Scratch} {e : Env} {s : State} (h : s.xhi = 0) :
    seqStep (running .i2osp .iConv sc e s) = okState .i2osp (i2ospOctets s.xlo.toNat) e s := by
  show phaseIConv _ = _
  have hx : operandX (running .i2osp .iConv sc e s) = s.xlo.toNat := operandX_of_xhi_eq_zero h
  rw [phaseIConv, hx, i2osp_of_lt s.xlo.isLt]
  exact emit_running _ _ _ _ _ _

theorem running_iConv_fail {sc : Scratch} {e : Env} {s : State} (h : s.xhi ≠ 0) :
    seqStep (running .i2osp .iConv sc e s) = running .i2osp (.fail .enc) sc e s := by
  show phaseIConv _ = _
  have hx : 4294967296 ≤ operandX (running .i2osp .iConv sc e s) := operandX_ge_of_xhi_ne_zero (s := s) h
  rw [phaseIConv, i2osp_of_le hx]
  rfl

/-- Settles O17: I_CONV converts XLO when XHI is 0, and raises otherwise. -/
theorem i2ospResult : Obligations.I2ospResult := by
  intro s
  rw [exec_eq]
  congr 1
  split
  · next h => rw [← i2ospOctets_toNat, runCommand_of_firstPhase_ok rfl rfl (running_iConv_ok h)]
  · next h => exact runCommand_of_firstPhase_fail rfl rfl (running_iConv_fail h)

/-! ### The laws of xor -/

theorem xorOctets_eq_none_iff {a b : Octets} : xorOctets a b = none ↔ a.length ≠ b.length := by
  refine ⟨fun h hl => ?_, xorOctets_of_length_ne⟩
  rw [xorOctets_of_length_eq hl] at h
  cases h

theorem getD_zipWith_xor {a b : Octets} (h : a.length = b.length) {i : Nat} (hi : i < a.length) :
    (List.zipWith (· ^^^ ·) a b).getD i 0 = a.getD i 0 ^^^ b.getD i 0 := by
  simp [List.getD, hi, show i < b.length by omega]

/-- Settles O19: the result of `xor` is `zipWith`, whose length, octets and cancellation are the four laws. -/
theorem xorLaws : Obligations.XorLaws := by
  refine ⟨fun a b => xorOctets_eq_none_iff, fun a b h => ?_⟩
  have hlen := length_zipWith_xor h
  refine ⟨_, xorOctets_of_length_eq h, hlen, fun i hi => getD_zipWith_xor h hi, ?_⟩
  rw [xorOctets_of_length_eq (hlen.trans h), zipWith_xor_cancel h]

/-! ### XOR -/

theorem capacityFault_xor_iff {s : State} : capacityFault .xor s = true ↔ s.cfg.cap < s.alen.toNat ∨ s.cfg.cap < s.blen.toNat := by
  simp [capacityFault]

/-- Two loads of one length, octet by octet. -/
theorem zipWith_xor_load (m : Memory) (base base' n : Nat) :
    List.zipWith (· ^^^ ·) (m.load base n) (m.load base' n) = (List.range n).map fun i => m.read (base + i) ^^^ m.read (base' + i) := by
  rw [Memory.load, Memory.load, List.zipWith_map, List.zipWith_self]

section
variable {sc : Scratch} {e : Env} {s : State} (ha : s.alen.toNat ≤ 4096) (hb : s.blen.toNat ≤ 4096)
include ha hb

theorem running_xXor_ok (h : s.alen = s.blen) :
    seqStep (running .xor .xXor sc e s) = okState .xor (List.zipWith (· ^^^ ·) (operandA s) (operandB s)) e s := by
  show phaseXXor _ = _
  have hl : (operandA s).length = (operandB s).length := by simp [h]
  rw [phaseXXor, operandA_running ha, operandB_running hb, xorOctets_of_length_eq hl]
  exact emit_running _ _ _ _ _ _

theorem running_xXor_fail (h : s.alen ≠ s.blen) :
    seqStep (running .xor .xXor sc e s) = running .xor (.fail .enc) sc e s := by
  show phaseXXor _ = _
  have hl : (operandA s).length ≠ (operandB s).length := by simpa [BitVec.toNat_inj] using h
  rw [phaseXXor, operandA_running ha, operandB_running hb, xorOctets_of_length_ne hl]
  rfl

end

/-- Settles O18: a capacity check stops XOR, or X_XOR emits the `xor` of the two operands or raises on different lengths. -/
theorem xorResult : Obligations.XorResult := by
  intro s hcfg
  rw [exec_eq]
  congr 1
  split
  · next hcap => exact runCommand_capacityFault (capacityFault_xor_iff.mpr hcap)
  · next hcap =>
    have hc : capacityFault .xor s = false := Bool.eq_false_iff.mpr (mt capacityFault_xor_iff.mp hcap)
    have hmax := Params.cap_le hcfg
    have ha : s.alen.toNat ≤ 4096 := by omega
    have hb : s.blen.toNat ≤ 4096 := by omega
    split
    · next hlen =>
      rw [runCommand_of_firstPhase_ok hc rfl (running_xXor_ok ha hb hlen), operandA, operandB, ← hlen]
      exact congrArg (okState .xor · s.env s) (zipWith_xor_load _ _ _ _)
    · next hlen => exact runCommand_of_firstPhase_fail hc rfl (running_xXor_fail ha hb hlen)

end Sys2Proof.Machine
end

section
/-! PROOFS. MGF1 (41_mgf1.md R120 to R124): the start of the command leads into one run of the pipeline, which hands the mask to buffer O. -/

namespace Sys2Proof.Machine

/-! ### The pipeline inside a running command -/

/-- A run of `mgf` inside command `i` (41_mgf1.md R122), from M_INIT to the mask handed to `done`. -/
theorem seqRun_mgf_running {i : Instr} {seed : Octets} {length : Nat} {here : MgfPhase → Phase} {done : Octets → State → State}
    {e : Env} {s : State}
    (hstep : ∀ m sc e, seqStep (running i (here m) sc e s) = mgfPhase i seed length here done m (running i (here m) sc e s))
    (sc : Scratch) (hans : e.hashAnswers = none) (hh : hLen s = e.hashLen) (hpos : 0 < hLen s) (hlen : length < 4294967296) :
    ∃ sc', seqRun (3 * (length / hLen s + 1) + 2) (running i (here .init) sc e s) =
      done (mask e (hLen s) seed length) (running i (here .trunc) sc' (e.logged (maskEvents (hLen s) seed length)) s) := by
  obtain ⟨c, n, t, c4, d, h⟩ := mgf_run (s := running i (here .init) sc e s) (fun m _ _ _ _ _ _ => hstep m _ _) rfl hans hh hpos hlen
  exact ⟨_, h⟩

/-- The pipeline's phases fit in one transition when the mask fits in buffer O (log entry 8). -/
theorem mgf_rounds_le_phaseBudget {s : State} {length : Nat} (h : Nat) (hlen : length ≤ s.cfg.cap) :
    3 * (length / h + 1) + 2 ≤ phaseBudget s := by
  have : length / h ≤ length := Nat.div_le_self length h
  unfold phaseBudget
  omega

/-! ### What a successful command leaves in buffer O -/

theorem okState_read_o (i : Instr) (r : Octets) (e : Env) {s : State} (hmem : s.mem.wf = true) {x : Nat} (hx : x < r.length) :
    (okState i r e s).mem.read (0x4000 + x) = r.getD x 0 := by
  refine (Memory.read_store (Memory.wf_clear hmem 0x4000 s.cfg.cap) 0x4000 r (0x4000 + x)).trans ?_
  rw [if_pos (by omega), Nat.add_sub_cancel_left]

theorem result_okState (i : Instr) {r : Octets} (e : Env) {s : State} (hmem : s.mem.wf = true) (hr : r.length < 4294967296) :
    result (okState i r e s) = r := by
  have holen : (okState i r e s).olen.toNat = r.length := (BitVec.toNat_ofNat _ _).trans (Nat.mod_eq_of_lt hr)
  rw [result, holen]
  exact Memory.load_store (Memory.wf_clear hmem 0x4000 s.cfg.cap) 0x4000 r

/-! ### The command -/

theorem capacityFault_mgf1_iff {s : State} : capacityFault .mgf1 s = true ↔ s.cfg.cap < s.alen.toNat ∨ s.cfg.cap < s.mlen.toNat := by
  simp [capacityFault, maskLength]

/-- The pipeline's seed is operand A and its length MLEN, in whatever phase (41_mgf1.md R123). -/
theorem running_mgf1 {s : State} (ha : s.alen.toNat ≤ 4096) (m : MgfPhase) (sc : Scratch) (e : Env) :
    seqStep (running .mgf1 (.mgf1 m) sc e s) =
      mgfPhase .mgf1 (operandA s) s.mlen.toNat .mgf1 emit m (running .mgf1 (.mgf1 m) sc e s) := by
  show phaseMgf1 m _ = _
  rw [phaseMgf1, operandA_running ha]
  rfl

section
variable {s : State} (hcfg : s.cfg.wf = true) (hlatch : latchAgrees s) (hu : digestUsable s) (hans : s.env.hashAnswers = none)
  (ha : s.alen.toNat ≤ s.cfg.cap) (hm : s.mlen.toNat ≤ s.cfg.cap)
include hcfg hlatch hu hans ha hm

/-- MGF1 past its checks (41_mgf1.md R123). -/
theorem runCommand_mgf1_ok :
    runCommand .mgf1 s =
      okState .mgf1 (mask s.env s.env.hashLen (operandA s) s.mlen.toNat)
        ((withLatch s).env.logged (maskEvents s.env.hashLen (operandA s) s.mlen.toNat)) (withLatch s) := by
  have hc : capacityFault .mgf1 s = false := Bool.eq_false_iff.mpr (mt capacityFault_mgf1_iff.mp (by omega))
  have hcap := Params.cap_le hcfg
  obtain ⟨hh, hpos, -⟩ := hLen_withLatch hcfg hu hlatch
  have hstep := running_mgf1 (s := withLatch s) (by rw [withLatch_alen]; omega)
  obtain ⟨sc, hrun⟩ := seqRun_mgf_running hstep s.scratch (by rwa [withLatch_hashAnswers]) (by rwa [withLatch_hashLen]) (by omega)
    (by rw [withLatch_mlen]; omega)
  rw [hh, withLatch_mlen, mask_withLatch, operandA_withLatch, emit_running] at hrun
  rw [runCommand, beginCommand_latched hc rfl hu]
  exact seqRun_of_le hrun rfl (mgf_rounds_le_phaseBudget _ hm)

/-- What the host reads after MGF1 (41_mgf1.md R123), and that it draws nothing (R124). -/
theorem exec_mgf1_result (hmem : s.mem.wf = true) :
    ∃ t, exec .mgf1 s = .next t ∧ result t = mask s.env s.env.hashLen (operandA s) s.mlen.toNat ∧ t.env.rc = s.env.rc := by
  obtain ⟨-, hpos, -⟩ := hLen_withLatch hcfg hu hlatch
  rw [exec_eq, runCommand_mgf1_ok hcfg hlatch hu hans ha hm]
  refine ⟨_, rfl, result_okState _ _ (by rwa [withLatch_mem]) ?_, withLatch_rc s⟩
  rw [length_mask s.env rfl hpos]
  exact s.mlen.isLt

end

/-- Settles O22: a capacity check or the digest-size check stops MGF1, or the pipeline's mask is emitted. -/
theorem mgf1Result : Obligations.Mgf1Result := by
  intro s hcfg hlatch hans
  rw [exec_eq]
  congr 1
  split
  · next hcap => exact runCommand_capacityFault (capacityFault_mgf1_iff.mpr hcap)
  · next hcap =>
    split
    · next hd =>
      obtain ⟨hv, hd⟩ := hd
      exact runCommand_digestFault (Bool.eq_false_iff.mpr (mt capacityFault_mgf1_iff.mp hcap)) rfl hv hd
    · next hd =>
      have hu : digestUsable s := by
        cases hv : s.hv with
        | true => exact .inl hv
        | false =>
          have hsize := not_and.mp hd hv
          exact .inr (by omega)
      exact runCommand_mgf1_ok hcfg hlatch hu hans (by omega) (by omega)

/-- The counter octets by their place value (40_byte_vector.md R110). -/
theorem i2ospOctets_eq_map (x : Nat) : i2ospOctets x = (List.range 4).map fun b => BitVec.ofNat 8 (x / 256 ^ (3 - b) % 256) := by
  simp [i2ospOctets, List.range_succ]

/-- Settles O23: buffer O holds the mask, whose octets are those of the digests. -/
theorem mgf1Octets : Obligations.Mgf1Octets := by
  intro s hcfg hmem hlatch hu hans ha hm
  obtain ⟨-, hpos, -⟩ := hLen_withLatch hcfg hu hlatch
  have hlen := length_mask s.env rfl hpos (operandA s) s.mlen.toNat
  rw [exec_eq, runCommand_mgf1_ok hcfg hlatch hu hans ha hm]
  refine ⟨_, rfl, rfl, ?_, fun i hi => ?_⟩
  · show BitVec.ofNat 32 (mask _ _ _ _).length = s.mlen
    rw [hlen, BitVec.ofNat_toNat, BitVec.setWidth_eq]
  · rw [okState_read_o _ _ _ (by rwa [withLatch_mem]) (by omega), getD_mask s.env rfl hpos (operandA s) hi, i2ospOctets_eq_map]

/-- Settles O24: both results are masks of one seed, and the mask has the prefix law. -/
theorem mgf1PrefixLaw : Obligations.Mgf1PrefixLaw := by
  intro s m1 m2 hcfg hmem hlatch hu hans ha hm2 hle
  obtain ⟨-, hpos, -⟩ := hLen_withLatch hcfg hu hlatch
  obtain ⟨t1, hexec1, hres1, hrc1⟩ := exec_mgf1_result (s := { s with mlen := m1 }) hcfg hlatch hu hans ha (hle.trans hm2) hmem
  obtain ⟨t2, hexec2, hres2, hrc2⟩ := exec_mgf1_result (s := { s with mlen := m2 }) hcfg hlatch hu hans ha hm2 hmem
  refine ⟨t1, t2, hexec1, hexec2, ?_, ?_, ?_, hrc1, hrc2⟩
  · rw [hres1, length_mask s.env rfl hpos]
  · rw [hres2, length_mask s.env rfl hpos]
  · rw [hres1, hres2]
    exact (take_mask s.env rfl hpos (operandA s) hle).symm

end Sys2Proof.Machine
end

section
/-! PROOFS. OAEPENC (42_oaep.md R130, R131): the checks in their order, then one run from E_CHECK to E_EMIT. Each lemma on a run takes it from one phase
to the end of the command, so that it builds on the lemma on the phases after it. -/

namespace Sys2Proof.Machine

/-! ### A command that needs hLen -/

theorem digestUsable_of_not_fault {s : State} (h : ¬ (s.hv = false ∧ (s.env.hashLen < 1 ∨ s.cfg.hmax < s.env.hashLen))) :
    digestUsable s := by
  cases hv : s.hv with
  | true => exact .inl hv
  | false =>
    have hsize := not_and.mp h hv
    exact .inr (by omega)

theorem digestUsable.not_fault {s : State} (h : digestUsable s) :
    ¬ (s.hv = false ∧ (s.env.hashLen < 1 ∨ s.cfg.hmax < s.env.hashLen)) := by
  rintro ⟨hv, hd⟩
  obtain h | h := h
  · rw [hv] at h; cases h
  · omega

/-- The primitive answers, and its digest size is the latched one (10_state.md R33): what a run of `mgf` needs. -/
structure HashReady (e : Env) (s : State) : Prop where
  answers : e.hashAnswers = none
  size : hLen s = e.hashLen
  pos : 0 < hLen s

theorem hashReady_withLatch {s : State} (hcfg : s.cfg.wf = true) (hlatch : latchAgrees s) (hu : digestUsable s)
    (hans : s.env.hashAnswers = none) : HashReady (withLatch s).env (withLatch s) := by
  obtain ⟨hh, hpos, -⟩ := hLen_withLatch hcfg hu hlatch
  exact ⟨by rwa [withLatch_hashAnswers], by rwa [withLatch_hashLen], by omega⟩

theorem HashReady.logged {e : Env} {s : State} (hr : HashReady e s) (evs : List Event) : HashReady (e.logged evs) s :=
  ⟨hr.answers, hr.size, hr.pos⟩

theorem HashReady.afterRand {e : Env} {s : State} (hr : HashReady e s) (n : Nat) : HashReady (e.afterRand n) s :=
  ⟨hr.answers, hr.size, hr.pos⟩

theorem HashReady.length_mask {e : Env} {s : State} (hr : HashReady e s) (seed : Octets) (n : Nat) :
    (mask e (hLen s) seed n).length = n := Machine.length_mask e hr.size hr.pos seed n

theorem hLen_lt (s : State) : hLen s < 4294967296 := s.hlen.isLt

/-- How many phases a run of `mgf` takes (41_mgf1.md R122). -/
def mgfPhases (h length : Nat) : Nat := 3 * (length / h + 1) + 2

theorem mgfPhases_le (h length : Nat) : mgfPhases h length ≤ 3 * length + 5 := by
  have := Nat.div_le_self length h
  unfold mgfPhases
  omega

/-- A run of `mgf` inside command `i` whose mask is stored in the scratch by `store`, phase `next` following (41_mgf1.md R122). The registers of the
pipeline are left at some values. -/
theorem seqRun_mask (i : Instr) (here : MgfPhase → Phase) (next : Phase) (seed : Octets) (store : Octets → Scratch → Scratch)
    {sc : Scratch} {e : Env} {s : State} {length : Nat} (hr : HashReady e s) (hlt : length < 4294967296)
    (hstep : ∀ m c n t c4 d e', seqStep (withPipe (running i (here .init) sc e s) (here m) c n t c4 d e') =
      mgfPhase i seed length here (fun r u => { u with scratch := store r u.scratch, phase := next }) m
        (withPipe (running i (here .init) sc e s) (here m) c n t c4 d e')) :
    ∃ c n t c4 d, seqRun (mgfPhases (hLen s) length) (running i (here .init) sc e s) =
      running i next (store (mask e (hLen s) seed length) { sc with c := c, n := n, t := t, c4 := c4, d := d })
        (e.logged (maskEvents (hLen s) seed length)) s :=
  mgf_run hstep rfl hr.answers hr.size hr.pos hlt

/-! ### The data block -/

/-- The data block of OAEPENC before it is masked (42_oaep.md R130, E_DB). -/
def oaepDb (e : Env) (h : Nat) (lbl msg : Octets) (emLen : Nat) : Octets :=
  hashValue e lbl ++ zeros (emLen - msg.length - 2 * h - 1) ++ [1] ++ msg

theorem oaepMaskedDb_eq (e : Env) (h : Nat) (lbl msg : Octets) (emLen : Nat) (seed : Octets) :
    oaepMaskedDb e h lbl msg emLen seed = List.zipWith (· ^^^ ·) (oaepDb e h lbl msg emLen) (mask e h seed (emLen - h)) := rfl

theorem oaepEncoded_eq (e : Env) (h : Nat) (lbl msg : Octets) (emLen : Nat) (seed : Octets) :
    oaepEncoded e h lbl msg emLen seed =
      List.zipWith (· ^^^ ·) seed (mask e h (oaepMaskedDb e h lbl msg emLen seed) h) ++ oaepMaskedDb e h lbl msg emLen seed := rfl

/-- "len(DB) = emLen - hLen" (42_oaep.md R130), where the message fits. -/
theorem length_oaepDb {e : Env} {h : Nat} (hh : h = e.hashLen) (lbl : Octets) {msg : Octets} {emLen : Nat}
    (hfit : msg.length + 2 * h + 1 ≤ emLen) : (oaepDb e h lbl msg emLen).length = emLen - h := by
  simp only [oaepDb, List.length_append, length_hashValue, length_zeros, List.length_singleton]
  omega

/-! ### The phases of OAEPENC, from the last one back -/

theorem oaepTooLong_iff {mLen h : Nat} {emLen : Int} :
    oaepTooLong mLen h emLen = true ↔ (mLen : Int) > emLen - 2 * h - 1 ∨ emLen < 2 * h + 1 := by
  simp [oaepTooLong]

section
variable {sc : Scratch} {e : Env} {s : State}

theorem seqRun_eXorSeed (hlen : sc.seed.length = sc.seedMask.length) :
    seqRun 2 (running .oaepenc .eXorSeed sc e s) =
      okState .oaepenc (List.zipWith (· ^^^ ·) sc.seed sc.seedMask ++ sc.maskedDb) e s := by
  rw [seqRun_succ', running_eXorSeed hlen, seqRun_succ', running_eEmit, seqRun_zero]

theorem seqRun_eSeedMask (hr : HashReady e s) (hseed : sc.seed.length = hLen s) :
    seqRun (mgfPhases (hLen s) (hLen s) + 2) (running .oaepenc (.eSeedMask .init) sc e s) =
      okState .oaepenc (List.zipWith (· ^^^ ·) sc.seed (mask e (hLen s) sc.maskedDb (hLen s)) ++ sc.maskedDb)
        (e.logged (maskEvents (hLen s) sc.maskedDb (hLen s))) s := by
  obtain ⟨c, n, t, c4, d, hrun⟩ := seqRun_mask .oaepenc .eSeedMask .eXorSeed sc.maskedDb (fun r sc => { sc with seedMask := r })
    (sc := sc) hr (hLen_lt s) fun _ _ _ _ _ _ _ => rfl
  rw [seqRun_add, hrun]
  exact seqRun_eXorSeed (hseed.trans (hr.length_mask _ _).symm)

theorem seqRun_eXorDb (hr : HashReady e s) (hseed : sc.seed.length = hLen s) (hdb : sc.db.length = sc.dbMask.length) {maskedDb : Octets}
    (hxor : List.zipWith (· ^^^ ·) sc.db sc.dbMask = maskedDb) :
    seqRun (mgfPhases (hLen s) (hLen s) + 3) (running .oaepenc .eXorDb sc e s) =
      okState .oaepenc (List.zipWith (· ^^^ ·) sc.seed (mask e (hLen s) maskedDb (hLen s)) ++ maskedDb)
        (e.logged (maskEvents (hLen s) maskedDb (hLen s))) s := by
  rw [seqRun_succ', running_eXorDb hdb, hxor]
  exact seqRun_eSeedMask hr hseed

section
variable {lbl msg : Octets} {em : Nat} (hr : HashReady e s) (hfit : msg.length + 2 * hLen s + 1 ≤ em) (hlt : em < 4294967296)
  (hem : sc.emLen = em)
include hr hfit hlt hem

theorem seqRun_eDbMask (hseed : sc.seed.length = hLen s) (hdb : sc.db = oaepDb e (hLen s) lbl msg em) :
    seqRun (mgfPhases (hLen s) (em - hLen s) + (mgfPhases (hLen s) (hLen s) + 3)) (running .oaepenc (.eDbMask .init) sc e s) =
      okState .oaepenc (oaepEncoded e (hLen s) lbl msg em sc.seed)
        (e.logged (maskEvents (hLen s) sc.seed (em - hLen s) ++
          maskEvents (hLen s) (oaepMaskedDb e (hLen s) lbl msg em sc.seed) (hLen s))) s := by
  have hn : (sc.emLen - hLen s).toNat = em - hLen s := by omega
  obtain ⟨c, n, t, c4, d, hrun⟩ := seqRun_mask .oaepenc .eDbMask .eXorDb sc.seed (fun r sc => { sc with dbMask := r })
    (sc := sc) hr (length := em - hLen s) (by omega) fun _ _ _ _ _ _ _ => by rw [← hn]; rfl
  have hlen : sc.db.length = (mask e (hLen s) sc.seed (em - hLen s)).length := by
    rw [hdb, length_oaepDb hr.size lbl hfit, hr.length_mask]
  have hxor : List.zipWith (· ^^^ ·) sc.db (mask e (hLen s) sc.seed (em - hLen s)) = oaepMaskedDb e (hLen s) lbl msg em sc.seed := by
    rw [oaepMaskedDb_eq, hdb]
  rw [seqRun_add, hrun, oaepEncoded_eq, ← Env.logged_logged]
  refine seqRun_eXorDb (hr.logged _) ?_ ?_ ?_
  · exact hseed
  · exact hlen
  · exact hxor

theorem seqRun_eSeed (hrand : e.randAnswers = none) (hdb : sc.db = oaepDb e (hLen s) lbl msg em) :
    seqRun (mgfPhases (hLen s) (em - hLen s) + (mgfPhases (hLen s) (hLen s) + 4)) (running .oaepenc .eSeed sc e s) =
      okState .oaepenc (oaepEncoded e (hLen s) lbl msg em (rhoNext e (hLen s)))
        ((e.afterRand (hLen s)).logged (maskEvents (hLen s) (rhoNext e (hLen s)) (em - hLen s) ++
          maskEvents (hLen s) (oaepMaskedDb e (hLen s) lbl msg em (rhoNext e (hLen s))) (hLen s))) s := by
  rw [← Nat.add_assoc, seqRun_succ', running_eSeed hrand]
  exact seqRun_eDbMask (hr.afterRand _) hfit hlt hem (length_rhoNext _ _) hdb

end

/-- OAEPENC from its first phase on, where the message fits (42_oaep.md R130). -/
theorem seqRun_eCheck (hr : HashReady e s) (hrand : e.randAnswers = none) (ha : s.alen.toNat ≤ 4096) (hl : s.llen.toNat ≤ 4096)
    (hfit : s.alen.toNat + 2 * hLen s + 1 ≤ emLength s) {em : Nat} (hem : emLength s = em) (hlt : em < 4294967296) :
    seqRun (mgfPhases (hLen s) (em - hLen s) + (mgfPhases (hLen s) (hLen s) + 7)) (running .oaepenc .eCheck sc e s) =
      okState .oaepenc (oaepEncoded e (hLen s) (label s) (operandA s) em (rhoNext e (hLen s)))
        (((e.logged [.hash (label s)]).afterRand (hLen s)).logged (maskEvents (hLen s) (rhoNext e (hLen s)) (em - hLen s) ++
          maskEvents (hLen s) (oaepMaskedDb e (hLen s) (label s) (operandA s) em (rhoNext e (hLen s))) (hLen s))) s := by
  have hcheck : oaepTooLong s.alen.toNat (hLen s) (emLength s) = false :=
    Bool.eq_false_iff.mpr (mt oaepTooLong_iff.mp (by omega))
  have hpad : (emLength s - s.alen.toNat - 2 * hLen s - 1).toNat = em - (operandA s).length - 2 * hLen s - 1 := by
    rw [length_operandA]; omega
  rw [← Nat.add_assoc, seqRun_succ', running_eCheck, hcheck, if_neg Bool.false_ne_true, seqRun_succ', running_ePs, seqRun_succ',
    running_eDb ha hl hr.answers]
  refine seqRun_eSeed (em := em) (hr.logged _) (by rw [length_operandA]; omega) hlt hem hrand ?_
  exact congrArg (fun n => hashValue e (label s) ++ zeros n ++ [1] ++ operandA s) hpad

end

/-! ### The command -/

theorem capacityFault_oaepenc_iff {s : State} : capacityFault .oaepenc s = true ↔
    s.cfg.cap < s.alen.toNat ∨ s.cfg.cap < s.llen.toNat ∨ (s.cfg.cap : Int) < emLength s := by
  simp [capacityFault, or_assoc]

@[simp] theorem emLength_withLatch (s : State) : emLength (withLatch s) = emLength s := by simp [emLength, keyBytes]

theorem oaepEncoded_withLatch (s : State) (h : Nat) (lbl msg : Octets) (em : Nat) (seed : Octets) :
    oaepEncoded (withLatch s).env h lbl msg em seed = oaepEncoded s.env h lbl msg em seed := by
  unfold withLatch; split <;> rfl

theorem oaepMaskedDb_withLatch (s : State) (h : Nat) (lbl msg : Octets) (em : Nat) (seed : Octets) :
    oaepMaskedDb (withLatch s).env h lbl msg em seed = oaepMaskedDb s.env h lbl msg em seed := by
  unfold withLatch; split <;> rfl

/-- A message that is too long fails in E_CHECK, before any event (42_oaep.md R130). -/
theorem seqRun_eCheck_fail {sc : Scratch} {e : Env} {s : State} (h : oaepTooLong s.alen.toNat (hLen s) (emLength s) = true) :
    seqRun 2 (running .oaepenc .eCheck sc e s) = failState 0x04 .enc e s := by
  rw [seqRun_succ', running_eCheck, if_pos h]
  exact seqRun_running_fail .oaepenc _ e s .enc le_rfl

/-- OAEPENC past its checks (42_oaep.md R130). -/
theorem runCommand_oaepenc_fits {s : State} (hcfg : s.cfg.wf = true) (hlatch : latchAgrees s) (hu : digestUsable s)
    (hans : s.env.answersAll) (ha : s.alen.toNat ≤ s.cfg.cap) (hl : s.llen.toNat ≤ s.cfg.cap) {em : Nat} (hem : emLength s = em)
    (hroom : em ≤ s.cfg.cap) (hfit : s.alen.toNat + 2 * s.env.hashLen + 1 ≤ em) :
    runCommand .oaepenc s =
      okState .oaepenc (oaepEncoded s.env s.env.hashLen (label s) (operandA s) em (rhoNext s.env s.env.hashLen))
        ((((withLatch s).env.logged [.hash (label s)]).afterRand s.env.hashLen).logged
          (maskEvents s.env.hashLen (rhoNext s.env s.env.hashLen) (em - s.env.hashLen) ++
            maskEvents s.env.hashLen
              (oaepMaskedDb s.env s.env.hashLen (label s) (operandA s) em (rhoNext s.env s.env.hashLen)) s.env.hashLen))
        (withLatch s) := by
  have hc : capacityFault .oaepenc s = false := Bool.eq_false_iff.mpr (mt capacityFault_oaepenc_iff.mp (by omega))
  have hcap4096 := Params.cap_le hcfg
  obtain ⟨hh, -, -⟩ := hLen_withLatch hcfg hu hlatch
  have hrun := seqRun_eCheck (sc := s.scratch) (em := em) (hashReady_withLatch hcfg hlatch hu hans.1)
    (by rw [withLatch_randAnswers]; exact hans.2) (by rw [withLatch_alen]; omega) (by rw [withLatch_llen]; omega)
    (by rw [withLatch_alen, hh, emLength_withLatch]; omega) (by rwa [emLength_withLatch]) (by omega)
  rw [hh, label_withLatch, operandA_withLatch, rhoNext_withLatch, oaepEncoded_withLatch, oaepMaskedDb_withLatch] at hrun
  have hdb := mgfPhases_le s.env.hashLen (em - s.env.hashLen)
  have hseed := mgfPhases_le s.env.hashLen s.env.hashLen
  rw [runCommand, beginCommand_latched hc rfl hu]
  exact seqRun_of_le hrun rfl (by unfold phaseBudget; omega)

/-- Settles O25: a check stops OAEPENC, or E_CHECK does, or its phases run to E_EMIT. -/
theorem oaepEncodeResult : Obligations.OaepEncodeResult := by
  intro s hcfg hlatch hans h em seed
  rw [exec_eq]
  congr 1
  split
  · next hcap => exact runCommand_capacityFault (capacityFault_oaepenc_iff.mpr hcap)
  next hcap =>
  have hc := Bool.eq_false_iff.mpr (mt capacityFault_oaepenc_iff.mp hcap)
  split
  · next hd => exact runCommand_digestFault hc rfl hd.1 hd.2
  next hd =>
  have hu := digestUsable_of_not_fault hd
  split
  · next hlong =>
    obtain ⟨hh, -, -⟩ := hLen_withLatch hcfg hu hlatch
    rw [runCommand, beginCommand_latched hc rfl hu]
    refine seqRun_of_le (seqRun_eCheck_fail ?_) rfl (by unfold phaseBudget; omega)
    rw [withLatch_alen, hh, emLength_withLatch]
    exact oaepTooLong_iff.mpr hlong
  · next hfits =>
    exact runCommand_oaepenc_fits hcfg hlatch hu hans (by omega) (by omega) (by omega) (by omega) (by omega)

/-- Settles O26: the two conditions of E_CHECK are one, since a length is not negative. -/
theorem oaepEncodeAcceptedLengths : Obligations.OaepEncodeAcceptedLengths := by
  intro s hcfg hlatch hu hans ha hl hem
  have hexec := oaepEncodeResult s hcfg hlatch hans
  dsimp only at hexec
  rw [if_neg (by omega), if_neg hu.not_fault] at hexec
  refine ⟨_, hexec, ?_⟩
  split
  · next hlong => exact ⟨rfl, iff_of_false (by simp [failState]) (by omega), by simp [failState]⟩
  · next hfits => exact ⟨rfl, iff_of_true rfl (by omega), by simp [okState]⟩

end Sys2Proof.Machine
end

section
/-! PROOFS. OAEPDEC (42_oaep.md R135 to R138): what its scan finds, and the run from D_CHECK to its end, which is the same for every failing check
behind D_CHECK. -/

namespace Sys2Proof.Machine

/-! ### The message in a data block -/

/-- `oaepMessage` by the block's own scan (42_oaep.md R137). -/
theorem oaepMessage_eq (h : Nat) (lHash db : Octets) :
    oaepMessage h lHash db = if db.take h = lHash then (scanFor 1 h (db.drop h)).map fun j => db.drop (j + 1) else none := by
  unfold oaepMessage
  by_cases hpre : db.take h = lHash
  · rw [if_neg (not_not.mpr hpre), if_pos hpre, scanFor_eq_findIdx?]
    cases (db.drop h).findIdx? (· == 1) <;> rfl
  · rw [if_pos hpre, if_neg hpre]

/-- What OAEPDEC completes in with the message it has found, or with none (42_oaep.md R135, R136). -/
def oaepdecEnd (found : Option Octets) (e : Env) (s : State) : State :=
  match found with
  | some m => okState .oaepdec m e s
  | none => failState 0x05 .dec e s

theorem oaepdecEnd_idle (found : Option Octets) (e : Env) (s : State) : (oaepdecEnd found e s).phase = .idle := by
  cases found <;> rfl

/-! ### The phases of OAEPDEC, from the last one back -/

section
variable {sc : Scratch} {e : Env} {s : State}

/-- D_SCAN reports both the hash comparison and the scan (42_oaep.md R137). -/
theorem seqRun_dCmp (hdb : hLen s ≤ sc.db.length) (hhash : sc.lHash.length = hLen s) :
    seqRun 3 (running .oaepdec .dCmp sc e s) = oaepdecEnd (oaepMessage (hLen s) sc.lHash sc.db) e s := by
  have hfail (sc : Scratch) : seqRun 1 (running .oaepdec (.fail .dec) sc e s) = failState 0x05 .dec e s :=
    seqRun_running_fail .oaepdec sc e s .dec le_rfl
  rw [seqRun_succ', running_dCmp, seqRun_succ', running_dScan, oaepMessage_eq]
  by_cases hpre : sc.db.take (hLen s) = sc.lHash
  · have hsame := (sameOctets_eq_true hdb hhash).mpr hpre
    rw [if_pos hpre]
    cases hscan : scanFor 1 (hLen s) (sc.db.drop (hLen s)) with
    | none => rw [if_pos (by simp)]; exact hfail _
    | some j =>
      rw [if_neg (by simp [hsame]), seqRun_succ', running_dEmit rfl]
      rfl
  · have hdiff := Bool.eq_false_iff.mpr (mt (sameOctets_eq_true hdb hhash).mp hpre)
    rw [if_neg hpre, if_pos (by simp [hdiff])]
    exact hfail _

variable (hr : HashReady e s) (hl : s.llen.toNat ≤ 4096)
include hr hl

theorem seqRun_dLhash (hdb : hLen s ≤ sc.db.length) :
    seqRun 4 (running .oaepdec .dLhash sc e s) =
      oaepdecEnd (oaepMessage (hLen s) (hashValue e (label s)) sc.db) (e.logged [.hash (label s)]) s := by
  rw [seqRun_succ', running_dLhash hl hr.answers]
  exact seqRun_dCmp hdb ((length_hashValue _ _).trans hr.size.symm)

theorem seqRun_dXorDb (hmask : sc.maskedDb.length = sc.dbMask.length) (hdb : hLen s ≤ sc.maskedDb.length) :
    seqRun 5 (running .oaepdec .dXorDb sc e s) =
      oaepdecEnd (oaepMessage (hLen s) (hashValue e (label s)) (List.zipWith (· ^^^ ·) sc.maskedDb sc.dbMask))
        (e.logged [.hash (label s)]) s := by
  rw [seqRun_succ', running_dXorDb hmask]
  exact seqRun_dLhash hr hl (by rwa [length_zipWith_xor hmask])

variable (ha : s.alen.toNat ≤ 4096)
include ha

theorem seqRun_dDbMask (hlen : sc.maskedDb.length = (operandA s).length - hLen s) (hdb : hLen s ≤ sc.maskedDb.length) :
    seqRun (mgfPhases (hLen s) ((operandA s).length - hLen s) + 5) (running .oaepdec (.dDbMask .init) sc e s) =
      oaepdecEnd
        (oaepMessage (hLen s) (hashValue e (label s))
          (List.zipWith (· ^^^ ·) sc.maskedDb (mask e (hLen s) sc.seed ((operandA s).length - hLen s))))
        (e.logged (maskEvents (hLen s) sc.seed ((operandA s).length - hLen s) ++ [.hash (label s)])) s := by
  obtain ⟨c, n, t, c4, d, hrun⟩ := seqRun_mask .oaepdec .dDbMask .dXorDb sc.seed (fun r sc => { sc with dbMask := r }) (sc := sc) hr
    (length := (operandA s).length - hLen s) (by rw [length_operandA]; omega) fun m c n t c4 d e' => by
      show phaseDDbMask m _ = _
      rw [phaseDDbMask, withPipe_running, length_operandA, length_operandA]
      rfl
  rw [seqRun_add, hrun, ← Env.logged_logged]
  exact seqRun_dXorDb (hr.logged _) hl (hlen.trans (hr.length_mask _ _).symm) hdb

theorem seqRun_dXorSeed (hseed : sc.maskedSeed.length = sc.seedMask.length) (hlen : sc.maskedDb.length = (operandA s).length - hLen s)
    (hdb : hLen s ≤ sc.maskedDb.length) {seed : Octets} (hxor : List.zipWith (· ^^^ ·) sc.maskedSeed sc.seedMask = seed) :
    seqRun (mgfPhases (hLen s) ((operandA s).length - hLen s) + 6) (running .oaepdec .dXorSeed sc e s) =
      oaepdecEnd
        (oaepMessage (hLen s) (hashValue e (label s))
          (List.zipWith (· ^^^ ·) sc.maskedDb (mask e (hLen s) seed ((operandA s).length - hLen s))))
        (e.logged (maskEvents (hLen s) seed ((operandA s).length - hLen s) ++ [.hash (label s)])) s := by
  rw [seqRun_succ', running_dXorSeed hseed, hxor]
  exact seqRun_dDbMask hr hl ha hlen hdb

theorem seqRun_dSeedMask (hlong : 2 * hLen s + 1 ≤ (operandA s).length) (hseed : sc.maskedSeed = (operandA s).take (hLen s))
    (hdb : sc.maskedDb = (operandA s).drop (hLen s)) :
    seqRun (mgfPhases (hLen s) (hLen s) + (mgfPhases (hLen s) ((operandA s).length - hLen s) + 6))
        (running .oaepdec (.dSeedMask .init) sc e s) =
      oaepdecEnd (oaepMessage (hLen s) (hashValue e (label s)) (oaepDataBlock e (hLen s) (operandA s)))
        (e.logged (maskEvents (hLen s) ((operandA s).drop (hLen s)) (hLen s) ++
          maskEvents (hLen s) (oaepSeed e (hLen s) (operandA s)) ((operandA s).length - hLen s) ++ [.hash (label s)])) s := by
  have hseedLen : sc.maskedSeed.length = hLen s := by rw [hseed, List.length_take]; omega
  have hdbLen : sc.maskedDb.length = (operandA s).length - hLen s := by rw [hdb, List.length_drop]
  have hprefix : hLen s ≤ sc.maskedDb.length := by omega
  obtain ⟨c, n, t, c4, d, hrun⟩ := seqRun_mask .oaepdec .dSeedMask .dXorSeed sc.maskedDb (fun r sc => { sc with seedMask := r })
    (sc := sc) hr (hLen_lt s) fun _ _ _ _ _ _ _ => rfl
  have hxor : List.zipWith (· ^^^ ·) sc.maskedSeed (mask e (hLen s) sc.maskedDb (hLen s)) = oaepSeed e (hLen s) (operandA s) := by
    rw [hseed, hdb, oaepSeed]
  rw [seqRun_add, hrun, oaepDataBlock, List.append_assoc, ← Env.logged_logged, ← hdb]
  refine seqRun_dXorSeed (hr.logged _) hl ha ?_ ?_ ?_ ?_
  · exact hseedLen.trans (hr.length_mask _ _).symm
  · exact hdbLen
  · exact hprefix
  · exact hxor

/-- OAEPDEC from D_CHECK on, where the encoded message is long enough (42_oaep.md R135). -/
theorem seqRun_dCheck (hlong : 2 * hLen s + 1 ≤ s.alen.toNat) :
    seqRun (mgfPhases (hLen s) (hLen s) + (mgfPhases (hLen s) ((operandA s).length - hLen s) + 8)) (running .oaepdec .dCheck sc e s) =
      oaepdecEnd (oaepMessage (hLen s) (hashValue e (label s)) (oaepDataBlock e (hLen s) (operandA s)))
        (e.logged (maskEvents (hLen s) ((operandA s).drop (hLen s)) (hLen s) ++
          maskEvents (hLen s) (oaepSeed e (hLen s) (operandA s)) ((operandA s).length - hLen s) ++ [.hash (label s)])) s := by
  rw [← Nat.add_assoc, seqRun_succ', running_dCheck, if_neg (by omega), seqRun_succ', running_dSplit ha, Nat.add_assoc]
  exact seqRun_dSeedMask hr hl ha (by rwa [length_operandA]) rfl rfl

end

/-- A short encoded message fails in D_CHECK, before any event (42_oaep.md R135). -/
theorem seqRun_dCheck_fail {sc : Scratch} {e : Env} {s : State} (h : s.alen.toNat < 2 * hLen s + 1) :
    seqRun 2 (running .oaepdec .dCheck sc e s) = failState 0x05 .dec e s := by
  rw [seqRun_succ', running_dCheck, if_pos h]
  exact seqRun_running_fail .oaepdec _ e s .dec le_rfl

/-! ### The command -/

theorem capacityFault_oaepdec_iff {s : State} :
    capacityFault .oaepdec s = true ↔ s.cfg.cap < s.alen.toNat ∨ s.cfg.cap < s.llen.toNat := by
  simp [capacityFault]

theorem oaepSeed_withLatch (s : State) (h : Nat) (em : Octets) : oaepSeed (withLatch s).env h em = oaepSeed s.env h em := by
  unfold withLatch; split <;> rfl

theorem oaepDataBlock_withLatch (s : State) (h : Nat) (em : Octets) :
    oaepDataBlock (withLatch s).env h em = oaepDataBlock s.env h em := by
  unfold withLatch; split <;> rfl

/-- OAEPDEC past its checks (42_oaep.md R135). -/
theorem runCommand_oaepdec_long {s : State} (hcfg : s.cfg.wf = true) (hlatch : latchAgrees s) (hu : digestUsable s)
    (hans : s.env.hashAnswers = none) (ha : s.alen.toNat ≤ s.cfg.cap) (hl : s.llen.toNat ≤ s.cfg.cap)
    (hlong : 2 * s.env.hashLen + 1 ≤ s.alen.toNat) :
    runCommand .oaepdec s =
      oaepdecEnd (oaepMessage s.env.hashLen (hashValue s.env (label s)) (oaepDataBlock s.env s.env.hashLen (operandA s)))
        ((withLatch s).env.logged (maskEvents s.env.hashLen ((operandA s).drop s.env.hashLen) s.env.hashLen ++
          maskEvents s.env.hashLen (oaepSeed s.env s.env.hashLen (operandA s)) ((operandA s).length - s.env.hashLen) ++
          [.hash (label s)])) (withLatch s) := by
  have hc : capacityFault .oaepdec s = false := Bool.eq_false_iff.mpr (mt capacityFault_oaepdec_iff.mp (by omega))
  have hcap4096 := Params.cap_le hcfg
  obtain ⟨hh, -, -⟩ := hLen_withLatch hcfg hu hlatch
  have hrun := seqRun_dCheck (sc := s.scratch) (hashReady_withLatch hcfg hlatch hu hans) (by rw [withLatch_llen]; omega)
    (by rw [withLatch_alen]; omega) (by rwa [withLatch_alen, hh])
  rw [hh, label_withLatch, operandA_withLatch, hashValue_withLatch, oaepSeed_withLatch, oaepDataBlock_withLatch] at hrun
  have hseed := mgfPhases_le s.env.hashLen s.env.hashLen
  have hdb := mgfPhases_le s.env.hashLen (s.alen.toNat - s.env.hashLen)
  rw [runCommand, beginCommand_latched hc rfl hu]
  exact seqRun_of_le hrun (oaepdecEnd_idle _ _ _) (by rw [length_operandA]; unfold phaseBudget; omega)

/-- Settles O27: a check stops OAEPDEC, or D_CHECK does, or its phases run to the end that the scan decides. -/
theorem oaepDecodeResult : Obligations.OaepDecodeResult := by
  intro s hcfg hlatch hans h em e
  rw [exec_eq]
  congr 1
  split
  · next hcap => exact runCommand_capacityFault (capacityFault_oaepdec_iff.mpr hcap)
  next hcap =>
  have hc := Bool.eq_false_iff.mpr (mt capacityFault_oaepdec_iff.mp hcap)
  split
  · next hd => exact runCommand_digestFault hc rfl hd.1 hd.2
  next hd =>
  have hu := digestUsable_of_not_fault hd
  split
  · next hshort =>
    obtain ⟨hh, -, -⟩ := hLen_withLatch hcfg hu hlatch
    rw [runCommand, beginCommand_latched hc rfl hu]
    refine seqRun_of_le (seqRun_dCheck_fail ?_) rfl (by unfold phaseBudget; omega)
    rwa [withLatch_alen, hh]
  · next hlong =>
    rw [runCommand_oaepdec_long hcfg hlatch hu hans (by omega) (by omega) (by omega)]
    cases oaepMessage h (hashValue s.env (label s)) (oaepDataBlock s.env h em) <;> rfl

end Sys2Proof.Machine
end

section
/-! PROOFS. OAEPENC and OAEPDEC together (42_oaep.md R139): the decoder unmasks the encoder's data block, and finds the message in it exactly behind the
digest of the encoder's label. -/

namespace Sys2Proof.Machine

/-! ### The data block comes back -/

section
variable {e : Env} {h : Nat} (hh : h = e.hashLen) (hpos : 0 < h) (lbl : Octets) {msg : Octets} {em : Nat} {seed : Octets}
include hh hpos

theorem length_oaepMaskedDb (hfit : msg.length + 2 * h + 1 ≤ em) : (oaepMaskedDb e h lbl msg em seed).length = em - h := by
  have hdb := length_oaepDb hh lbl hfit
  rw [oaepMaskedDb_eq, length_zipWith_xor (hdb.trans (length_mask e hh hpos _ _).symm), hdb]

variable (hseed : seed.length = h)
include hseed

theorem length_maskedSeed (maskedDb : Octets) : (List.zipWith (· ^^^ ·) seed (mask e h maskedDb h)).length = h := by
  rw [length_zipWith_xor (hseed.trans (length_mask e hh hpos _ _).symm), hseed]

theorem drop_oaepEncoded : (oaepEncoded e h lbl msg em seed).drop h = oaepMaskedDb e h lbl msg em seed := by
  rw [oaepEncoded_eq, List.drop_left' (length_maskedSeed hh hpos hseed _)]

theorem oaepSeed_oaepEncoded : oaepSeed e h (oaepEncoded e h lbl msg em seed) = seed := by
  rw [oaepSeed, drop_oaepEncoded hh hpos lbl hseed, oaepEncoded_eq, List.take_left' (length_maskedSeed hh hpos hseed _),
    zipWith_xor_cancel (hseed.trans (length_mask e hh hpos _ _).symm)]

variable (hfit : msg.length + 2 * h + 1 ≤ em)
include hfit

/-- "len(EM) = emLen" (42_oaep.md R130). -/
theorem length_oaepEncoded : (oaepEncoded e h lbl msg em seed).length = em := by
  rw [oaepEncoded_eq, List.length_append, length_maskedSeed hh hpos hseed, length_oaepMaskedDb hh hpos lbl hfit]
  omega

theorem oaepDataBlock_oaepEncoded : oaepDataBlock e h (oaepEncoded e h lbl msg em seed) = oaepDb e h lbl msg em := by
  rw [oaepDataBlock, oaepSeed_oaepEncoded hh hpos lbl hseed, drop_oaepEncoded hh hpos lbl hseed,
    length_oaepEncoded hh hpos lbl hseed hfit, oaepMaskedDb_eq,
    zipWith_xor_cancel ((length_oaepDb hh lbl hfit).trans (length_mask e hh hpos _ _).symm)]

end

/-- The first 0x01 behind the digest is the separator, since the padding is zero (42_oaep.md R135). -/
theorem oaepMessage_oaepDb {e : Env} {h : Nat} (hh : h = e.hashLen) (lHash lbl msg : Octets) (em : Nat) :
    oaepMessage h lHash (oaepDb e h lbl msg em) = if hashValue e lbl = lHash then some msg else none := by
  have hlen : (hashValue e lbl).length = h := (length_hashValue e lbl).trans hh.symm
  have hdb : oaepDb e h lbl msg em = hashValue e lbl ++ (zeros (em - msg.length - 2 * h - 1) ++ 1 :: msg) := by
    simp [oaepDb]
  rw [oaepMessage_eq, hdb, List.take_left' hlen, List.drop_left' hlen]
  split
  · have hscan : scanFor 1 h (zeros (em - msg.length - 2 * h - 1) ++ 1 :: msg) = some (h + (em - msg.length - 2 * h - 1)) :=
      scanFor_eq_some.mpr ⟨_, msg, rfl, by simp [zeros], by rw [length_zeros]⟩
    rw [hscan, ← hdb]
    exact congrArg some (List.drop_left' (by simp [hlen]; omega))
  · rfl

/-! ### The two commands -/

/-- What a successful OAEPENC from `s` has found and left in buffer O of `t` (42_oaep.md R130, R131). -/
structure OaepEncodes (s t : State) : Prop where
  pos : 0 < s.env.hashLen
  fits : (operandA s).length + 2 * s.env.hashLen + 1 ≤ (emLength s).toNat
  room : (emLength s).toNat ≤ s.cfg.cap
  labelRoom : s.llen.toNat ≤ s.cfg.cap
  encoded : result t =
    oaepEncoded s.env s.env.hashLen (label s) (operandA s) (emLength s).toNat (rhoNext s.env s.env.hashLen)

theorem oaepEncodes_of_ok {s t : State} (hI : Inv s) (hans : s.env.answersAll) (hexec : exec .oaepenc s = .next t) (hok : t.err = .ok) :
    OaepEncodes s t := by
  have hcap4096 := Params.cap_le hI.cfg
  have hres := oaepEncodeResult s hI.cfg hI.latched hans
  rw [hexec] at hres
  dsimp only at hres
  have ht := Host.Outcome.next.inj hres
  split at ht
  · rw [ht] at hok; cases hok
  next hcap =>
  split at ht
  · rw [ht] at hok; cases hok
  next hd =>
  split at ht
  · rw [ht] at hok; cases hok
  next hfits =>
  obtain ⟨-, hpos, -⟩ := hLen_withLatch hI.cfg (digestUsable_of_not_fault hd) hI.latched
  have hfit : (operandA s).length + 2 * s.env.hashLen + 1 ≤ (emLength s).toNat := by rw [length_operandA]; omega
  refine ⟨hpos, hfit, by omega, by omega, ?_⟩
  rw [ht]
  refine result_okState _ _ (by rw [withLatch_mem]; exact hI.memWf) ?_
  rw [length_oaepEncoded rfl hpos _ (length_rhoNext _ _) hfit]
  omega

theorem oaepDataBlock_congr {e e' : Env} (hc : e.sameCollaborators e') (h : Nat) (em : Octets) :
    oaepDataBlock e' h em = oaepDataBlock e h em := by
  obtain ⟨hlen, hid, hknown, -⟩ := hc
  simp only [oaepDataBlock, oaepSeed, mask, hashValue_congr hlen hid hknown]

/-- OAEPDEC of what OAEPENC has encoded finds the message exactly behind the digest of the label (42_oaep.md R139). -/
theorem exec_oaepdec_of_encodes {s t s' : State} (hE : OaepEncodes s t) (hI : Inv s') (hu : digestUsable s')
    (hans : s'.env.hashAnswers = none) (hcfg : s'.cfg = s.cfg) (hc : s.env.sameCollaborators s'.env) (hA : operandA s' = result t)
    (hl : s'.llen.toNat ≤ s'.cfg.cap) :
    ∃ e, exec .oaepdec s' =
      .next (oaepdecEnd (if hashValue s.env (label s) = hashValue s.env (label s') then some (operandA s) else none) e (withLatch s')) := by
  have hlen := length_oaepEncoded rfl hE.pos (label s) (length_rhoNext s.env s.env.hashLen) hE.fits
  rw [← hE.encoded, ← hA, length_operandA] at hlen
  have hfits := hE.fits
  have hroom := hE.room
  rw [hcfg] at hl
  have ⟨hsize, hid, hknown, _⟩ := hc
  rw [exec_eq, runCommand_oaepdec_long hI.cfg hI.latched hu hans (by rw [hcfg]; omega) (by rwa [hcfg]) (by omega), hsize,
    oaepDataBlock_congr hc, hA, hE.encoded, oaepDataBlock_oaepEncoded rfl hE.pos _ (length_rhoNext _ _) hE.fits,
    hashValue_congr hsize hid hknown, oaepMessage_oaepDb rfl]
  exact ⟨_, rfl⟩

/-- Settles O29: the labels have one digest, so the decoder finds the message. -/
theorem oaepRoundTrip : Obligations.OaepRoundTrip := by
  intro s t s' hI hs hans hexec hok hI' hs' hu hans' hcfg hc hA hlabel
  have hE := oaepEncodes_of_ok hI hans hexec hok
  have hllen : s'.llen.toNat = s.llen.toNat := by rw [← length_label, hlabel, length_label]
  obtain ⟨e, hdec⟩ := exec_oaepdec_of_encodes hE hI' hu hans' hcfg hc hA (by rw [hcfg, hllen]; exact hE.labelRoom)
  rw [hlabel, if_pos rfl] at hdec
  exact ⟨_, hdec, rfl, rfl, result_okState _ _ (by rw [withLatch_mem]; exact hI'.memWf) (by rw [length_operandA]; exact s.alen.isLt)⟩

/-- Settles O30: the data block begins with another digest than that of the decoder's label, so the comparison fails. -/
theorem oaepWrongLabelFails : Obligations.OaepWrongLabelFails := by
  intro s t s' hI hs hans hexec hok hI' hs' hu hans' hcfg hc hA hl hlabel
  obtain ⟨e, hdec⟩ := exec_oaepdec_of_encodes (oaepEncodes_of_ok hI hans hexec hok) hI' hu hans' hcfg hc hA hl
  rw [if_neg hlabel.symm] at hdec
  exact ⟨_, hdec, rfl, rfl, rfl⟩

end Sys2Proof.Machine
end

section
/-! PROOFS. How the codecs end, in whatever step (42_oaep.md R132, R138, 43_pkcs1v15.md R154, R155): the one failure state of a decode, and the length of
every encoded message. -/

namespace Sys2Proof.Machine

/-! ### The failure of a decode -/

/-- A command that its start sequence stops completes with UsageFault and nothing else (60_exceptions.md R185). -/
theorem Reaches.of_startFault {i : Instr} {s t : State} (h : Reaches i s t) (hb : (beginCommand i s).phase = .fail .use) :
    t.phase = .fail .use ∨ (t.phase = .idle ∧ t.err = .use) := by
  refine h.induct (P := fun t => t.phase = .fail .use ∨ (t.phase = .idle ∧ t.err = .use)) (.inl hb) ?_ fun _ _ _ _ ht => ht
  rintro t (hph | ht)
  · simp only [seqStep, hph]
    exact .inr ⟨rfl, rfl⟩
  · rw [seqStep_of_idle ht.1]
    exact .inr ht

/-- A command that needs hLen and completes with anything but UsageFault has latched it (10_state.md R33). -/
theorem Reaches.latched {i : Instr} {s t : State} (h : Reaches i s t) (hi : usesHash i = true) (hidle : t.phase = .idle)
    (herr : t.err ≠ .use) : t.hv = true := by
  have hstart : (beginCommand i s).phase ≠ .fail .use := by
    intro hb
    obtain hph | ⟨-, huse⟩ := h.of_startFault hb
    · rw [hidle] at hph; cases hph
    · exact herr huse
  rw [h.sameLatch.1]
  obtain ⟨-, hb⟩ | ⟨-, -, -, -, hb⟩ | ⟨-, -, -, hb⟩ | ⟨-, hu, -⟩ := beginCommand_cases i s
  · rw [hb] at hstart; exact absurd rfl hstart
  · rw [hb] at hstart; exact absurd rfl hstart
  · rw [hb]; exact withLatch_hv s
  · rw [hi] at hu; cases hu

/-- The state whose fields command `i` keeps past its start sequence: hLen is latched where the command needs it. -/
def latchedFor (i : Instr) (s : State) : State := if usesHash i = true then withLatch s else s

theorem latchedFor_bus (i : Instr) (s : State) : (latchedFor i s).bus = s.bus := by
  unfold latchedFor; split
  · exact withLatch_bus s
  · rfl

/-- A completion that is neither a success nor a UsageFault is one failure state, whatever check raised it (60_exceptions.md R186). -/
theorem Reaches.eq_failState {i : Instr} {s t : State} (h : Reaches i s t) (hi : i ≠ .clr) (hidle : t.phase = .idle) (hok : t.err ≠ .ok)
    (huse : t.err ≠ .use) :
    t = failState i.opcode t.err t.env { latchedFor i s with bus := { (latchedFor i s).bus with inputs := t.bus.inputs } } := by
  obtain ⟨S, hS, hshape⟩ := h.shape hi
  obtain ⟨ph, sc, e, hph, -, -, -, ht⟩ | ⟨r, e, -, ht⟩ | ⟨k, e, -, -, ht⟩ := hshape
  · rw [ht] at hidle; exact absurd hidle hph
  · rw [ht] at hok; exact absurd rfl hok
  · have herr : t.err = k := by rw [ht]; rfl
    have henv : t.env = e := by rw [ht]; rfl
    have hhv : t.hv = S.hv := by rw [ht]; rfl
    have hfrom : latchedFor i s = S := by
      unfold latchedFor
      split
      · next hu =>
        obtain rfl | ⟨rfl, -⟩ := hS
        · rw [withLatch, if_pos (hhv.symm.trans (h.latched hu hidle huse))]
        · rfl
      · next hu =>
        obtain rfl | ⟨-, hu', -⟩ := hS
        · rfl
        · exact absurd hu' hu
    rw [herr, henv, hfrom]
    exact ht

theorem exec_inputs {i : Instr} {s t : State} (h : exec i s = .next t) : t.bus.inputs = s.bus.inputs := by
  rw [exec_eq] at h
  cases h
  exact (seqRun_keptByClr _ _).inputs.trans (beginCommand_inputsKept i s).inputs

/-- Settles O28: a run has one failing shape, and DecodingError is not the kind of the start sequence. -/
theorem decodeFailuresLookAlike : Obligations.DecodeFailuresLookAlike := by
  intro i s t hi hidle herr u
  have hu : latchedFor i s = u := by obtain rfl | rfl := hi <;> rfl
  have hclr : i ≠ .clr := by rintro rfl; simp at hi
  have reached (h : Reaches i s t) : t = failState i.opcode .dec t.env { u with bus := { u.bus with inputs := t.bus.inputs } } := by
    have hfail := h.eq_failState hclr hidle (by simp [herr]) (by simp [herr])
    rwa [herr, hu] at hfail
  refine ⟨fun hexec => ?_, reached⟩
  have hfail := reached (.of_exec hexec)
  rwa [exec_inputs hexec, ← latchedFor_bus i s, hu] at hfail

/-! ### The length of an encoded message -/

/-- The phases that can complete a command, M_TRUNC of MGF1 with all of its pipeline (44_control.md R172). -/
def Phase.completes : Phase → Bool
  | .idle | .fail _ | .iConv | .xXor | .mgf1 _ | .eEmit | .dEmit | .pEmit | .qEmit | .kClr => true
  | _ => false

theorem mgfPhase_ne_idle {cmd : Instr} {seed : Octets} {length : Nat} {here : MgfPhase → Phase} {done : Octets → State → State}
    {m : MgfPhase} {s : State} (hph : s.phase = here m) (hhere : ∀ m, here m ≠ .idle) (hdone : ∀ r, (done r s).phase ≠ .idle) :
    (mgfPhase cmd seed length here done m s).phase ≠ .idle := by
  cases m with
  | init => exact hhere _
  | i2osp =>
    simp only [mgfPhase]
    split
    · simp
    · exact hhere _
  | hash =>
    simp only [mgfPhase]
    split
    · rw [hph]; exact hhere _
    · exact hhere _
  | append =>
    simp only [mgfPhase]
    split <;> exact hhere _
  | trunc =>
    simp only [mgfPhase]
    split
    · simp
    · exact hdone _

/-- A phase that is none of those leaves the command running. -/
theorem seqStep_ne_idle {s : State} (h : s.phase.completes = false) : (seqStep s).phase ≠ .idle := by
  cases hph : s.phase with
  | idle | fail | iConv | xXor | mgf1 | eEmit | dEmit | pEmit | qEmit | kClr => rw [hph] at h; cases h
  | ePs | dSplit | dCmp => simp [seqStep, hph, phaseEPs, phaseDSplit, phaseDCmp]
  | eDbMask m | eSeedMask m | dSeedMask m | dDbMask m =>
    simp only [seqStep, hph]
    exact mgfPhase_ne_idle hph (by simp) fun r => by simp
  | eDb | eSeed | dLhash | pDraw =>
    simp only [seqStep, hph, phaseEDb, phaseESeed, phaseDLhash, phasePDraw]
    split <;> simp [hph]
  | pFix =>
    simp only [seqStep, hph, phasePFix]
    split
    · split
      · split
        · simp [hph]
        · next hport =>
          obtain ⟨-, rfl⟩ := randPort_cases hport
          simp [hph]
      · simp
    · simp
  | eCheck | eXorDb | eXorSeed | dCheck | dXorSeed | dXorDb | dScan | pCheck | qLen | qTag | qScan | qPs =>
    simp only [seqStep, hph, phaseECheck, phaseEXorDb, phaseEXorSeed, phaseDCheck, phaseDXorSeed, phaseDXorDb, phaseDScan, phasePCheck,
      phaseQLen, phaseQTag, phaseQScan, phaseQPs]
    split <;> simp

theorem Reaches.keybits {i : Instr} {s t : State} (h : Reaches i s t) (hi : i ≠ .clr) : t.keybits = s.keybits := by
  have hkept : t.phase ≠ .kClr ∧ t.keybits = s.keybits :=
    h.induct (P := fun t => t.phase ≠ .kClr ∧ t.keybits = s.keybits)
      ⟨beginCommand_ne_kClr hi s, (beginCommand_inputsKept i s).keybits⟩
      (fun t ht => ⟨seqStep_ne_kClr ht.1, (seqStep_kept ht.1).keybits.trans ht.2⟩) fun _ _ _ _ ht => ht
  exact hkept.2

/-- A result of `emLen` octets is one octet shorter than the key (10_state.md R22). -/
theorem olen_emit_emLength {s : State} {r : Octets} (hr : (r.length : Int) = emLength s) (hlt : r.length < 4294967296) :
    (emit r s).olen.toNat + 1 = keyBytes s := by
  rw [emit_olen, BitVec.toNat_ofNat, Nat.mod_eq_of_lt hlt]
  unfold emLength at hr
  omega

/-- An encode command completes OK from E_EMIT or P_EMIT, where the lengths of the parts add up to emLen (42_oaep.md R132, 43_pkcs1v15.md R154). -/
theorem Reaches.olen_of_encode {i : Instr} {s t : State} (h : Reaches i s t) (hi : i = .oaepenc ∨ i = .p15enc) (hI : Inv s)
    (hs : s.phase = .idle) (hidle : t.phase = .idle) (hok : t.err = .ok) : t.olen.toNat + 1 = keyBytes t := by
  induction h with
  | start => exact absurd hidle (beginCommand_ne_idle i s)
  | served _ _ _ _ ih => exact ih hidle hok
  | @phase t ht ih =>
    have hIt := ht.inv hI hs
    have hp := hIt.phase
    have hcap := Params.cap_le hIt.cfg
    have hop : t.lastOp = 4 ∨ t.lastOp = 6 := by
      rw [ht.lastOp]
      exact hi.imp (congrArg Instr.opcode) (congrArg Instr.opcode)
    have other {op : BitVec 8} (h : t.lastOp = op) (hne : ¬ (op = 4 ∨ op = 6)) : False := hne (h ▸ hop)
    cases hph : t.phase with
    | idle =>
      rw [seqStep_of_idle hph] at hok ⊢
      exact ih hph hok
    | fail k =>
      simp only [PhaseInv, hph] at hp
      simp only [seqStep, hph] at hok
      exact absurd hok hp.1
    | eEmit =>
      simp only [PhaseInv, hph] at hp
      obtain ⟨⟨⟨-, -, -, -, hroom⟩, -⟩, hdb, hseed⟩ := hp
      have hlen : ((t.scratch.maskedSeed ++ t.scratch.maskedDb).length : Int) = emLength t := by rw [List.length_append]; omega
      simp only [seqStep, hph]
      exact olen_emit_emLength hlen (by omega)
    | pEmit =>
      simp only [PhaseInv, hph] at hp
      obtain ⟨⟨⟨⟨-, -, hroom⟩, -⟩, hps, hpsLen⟩, -⟩ := hp
      have hlen : (([2] ++ t.scratch.ps ++ [0] ++ operandA t).length : Int) = emLength t := by
        simp only [List.length_append, List.length_singleton, length_operandA]
        omega
      simp only [seqStep, hph]
      exact olen_emit_emLength hlen (by omega)
    | iConv | kClr =>
      simp only [PhaseInv, hph] at hp
      exact (other hp (by decide)).elim
    | xXor | mgf1 | qEmit =>
      simp only [PhaseInv, hph] at hp
      exact (other hp.1 (by decide)).elim
    | dEmit =>
      simp only [PhaseInv, hph] at hp
      obtain ⟨⟨⟨⟨hdec, -⟩, -⟩, -⟩, -⟩ := hp
      exact (other hdec (by decide)).elim
    | _ => exact absurd hidle (seqStep_ne_idle (by rw [hph]; rfl))

/-- Settles O44: the length that the last phase gives, in the registers that the command keeps. -/
theorem encodedLengthIsKeyBytesLessOne : Obligations.EncodedLengthIsKeyBytesLessOne := by
  intro i s t hi hI hs ht hidle hok
  have hclr : i ≠ .clr := by rintro rfl; simp at hi
  rw [← ht.keybits hclr]
  exact ht.olen_of_encode hi hI hs hidle hok

end Sys2Proof.Machine
end

section
/-! PROOFS. P15DEC (43_pkcs1v15.md R155, R157): its four checks and the message behind the first 0x00, which one run of five phases finds. -/

namespace Sys2Proof.Machine

/-! ### The message in an encoded message -/

/-- The message behind a separator at index `k`, or none where the padding string before it is short (43_pkcs1v15.md R155, Q_PS). -/
def p15MessageAt (em : Octets) (k : Nat) : Option Octets :=
  if ((em.take k).drop 1).length < 8 then none else some (em.drop (k + 1))

/-- `p15Message` by the block's own scan (43_pkcs1v15.md R156). -/
theorem p15Message_eq (em : Octets) :
    p15Message em = if em.length < 10 ∨ em.getD 0 0 ≠ 2 then none else (scanFor 0 0 em).bind (p15MessageAt em) := by
  have hscan : scanFor 0 0 em = em.findIdx? (· == 0) := by simp [scanFor_eq_findIdx?]
  rw [p15Message, hscan]
  cases em.findIdx? (· == 0) <;> rfl

/-- What P15DEC completes in with the message it has found, or with none (43_pkcs1v15.md R155). -/
def p15decEnd (found : Option Octets) (e : Env) (s : State) : State :=
  match found with
  | some m => okState .p15dec m e s
  | none => failState 0x07 .dec e s

theorem p15decEnd_idle (found : Option Octets) (e : Env) (s : State) : (p15decEnd found e s).phase = .idle := by
  cases found <;> rfl

/-! ### The phases of P15DEC, from the last one back -/

theorem seqRun_p15dec_fail (sc : Scratch) (e : Env) (s : State) {n : Nat} (hn : 1 ≤ n) :
    seqRun n (running .p15dec (.fail .dec) sc e s) = p15decEnd none e s := seqRun_running_fail .p15dec sc e s .dec hn

section
variable {sc : Scratch} {e : Env} {s : State} (ha : s.alen.toNat ≤ 4096)
include ha

theorem seqRun_qPs {k : Nat} (hk : sc.sep = some k) :
    seqRun 2 (running .p15dec .qPs sc e s) = p15decEnd (p15MessageAt (operandA s) k) e s := by
  rw [seqRun_succ', running_qPs ha hk, p15MessageAt]
  split
  · exact seqRun_p15dec_fail _ e s le_rfl
  · exact (seqRun_succ' _ _).trans (running_qEmit ha hk)

theorem seqRun_qScan :
    seqRun 3 (running .p15dec .qScan sc e s) = p15decEnd ((scanFor 0 0 (operandA s)).bind (p15MessageAt (operandA s))) e s := by
  rw [seqRun_succ', running_qScan ha]
  cases scanFor 0 0 (operandA s) with
  | none => exact seqRun_p15dec_fail _ e s (by omega)
  | some k => exact seqRun_qPs ha rfl

/-- A whole run of P15DEC past its capacity check (43_pkcs1v15.md R155). -/
theorem seqRun_qLen : seqRun 5 (running .p15dec .qLen sc e s) = p15decEnd (p15Message (operandA s)) e s := by
  rw [seqRun_succ', running_qLen, p15Message_eq, length_operandA]
  by_cases hlen : s.alen.toNat < 10
  · rw [if_pos hlen, if_pos (.inl hlen)]
    exact seqRun_p15dec_fail _ e s (by omega)
  rw [if_neg hlen, seqRun_succ', running_qTag ha]
  by_cases htag : (operandA s).getD 0 0 ≠ 2
  · rw [if_pos htag, if_pos (.inr htag)]
    exact seqRun_p15dec_fail _ e s (by omega)
  · rw [if_neg htag, if_neg (not_or.mpr ⟨hlen, htag⟩)]
    exact seqRun_qScan ha

end

/-! ### The command -/

theorem capacityFault_p15dec_iff {s : State} : capacityFault .p15dec s = true ↔ s.cfg.cap < s.alen.toNat := by
  simp [capacityFault]

/-- P15DEC past its capacity check, in one transition (43_pkcs1v15.md R155). -/
theorem runCommand_p15dec {s : State} (hcfg : s.cfg.wf = true) (ha : s.alen.toNat ≤ s.cfg.cap) :
    runCommand .p15dec s = p15decEnd (p15Message (operandA s)) s.env s := by
  have hcap := Params.cap_le hcfg
  rw [runCommand_plain (Bool.eq_false_iff.mpr (mt capacityFault_p15dec_iff.mp (by omega))) rfl]
  exact seqRun_of_le (seqRun_qLen (by omega)) (p15decEnd_idle _ _ _) (by unfold phaseBudget; omega)

/-- Settles O33: the capacity check stops P15DEC, or its phases run to the end that its checks decide. -/
theorem p15DecodeResult : Obligations.P15DecodeResult := by
  intro s hcfg
  rw [exec_eq]
  congr 1
  split
  · next hcap => exact runCommand_capacityFault (capacityFault_p15dec_iff.mpr hcap)
  · next hcap =>
    rw [runCommand_p15dec hcfg (by omega)]
    cases p15Message (operandA s) <;> rfl

end Sys2Proof.Machine
end

section
/-! PROOFS. P15ENC (43_pkcs1v15.md R150 to R152): its checks, the run from P_CHECK to P_EMIT where the source has enough non-zero octets, and the loop of
P_FIX that does not end where it has none. -/

namespace Sys2Proof.Machine

/-! ### The start of the command -/

theorem capacityFault_p15enc_iff {s : State} :
    capacityFault .p15enc s = true ↔ s.cfg.cap < s.alen.toNat ∨ (s.cfg.cap : Int) < emLength s := by
  simp [capacityFault]

theorem beginCommand_p15enc {s : State} (ha : s.alen.toNat ≤ s.cfg.cap) (hem : emLength s ≤ (s.cfg.cap : Int)) :
    beginCommand .p15enc s = running .p15enc .pCheck s.scratch s.env s :=
  beginCommand_plain (Bool.eq_false_iff.mpr (mt capacityFault_p15enc_iff.mp (by omega))) rfl

/-- A message too long for the key fails in P_CHECK, before any event (43_pkcs1v15.md R151). -/
theorem seqRun_pCheck_fail {sc : Scratch} {e : Env} {s : State} (h : (s.alen.toNat : Int) > emLength s - 10) :
    seqRun 2 (running .p15enc .pCheck sc e s) = failState 0x06 .enc e s := by
  rw [seqRun_succ', running_pCheck, if_pos h]
  exact seqRun_running_fail .p15enc _ e s .enc le_rfl

section
variable {sc : Scratch} {e : Env} {s : State} (hfit : (s.alen.toNat : Int) ≤ emLength s - 10)
include hfit

/-- P_DRAW computes psLen over the integers, and it is not negative there (43_pkcs1v15.md R150). -/
theorem emLength_sub_eq_p15PsLen : (emLength s - s.alen.toNat - 2).toNat = p15PsLen s := by
  unfold p15PsLen; omega

theorem seqStep_pCheck_fits : seqStep (running .p15enc .pCheck sc e s) =
    running .p15enc .pDraw { sc with k := keyBytes s, emLen := emLength s, mLen := s.alen.toNat } e s := by
  rw [running_pCheck, if_neg (by omega)]

/-- The two phases before the loop: the check, and one Rand event for all positions (43_pkcs1v15.md R152). -/
theorem seqRun_pCheck_pDraw (hrand : e.randAnswers = none) : seqRun 2 (running .p15enc .pCheck sc e s) =
    running .p15enc .pFix
      { sc with k := keyBytes s, emLen := emLength s, mLen := s.alen.toNat, psLen := p15PsLen s, ps := rhoNext e (p15PsLen s), i := 0 }
      (e.afterRand (p15PsLen s)) s := by
  rw [seqRun_succ', seqStep_pCheck_fits hfit, seqRun_succ', seqRun_zero, running_pDraw hrand]
  simp only [emLength_sub_eq_p15PsLen hfit]

end

/-! ### The run to P_EMIT -/

/-- The encoded message of P15ENC (43_pkcs1v15.md R150, P_EMIT). -/
def p15Encoded (ps msg : Octets) : Octets := [2] ++ ps ++ [0] ++ msg

/-- A whole run of P15ENC past its checks, where the next `m` octets hold enough non-zero ones (43_pkcs1v15.md R152). -/
theorem seqRun_pCheck {sc : Scratch} {e : Env} {s : State} {m : Nat} {ps : Octets} {used : Nat} (ha : s.alen.toNat ≤ 4096)
    (hfit : (s.alen.toNat : Int) ≤ emLength s - 10) (hrand : e.randAnswers = none)
    (hredraw : redraw (rhoNext e (p15PsLen s)) (rhoNext (e.afterRand (p15PsLen s)) m) = some (ps, used)) :
    seqRun (p15PsLen s + used + 4) (running .p15enc .pCheck sc e s) =
      okState .p15enc (p15Encoded ps (operandA s)) (e.afterPadding (p15PsLen s) used) s := by
  have hrand' : (e.afterRand (p15PsLen s)).randAnswers = none := by simp [Env.afterRand, hrand]
  have hloop := pFix_run (s := s) { sc with k := keyBytes s, emLen := emLength s, mLen := s.alen.toNat } (rhoNext e (p15PsLen s)) []
    (rhoNext (e.afterRand (p15PsLen s)) m) (e.afterRand (p15PsLen s)) ps used hrand' (by rw [length_rhoNext]) hredraw
  simp only [length_rhoNext, List.length_nil, Nat.zero_add, List.nil_append] at hloop
  rw [afterSingles_afterRand_eq e hrand] at hloop
  refine seqRun_trans (m := 2) (n := p15PsLen s + used + 2) (seqRun_pCheck_pDraw hfit hrand) (seqRun_trans hloop ?_ rfl) (by omega)
  rw [seqRun_succ', running_pFix_end (lt_irrefl _), seqRun_succ', running_pEmit ha]
  rfl

/-- Settles O31: the capacity check stops P15ENC, or P_CHECK does, or its phases run to P_EMIT. -/
theorem p15EncodeResult : Obligations.P15EncodeResult := by
  intro s hcfg
  have hcap := Params.cap_le hcfg
  refine ⟨fun hover => ?_, fun ha hem hlong => ?_, fun m ps used ha hem hfit hrand hredraw => ?_⟩
  · rw [exec_eq, runCommand_capacityFault (capacityFault_p15enc_iff.mpr hover)]
    rfl
  · rw [exec_eq, runCommand, beginCommand_p15enc ha hem, seqRun_of_le (seqRun_pCheck_fail hlong) rfl (by unfold phaseBudget; omega)]
  · intro t
    rw [rhoNext_drop] at hredraw
    have hrun : seqRun (p15PsLen s + used + 4) (beginCommand .p15enc s) = t := by
      rw [beginCommand_p15enc ha hem]
      exact seqRun_pCheck (by omega) hfit hrand hredraw
    refine ⟨hrun, fun hused => ?_⟩
    have hbudget : p15PsLen s + used + 4 ≤ phaseBudget s := by unfold p15PsLen phaseBudget; omega
    rw [exec_eq, runCommand, seqRun_of_le hrun rfl hbudget]

/-! ### A source that delivers zeros only -/

/-- P15ENC is in its loop with a padding position still zero, and the next `n` octets of the source are all zero (43_pkcs1v15.md R152). -/
def PaddingStuck (n : Nat) (s t : State) : Prop :=
  ∃ sc e, t = running .p15enc .pFix sc e s ∧ sc.ps.length = sc.psLen ∧ 0 ∈ sc.ps.drop sc.i ∧ e.randAnswers = none ∧ ∀ k < n, rhoAt e k = 0

theorem PaddingStuck.running_of_bus {n : Nat} {s t : State} (h : PaddingStuck n s t) : t.phase ≠ .idle ∧ t.bus = s.bus := by
  obtain ⟨sc, e, rfl, -⟩ := h
  exact ⟨by simp, rfl⟩

/-- One visit of a position takes one octet of the source at most, and leaves a position zero. -/
theorem PaddingStuck.afterPhase {n : Nat} {s t : State} (h : PaddingStuck (n + 1) s t) : PaddingStuck n s (seqStep t) := by
  obtain ⟨sc, e, rfl, hlen, hzero, hrand, hrho⟩ := h
  have hi : sc.i < sc.ps.length := by
    by_contra hge
    rw [List.drop_eq_nil_of_le (by omega)] at hzero
    cases hzero
  by_cases hhere : sc.ps.getD sc.i 0 = 0
  · rw [running_pFix_zero (by omega) hhere hrand]
    refine ⟨_, _, rfl, by simpa using hlen, ?_, by simp [Env.afterRand, hrand], fun k hk => ?_⟩
    · rw [hrho 0 (by omega)]
      exact List.mem_of_mem_head? (by simp [hi])
    · rw [rhoAt_afterRand]
      exact hrho (1 + k) (by omega)
  · rw [running_pFix_nonzero (by omega) hhere]
    refine ⟨_, _, rfl, hlen, ?_, hrand, fun k hk => hrho k (by omega)⟩
    rw [List.getD_eq_getElem _ _ hi] at hhere
    rw [List.drop_eq_getElem_cons hi, List.mem_cons] at hzero
    exact hzero.resolve_left (Ne.symm hhere)

theorem PaddingStuck.seqRun {n j : Nat} {s t : State} (h : PaddingStuck (n + j) s t) : PaddingStuck n s (seqRun j t) := by
  induction j generalizing t with
  | zero => exact h
  | succ j ih => rw [seqRun_succ']; exact ih h.afterPhase

/-- Settles O46: two phases lead into the loop, which keeps a zero position for as many visits as the source has zeros. -/
theorem zeroStreamKeepsP15encRunning : Obligations.ZeroStreamKeepsP15encRunning := by
  intro s m hcfg ha hem hfit hrand hzero hrho j hj
  rw [beginCommand_p15enc ha hem]
  match j with
  | 0 => exact ⟨by simp, rfl⟩
  | 1 =>
    rw [seqRun_succ', seqStep_pCheck_fits hfit]
    exact ⟨by simp, rfl⟩
  | j + 2 =>
    have hstuck : PaddingStuck m s (seqRun 2 (running .p15enc .pCheck s.scratch s.env s)) := by
      rw [seqRun_pCheck_pDraw hfit hrand]
      refine ⟨_, _, rfl, length_rhoNext _ _, hzero, by simp [Env.afterRand, hrand], fun k hk => ?_⟩
      rw [rhoAt_afterRand]
      exact hrho _ (by omega) (by omega)
    rw [Nat.add_comm j 2, seqRun_add]
    exact (PaddingStuck.seqRun (n := m - j) (by rwa [Nat.sub_add_cancel (by omega)])).running_of_bus

end Sys2Proof.Machine
end

section
/-! PROOFS. P15ENC and P15DEC together (43_pkcs1v15.md R154, R158): what P15ENC completes with, in whatever step, the layout of it, and that P15DEC finds
the message in it. -/

namespace Sys2Proof.Machine

/-! ### The octets of an encoded message -/

section
variable (ps msg : Octets)

theorem length_p15Encoded : (p15Encoded ps msg).length = 1 + ps.length + 1 + msg.length := by
  simp only [p15Encoded, List.length_append, List.length_singleton]

theorem p15Encoded_tag : (p15Encoded ps msg).getD 0 0 = 2 := rfl

theorem p15Encoded_padding {k : Nat} (hk : k < ps.length) : (p15Encoded ps msg).getD (1 + k) 0 = ps.getD k 0 := by
  simp [p15Encoded, Nat.add_comm 1, List.getD, List.getElem?_append_left hk]

theorem p15Encoded_separator : (p15Encoded ps msg).getD (1 + ps.length) 0 = 0 := by
  simp [p15Encoded, Nat.add_comm 1, List.getD]

theorem p15Encoded_message (k : Nat) : (p15Encoded ps msg).getD (2 + ps.length + k) 0 = msg.getD k 0 := by
  have hlen : ([2] ++ ps ++ [0] : Octets).length = 2 + ps.length := by simp; omega
  rw [p15Encoded, List.getD_append_right _ _ _ _ (by omega), hlen, Nat.add_sub_cancel_left]

/-- The first 0x00 of an encoded message is its separator (43_pkcs1v15.md R154), so the decoder finds the message. -/
theorem p15Message_p15Encoded (hnonzero : 0 ∉ ps) (hlen : 8 ≤ ps.length) : p15Message (p15Encoded ps msg) = some msg := by
  have hscan : scanFor 0 0 (p15Encoded ps msg) = some (1 + ps.length) :=
    scanFor_eq_some.mpr ⟨2 :: ps, msg, by simp [p15Encoded], by simpa using hnonzero, by simp; omega⟩
  have hlong := length_p15Encoded ps msg
  rw [p15Message_eq, if_neg (not_or.mpr ⟨by omega, not_not.mpr (p15Encoded_tag ps msg)⟩), hscan]
  show p15MessageAt _ _ = _
  rw [p15MessageAt, if_neg (by rw [List.length_drop, List.length_take]; omega)]
  exact congrArg some (List.drop_left' (by simp; omega))

end

/-! ### What P15ENC completes with -/

/-- P15ENC completes OK in P_EMIT and nowhere else; inputs may be served after it. -/
theorem Reaches.emitted_of_p15enc {s t : State} (h : Reaches .p15enc s t) (hI : Inv s) (hs : s.phase = .idle) (hidle : t.phase = .idle)
    (hok : t.err = .ok) : ∃ u h r l, Reaches .p15enc s u ∧ u.phase = .pEmit ∧ t = Machine.served h r l (seqStep u) := by
  induction h with
  | start => exact absurd hidle (beginCommand_ne_idle .p15enc s)
  | served h r l _ ih =>
    obtain ⟨u, _, _, _, hu, hph, rfl⟩ := ih hidle hok
    exact ⟨u, h, r, l, hu, hph, rfl⟩
  | @phase t ht ih =>
    have hdrawn := ht.p15DrawnBy hI hs
    cases hph : t.phase with
    | idle =>
      rw [seqStep_of_idle hph] at hok ⊢
      exact ih hph hok
    | fail k =>
      have hp := (ht.inv hI hs).phase
      simp only [PhaseInv, hph] at hp
      simp only [seqStep, hph] at hok
      exact absurd hok hp.1
    | pEmit => exact ⟨t, _, _, _, ht, hph, rfl⟩
    | pCheck | pDraw | pFix => exact absurd hidle (seqStep_ne_idle (by rw [hph]; rfl))
    | _ => simp only [P15DrawnBy, hph] at hdrawn

/-- A state of P15ENC that has not completed: the state it started in holds its operands. -/
theorem Reaches.eq_running_of_p15enc {s t : State} (h : Reaches .p15enc s t) {ph : Phase} (hph : t.phase = ph) (hne : ph ≠ .idle) :
    ∃ sc e, t = running .p15enc ph sc e { s with bus := { s.bus with inputs := t.bus.inputs } } := by
  subst hph
  obtain ⟨S, rfl | ⟨-, hu, -⟩, hshape⟩ := h.shape (by simp)
  · obtain ⟨ph, sc, e, -, -, -, -, ht⟩ | ⟨r, e, -, ht⟩ | ⟨k, e, -, -, ht⟩ := hshape
    · have hph : t.phase = ph := by rw [ht]; rfl
      rw [hph]
      exact ⟨sc, e, ht⟩
    · rw [ht] at hne; exact absurd rfl hne
    · rw [ht] at hne; exact absurd rfl hne
  · cases hu

/-- What the invariant says in P_EMIT of the operands and of the padding string (43_pkcs1v15.md R154). -/
theorem padding_of_phaseInv_pEmit {sc : Scratch} {e : Env} {s : State} (h : PhaseInv (running .p15enc .pEmit sc e s)) :
    s.alen.toNat ≤ s.cfg.cap ∧ emLength s ≤ (s.cfg.cap : Int) ∧ (s.alen.toNat : Int) ≤ emLength s - 10 ∧
      sc.ps.length = p15PsLen s ∧ 0 ∉ sc.ps := by
  obtain ⟨⟨⟨⟨-, hroomA, hroom⟩, -, -, (hfit : (s.alen.toNat : Int) ≤ emLength s - 10)⟩, hlen, hpsLen⟩, hnonzero⟩ := h
  replace hlen : sc.ps.length = sc.psLen := hlen
  replace hpsLen : (sc.psLen : Int) = emLength s - s.alen.toNat - 2 := hpsLen
  refine ⟨hroomA, hroom, hfit, ?_, fun hmem => ?_⟩
  · rw [← emLength_sub_eq_p15PsLen hfit]
    omega
  · obtain ⟨k, hk, hzero⟩ := List.mem_iff_getElem.mp hmem
    exact hnonzero k (by rw [running_scratch]; omega) (by rw [running_scratch, List.getD_eq_getElem _ _ hk, hzero])

/-- What a successful P15ENC from `s` has found, and that it leaves the encoded message in `t` (43_pkcs1v15.md R150, R154). -/
structure P15Encodes (ps : Octets) (s t : State) : Prop where
  length_ps : ps.length = p15PsLen s
  nonzero : 0 ∉ ps
  fits : (s.alen.toNat : Int) ≤ emLength s - 10
  room : emLength s ≤ (s.cfg.cap : Int)
  ended : ∃ e l, t = okState .p15enc (p15Encoded ps (operandA s)) e { s with bus := { s.bus with inputs := l } }

theorem Reaches.p15Encodes {s t : State} (h : Reaches .p15enc s t) (hI : Inv s) (hs : s.phase = .idle) (hidle : t.phase = .idle)
    (hok : t.err = .ok) : ∃ ps, P15Encodes ps s t := by
  have hcap := Params.cap_le hI.cfg
  obtain ⟨u, ha, r, l, hu, hph, rfl⟩ := h.emitted_of_p15enc hI hs hidle hok
  have hp := (hu.inv hI hs).phase
  obtain ⟨sc, e, hrun⟩ := hu.eq_running_of_p15enc hph (by simp)
  rw [hrun] at hp ⊢
  obtain ⟨hroomA, hroom, hfit, hlen, hnonzero⟩ := padding_of_phaseInv_pEmit hp
  refine ⟨sc.ps, hlen, hnonzero, hfit, hroom, { e with hashAnswers := ha, randAnswers := r }, l, ?_⟩
  rw [running_pEmit (hroomA.trans hcap)]
  rfl

section
variable {ps : Octets} {s t : State} (hE : P15Encodes ps s t)
include hE

/-- The lengths of the parts add up to emLen (43_pkcs1v15.md R154). -/
theorem P15Encodes.lengths : ((p15Encoded ps (operandA s)).length : Int) = emLength s ∧ 8 ≤ ps.length := by
  have hps := hE.length_ps
  have hfit := hE.fits
  rw [length_p15Encoded, length_operandA]
  unfold p15PsLen at hps
  omega

theorem P15Encodes.read_o (hmem : s.mem.wf = true) {x : Nat} (hx : x < (p15Encoded ps (operandA s)).length) :
    t.mem.read (0x4000 + x) = (p15Encoded ps (operandA s)).getD x 0 := by
  obtain ⟨e, l, rfl⟩ := hE.ended
  exact okState_read_o .p15enc _ e hmem hx

theorem P15Encodes.olen (hcfg : s.cfg.wf = true) : t.olen.toNat = (p15Encoded ps (operandA s)).length := by
  have hcap := Params.cap_le hcfg
  have hroom := hE.room
  have hlen := hE.lengths.1
  obtain ⟨e, l, rfl⟩ := hE.ended
  exact (BitVec.toNat_ofNat _ _).trans (Nat.mod_eq_of_lt (by omega))

theorem P15Encodes.result (hcfg : s.cfg.wf = true) (hmem : s.mem.wf = true) : result t = p15Encoded ps (operandA s) := by
  have hlt : (p15Encoded ps (operandA s)).length < 4294967296 := (hE.olen hcfg).symm.trans_lt t.olen.isLt
  obtain ⟨e, l, rfl⟩ := hE.ended
  exact result_okState .p15enc e hmem hlt

end

/-! ### The obligations -/

/-- Settles O32: the octets of the encoded message, read from buffer O. -/
theorem p15EncodedLayout : Obligations.P15EncodedLayout := by
  intro s t hI hs ht hidle hok
  obtain ⟨ps, hE⟩ := ht.p15Encodes hI hs hidle hok
  obtain ⟨hlenEm, hlen8⟩ := hE.lengths
  have hlen := length_p15Encoded ps (operandA s)
  rw [length_operandA] at hlen
  rw [← hE.length_ps, hE.olen hI.cfg]
  refine ⟨hlenEm, hlen, hlen8, hE.read_o hI.memWf (x := 0) (by omega), fun k hk => ?_, ?_, fun k hk => ?_⟩
  · rw [hE.read_o hI.memWf (by omega), p15Encoded_padding _ _ hk, List.getD_eq_getElem _ _ hk]
    exact fun hzero => hE.nonzero (hzero ▸ List.getElem_mem hk)
  · rw [hE.read_o hI.memWf (by omega), p15Encoded_separator]
  · rw [hE.read_o hI.memWf (by omega), p15Encoded_message]
    exact Memory.getD_load s.mem 0x1000 _ k hk

/-- Settles O34: the encoded message fits in buffer A, and the decoder finds the message in it. -/
theorem p15RoundTrip : Obligations.P15RoundTrip := by
  intro s t s' hI hs ht hidle hok hcfg hmem hA
  obtain ⟨ps, hE⟩ := ht.p15Encodes hI hs hidle hok
  obtain ⟨hlenEm, hlen8⟩ := hE.lengths
  have hroom := hE.room
  rw [hE.result hI.cfg hI.memWf] at hA
  have hlen : s'.alen.toNat = (p15Encoded ps (operandA s)).length := by rw [← length_operandA, hA]
  rw [exec_eq, runCommand_p15dec (by rw [hcfg]; exact hI.cfg) (by rw [hcfg]; omega), hA, p15Message_p15Encoded _ _ hE.nonzero hlen8]
  exact ⟨_, rfl, rfl, rfl, result_okState .p15dec _ hmem (by rw [length_operandA]; exact s.alen.isLt)⟩

end Sys2Proof.Machine
end

section
/-! PROOFS. CLR and the phase lists (44_control.md R170, R172): what the one phase of CLR leaves, and that under the invariant every phase is followed by
one that its list allows. -/

namespace Sys2Proof.Machine

/-! ### CLR -/

/-- Settles O20: CLR starts without a check and completes in its one phase. -/
theorem clrResult : Obligations.ClrResult := by
  intro s
  have hop : CommandWord.op (encode .clr) = 0x08 := op_encode .clr
  rw [exec_eq, runCommand_clr, beginCommand_plain rfl rfl, ← hop]
  simp only [phaseKClr, completeOk, finish, respond, bufClear, running, startSequence]
  rfl

/-- The four buffers cleared, in the order in which CLR does it. -/
def Memory.clearBuffers (m : Memory) (n : Nat) : Memory := (((m.clear 0x4000 n).clear 0x1000 n).clear 0x2000 n).clear 0x3000 n

theorem Memory.read_clearBuffers (m : Memory) (n a : Nat) :
    (m.clearBuffers n).read a = if [0x1000, 0x2000, 0x3000, 0x4000].any (fun w => decide (w ≤ a ∧ a < w + n)) then 0 else m.read a := by
  simp only [Memory.clearBuffers, Memory.read_clear, ← ite_or]
  refine if_congr ?_ rfl rfl
  simp only [List.any_cons, List.any_nil, Bool.or_false, Bool.or_eq_true, decide_eq_true_eq]
  tauto

/-- STATUS after a CLR: LASTOP = 0x08 and ERR = 0 beside HV (10_state.md R28). -/
theorem statusWord_of_clr {t : State} (hop : t.lastOp = 0x08) (herr : t.err = .ok) :
    statusWord t = if t.hv then 0x00000804#32 else 0x00000800#32 := by
  unfold statusWord
  rw [hop, herr]
  cases t.hv <;> rfl

/-- Settles O21: the state is that of O20, read through STATUS and the bytes of the buffers. -/
theorem clrLeavesBuffersZero : Obligations.ClrLeavesBuffersZero := by
  intro s _
  refine ⟨_, clrResult s, statusWord_of_clr rfl rfl, rfl, rfl, rfl, rfl, fun w hw i hi => ?_, fun a ha => ?_⟩
  · refine (Memory.read_clearBuffers s.mem s.cfg.cap (w + i)).trans (if_pos ?_)
    exact List.any_eq_true.2 ⟨w, hw, decide_eq_true (by omega)⟩
  · refine (Memory.read_clearBuffers s.mem s.cfg.cap a).trans (if_neg ?_)
    rw [List.any_eq_true]
    exact fun ⟨w, hw, hin⟩ => ha w hw (of_decide_eq_true hin)

/-! ### The phase lists -/

/-- Under the pipeline's invariant the guards of `mgf` do not raise (41_mgf1.md R121): its phases follow their list, and M_TRUNC hands over the mask. -/
theorem mgfPhase_mem_nextMgfPhases {cmd : Instr} {seed : Octets} {length : Nat} {here : MgfPhase → Phase} {done : Octets → State → State}
    {m : MgfPhase} {s : State} {after : Phase} (hph : s.phase = here m) (hpos : 1 ≤ hLen s) (hlen : length < 4294967296)
    (hm : MgfInv length m s) (hdone : ∀ r, (done r s).phase = after) :
    (mgfPhase cmd seed length here done m s).phase ∈ nextMgfPhases here after m := by
  cases m with
  | init => simp [mgfPhase, nextMgfPhases]
  | i2osp =>
    obtain ⟨hn, hc, -⟩ := hm
    have hdiv : length / hLen s ≤ length := Nat.div_le_self _ _
    simp [mgfPhase, nextMgfPhases, i2osp_of_lt (show s.scratch.c < 4294967296 by omega)]
  | hash =>
    simp only [mgfPhase]
    split
    · simp [nextMgfPhases, hph]
    · simp [nextMgfPhases]
  | append =>
    simp only [mgfPhase]
    split <;> simp [nextMgfPhases]
  | trunc =>
    have hT : s.scratch.t.length = (length / hLen s + 1) * hLen s := hm
    have hle := le_rounds_mul (length := length) hpos
    simp only [mgfPhase]
    rw [if_neg (by omega)]
    simp [nextMgfPhases, hdone]

/-- A phase is followed by one of its list. The invariant is what closes the exits to FAIL of `mgf` and of the `xor` calls in OAEPENC and OAEPDEC: there
both operands have the length that the phases before gave them (42_oaep.md R132). -/
theorem seqStep_mem_nextPhases {s : State} (hI : Inv s) : (seqStep s).phase ∈ nextPhases s.phase := by
  have hp := hI.phase
  have hcap := Params.cap_le hI.cfg
  cases hph : s.phase with
  | idle => simp [seqStep_of_idle hph, hph, nextPhases]
  | fail | ePs | eEmit | dSplit | dCmp | dEmit | pEmit | qEmit | kClr =>
    simp only [seqStep, hph]
    exact List.mem_singleton.2 rfl
  | iConv | xXor =>
    simp only [seqStep, hph, phaseIConv, phaseXXor]
    split <;> simp [nextPhases, kindOf]
  | eCheck | dCheck | dScan | pCheck | qLen | qTag | qScan | qPs =>
    simp only [seqStep, hph, phaseECheck, phaseDCheck, phaseDScan, phasePCheck, phaseQLen, phaseQTag, phaseQScan, phaseQPs]
    split <;> simp [nextPhases]
  | eDb | eSeed | dLhash | pDraw =>
    simp only [seqStep, hph, phaseEDb, phaseESeed, phaseDLhash, phasePDraw]
    split <;> simp [nextPhases, hph]
  | pFix =>
    simp only [seqStep, hph, phasePFix]
    split
    · split
      · split
        · simp [nextPhases, hph]
        · next hport =>
          obtain ⟨-, rfl⟩ := randPort_cases hport
          simp [nextPhases, hph]
      · simp [nextPhases]
    · simp [nextPhases]
  | eXorDb =>
    simp only [PhaseInv, hph] at hp
    obtain ⟨-, hdb, -, hmask⟩ := hp
    have hl : s.scratch.db.length = s.scratch.dbMask.length := by omega
    simp [seqStep, hph, phaseEXorDb, xorOctets_of_length_eq hl, nextPhases]
  | eXorSeed =>
    simp only [PhaseInv, hph] at hp
    obtain ⟨-, hseed, -, hmask⟩ := hp
    simp [seqStep, hph, phaseEXorSeed, xorOctets_of_length_eq (hseed.trans hmask.symm), nextPhases]
  | dXorSeed =>
    simp only [PhaseInv, hph] at hp
    obtain ⟨⟨-, hseed, -⟩, hmask⟩ := hp
    simp [seqStep, hph, phaseDXorSeed, xorOctets_of_length_eq (hseed.trans hmask.symm), nextPhases]
  | dXorDb =>
    simp only [PhaseInv, hph] at hp
    obtain ⟨⟨-, -, hdb⟩, hmask⟩ := hp
    simp [seqStep, hph, phaseDXorDb, xorOctets_of_length_eq (hdb.trans hmask.symm), nextPhases]
  | mgf1 m =>
    simp only [PhaseInv, hph] at hp
    obtain ⟨-, hv, -, hlen, hm⟩ := hp
    simp only [seqStep, hph]
    exact mgfPhase_mem_nextMgfPhases hph (hI.hLen_pos hv).1 (by omega) hm fun _ => rfl
  | eDbMask m =>
    simp only [PhaseInv, hph] at hp
    obtain ⟨⟨⟨-, hv, -, -, hroom⟩, hem, -⟩, -, -, hm⟩ := hp
    simp only [seqStep, hph, phaseEDbMask, hem]
    exact mgfPhase_mem_nextMgfPhases hph (hI.hLen_pos hv).1 (by omega) hm fun _ => rfl
  | eSeedMask m =>
    simp only [PhaseInv, hph] at hp
    obtain ⟨⟨⟨-, hv, -⟩, -⟩, -, -, hm⟩ := hp
    simp only [seqStep, hph]
    exact mgfPhase_mem_nextMgfPhases hph (hI.hLen_pos hv).1 (hLen_lt s) hm fun _ => rfl
  | dSeedMask m =>
    simp only [PhaseInv, hph] at hp
    obtain ⟨⟨⟨⟨-, hv, -⟩, -⟩, -⟩, hm⟩ := hp
    simp only [seqStep, hph]
    exact mgfPhase_mem_nextMgfPhases hph (hI.hLen_pos hv).1 (hLen_lt s) hm fun _ => rfl
  | dDbMask m =>
    simp only [PhaseInv, hph] at hp
    obtain ⟨⟨⟨⟨-, hv, hlen, -⟩, -⟩, -⟩, -, hm⟩ := hp
    simp only [seqStep, hph, phaseDDbMask, length_operandA]
    exact mgfPhase_mem_nextMgfPhases hph (hI.hLen_pos hv).1 (by omega) hm fun _ => rfl

/-- A command starts in its first phase, or its start sequence has raised UsageFault (60_exceptions.md R185). -/
theorem beginCommand_phase (i : Instr) (s : State) : (beginCommand i s).phase = firstPhase i ∨ (beginCommand i s).phase = .fail .use := by
  obtain ⟨-, h⟩ | ⟨-, -, -, -, h⟩ | ⟨-, -, -, h⟩ | ⟨-, -, h⟩ := beginCommand_cases i s <;> rw [h]
  · exact .inr rfl
  · exact .inr rfl
  · exact .inl rfl
  · exact .inl rfl

/-- Settles O47: the phases follow their lists, from the first phase or from FAIL. -/
theorem phasesFollowTheLists : Obligations.PhasesFollowTheLists :=
  ⟨fun _ => seqStep_mem_nextPhases, beginCommand_phase⟩

end Sys2Proof.Machine
end

section
/-! PROOFS. How a command completes, in whatever step (60_exceptions.md R184, R186, R187): UsageFault comes from the start sequence alone, and a completion
has one of two shapes. -/

namespace Sys2Proof.Machine

/-! ### UsageFault -/

/-- A command that has not raised UsageFault and has not completed with it. -/
def NoUsageFault (t : State) : Prop := t.phase ≠ .fail .use ∧ (t.phase = .idle → t.err ≠ .use)

theorem NoUsageFault.of_running {t : State} (hfail : t.phase ≠ .fail .use) (hrun : t.phase ≠ .idle) : NoUsageFault t :=
  ⟨hfail, fun hidle => absurd hidle hrun⟩

theorem NoUsageFault.of_completed {t : State} (hidle : t.phase = .idle) (herr : t.err ≠ .use) : NoUsageFault t :=
  ⟨by simp [hidle], fun _ => herr⟩

/-- The kind of a completion is the one raised, and no phase raises UsageFault (60_exceptions.md R183). -/
theorem NoUsageFault.afterPhase {t : State} (h : NoUsageFault t) : NoUsageFault (seqStep t) := by
  obtain ⟨-, hstep⟩ | ⟨k, hph, hstep⟩ | ⟨-, hstep⟩ | ⟨-, -, -, ⟨r, hstep⟩ | ⟨sc, ph, e, hstep, hrun, hown, -⟩⟩ := seqStep_cases t <;>
    rw [hstep]
  · exact h
  · refine .of_completed (completeFail_phase k t) ?_
    rw [completeFail_err]
    rintro rfl
    exact h.1 hph
  · exact .of_completed rfl (by simp [phaseKClr, completeOk])
  · exact .of_completed (emit_phase r t) (by simp)
  · refine .of_running (fun hfail => ?_) hrun
    obtain h | h := hown .use hfail <;> cases h

theorem firstPhase_ne_fail (i : Instr) (k : ErrKind) : firstPhase i ≠ .fail k := by cases i <;> simp [firstPhase]

/-- The start sequence raises UsageFault on a capacity condition or on a digest size that it cannot latch (60_exceptions.md R184, R185). -/
theorem beginCommand_usageFault_iff {i : Instr} {s : State} : (beginCommand i s).phase = .fail .use ↔
    capacityFault i s = true ∨ usesHash i = true ∧ s.hv = false ∧ (s.env.hashLen < 1 ∨ s.cfg.hmax < s.env.hashLen) := by
  obtain ⟨hc, h⟩ | ⟨-, hu, hv, hd, h⟩ | ⟨hc, -, hd, h⟩ | ⟨hc, hu, h⟩ := beginCommand_cases i s <;> rw [h, running_phase]
  · exact iff_of_true rfl (.inl hc)
  · exact iff_of_true rfl (.inr ⟨hu, hv, hd⟩)
  · exact iff_of_false (firstPhase_ne_fail i .use) (not_or.2 ⟨by simp [hc], fun hfault => hd.not_fault hfault.2⟩)
  · exact iff_of_false (firstPhase_ne_fail i .use) (by simp [hc, hu])

/-- A command reports UsageFault where its start sequence raised it, and nowhere else. -/
theorem Reaches.err_use_iff {i : Instr} {s t : State} (h : Reaches i s t) (hidle : t.phase = .idle) :
    t.err = .use ↔ (beginCommand i s).phase = .fail .use := by
  constructor
  · contrapose
    intro hstart
    have hnone : NoUsageFault t :=
      h.induct (.of_running hstart (beginCommand_ne_idle i s)) (fun _ ht => ht.afterPhase) fun _ _ _ _ ht => ht
    exact hnone.2 hidle
  · intro hstart
    obtain hph | ⟨-, herr⟩ := h.of_startFault hstart
    · rw [hidle] at hph; cases hph
    · exact herr

/-- Settles O36: only the start sequence raises UsageFault, by the capacity condition of the command's row or by the latch. -/
theorem usageFaultsExactly : Obligations.UsageFaultsExactly := by
  refine ⟨fun w s e _ => by rw [runIllegal_eq]; exact ⟨rfl, rfl⟩, ?_⟩
  intro i s t h hidle digest
  have ht : Reaches i s t := h.elim Reaches.of_exec id
  have hem : ((s.keybits.toNat / 8 : Nat) : Int) - 1 = emLength s := rfl
  rw [ht.err_use_iff hidle, beginCommand_usageFault_iff, hem]
  cases i with
  | i2osp | clr => simp [capacityFault, usesHash]
  | xor => simp [capacityFault_xor_iff, usesHash]
  | mgf1 => simp [capacityFault_mgf1_iff, usesHash, or_assoc, digest]
  | oaepenc => simp [capacityFault_oaepenc_iff, usesHash, or_assoc, digest]
  | oaepdec => simp [capacityFault_oaepdec_iff, usesHash, or_assoc, digest]
  | p15enc => simp [capacityFault_p15enc_iff, usesHash]
  | p15dec => simp [capacityFault_p15dec_iff, usesHash]

/-! ### The two shapes -/

theorem beginCommand_responses (i : Instr) (s : State) : (beginCommand i s).bus.responses = s.bus.responses := by
  obtain ⟨-, h⟩ | ⟨-, -, -, -, h⟩ | ⟨-, -, -, h⟩ | ⟨-, -, h⟩ := beginCommand_cases i s <;> rw [h]
  · rfl
  · rfl
  · exact congrArg Bus.responses (withLatch_bus s)
  · rfl

/-- The CMD write of a running command has no response, that of a completed one has one (60_exceptions.md R186). -/
def AnsweredOnce (s t : State) : Prop :=
  (t.phase ≠ .idle ∧ t.bus.responses = s.bus.responses) ∨ (t.phase = .idle ∧ t.bus.responses = s.bus.responses ++ [.done])

theorem AnsweredOnce.afterPhase {s t : State} (h : AnsweredOnce s t) : AnsweredOnce s (seqStep t) := by
  obtain ⟨hrun, hresp⟩ | ⟨hidle, hresp⟩ := h
  · unfold AnsweredOnce
    rw [← hresp]
    exact seqStep_responses hrun
  · rw [seqStep_of_idle hidle]
    exact .inr ⟨hidle, hresp⟩

theorem Reaches.answeredOnce {i : Instr} {s t : State} (h : Reaches i s t) : AnsweredOnce s t :=
  h.induct (.inl ⟨beginCommand_ne_idle i s, beginCommand_responses i s⟩) (fun _ ht => ht.afterPhase) fun _ _ _ _ ht => ht

/-- What OLEN and buffer O are beside each kind of completion (60_exceptions.md R187). -/
theorem Inv.resultShape {t : State} (hI : Inv t) :
    (t.err = .ok ∧ t.olen.toNat ≤ t.cfg.cap ∧ ∀ k, t.olen.toNat ≤ k → k < t.cfg.cap → t.mem.read (0x4000 + k) = 0) ∨
      ((t.err = .enc ∨ t.err = .dec ∨ t.err = .use) ∧ t.olen = 0 ∧ ∀ k < t.cfg.cap, t.mem.read (0x4000 + k) = 0) := by
  by_cases hok : t.err = .ok
  · exact .inl ⟨hok, hI.olenCap, hI.oTail⟩
  · have hkind : t.err = .enc ∨ t.err = .dec ∨ t.err = .use := by cases h : t.err <;> simp_all
    have holen : t.olen = 0 := hI.failed hok
    exact .inr ⟨hkind, holen, fun k => hI.oTail k (by simp [holen])⟩

/-- Settles O40: the responses count the completion, and the invariant holds the rest. -/
theorem completionHasTwoShapes : Obligations.CompletionHasTwoShapes := by
  intro i s t hI hs h
  have ht : Reaches i s t := h.elim Reaches.of_exec id
  have hT : Inv t := ht.inv hI hs
  refine ⟨exec_inputs, ht.answeredOnce.imp_right fun ⟨hidle, hresp⟩ => ?_⟩
  exact ⟨hidle, hresp, hT.idleScratch hidle, hT.resultShape⟩

end Sys2Proof.Machine
end

section
/-! PROOFS. The collaborators (70_reset_and_hazards.md R212, R221): nothing but an exchange under reset attaches others, and a command that finds one silent
stays in the phase that makes the request. -/

namespace Sys2Proof.Machine

/-! ### The exchange -/

theorem seqStep_collaborators (s : State) : s.env.sameCollaborators (seqStep s).env := (seqStep_keptByClr s).collaborators

theorem seqRun_beginWord_collaborators (n : Nat) (w : Word) (s : State) :
    s.env.sameCollaborators (seqRun n (beginWord w s)).env :=
  Env.sameCollaborators_trans (beginWord_collaborators w s) (seqRun_keptByClr n _).collaborators

theorem readTarget_env (loc : Target) (s : State) : (readTarget loc s).env = s.env := by cases loc <;> rfl

theorem writeReg_env (r : Reg) (v : Word) (s : State) : (writeReg r v s).env = s.env := by cases r <;> rfl

theorem writeTarget_env (loc : Target) (v : Word) (s : State) : (writeTarget loc v s).env = s.env := by
  cases loc with
  | reg r => exact writeReg_env r v s
  | buf bf i => cases bf <;> rfl

theorem atReset_exchangeCollaborators (n i : Nat) (k : List (Octets × Octets)) (r : Nat) (a : Octets) (s : State) :
    AtReset (exchangeCollaborators n i k r a s) :=
  ⟨rfl, rfl, rfl, rfl, rfl, rfl, rfl, statusWord_reset, rfl, rfl, fun _ => rfl, rfl, rfl⟩

/-- Settles O15: of the ways a step can go, the exchange alone writes what is attached. -/
theorem collaboratorsExchangedUnderResetOnly : Obligations.CollaboratorsExchangedUnderResetOnly := by
  intro s t h
  cases step_cases h with
  | noInput | held => exact .inl (seqStep_collaborators s)
  | wait => exact .inl (seqStep_collaborators (dropInput s))
  | reset | hashAnswers | randAnswers => exact .inl ⟨rfl, rfl, rfl, rfl⟩
  | exchange hin => exact .inr ⟨⟨_, _, _, _, _, _, hin⟩, atReset_exchangeCollaborators _ _ _ _ _ _⟩
  | read => rw [readTarget_env]; exact .inl (Env.sameCollaborators_refl _)
  | write => rw [writeTarget_env]; exact .inl (Env.sameCollaborators_refl _)
  | command | cut => exact .inl (seqRun_beginWord_collaborators _ _ (dropInput s))

/-! ### A request that is not answered -/

theorem seqRun_of_seqStep_eq {s : State} (h : seqStep s = s) (n : Nat) : seqRun n s = s :=
  seqRun_induct (P := (· = s)) (fun t ht => by rw [ht, h]) n rfl

theorem hashPort_of_silent {s : State} (h : s.env.hashAnswers = some 0) (m : Octets) : hashPort m s = none := if_pos h

theorem randPort_of_silent {n : Nat} {s : State} (h : s.env.delivers n = false) : randPort n s = none :=
  if_neg (by simp [h])

/-- M_HASH stays while the primitive does not answer (41_mgf1.md R122). -/
theorem mgfPhase_hash_silent {cmd : Instr} {seed : Octets} {length : Nat} {here : MgfPhase → Phase} {done : Octets → State → State}
    {s : State} (h : s.env.hashAnswers = some 0) : mgfPhase cmd seed length here done .hash s = s := by
  rw [mgfPhase, hashPort_of_silent h]

/-- The phases that make a request to the hash primitive: M_HASH in each call of `mgf`, and the two that hash the label (20_memory.md R77). -/
def hashRequestPhases : List Phase :=
  [.mgf1 .hash, .eDb, .eDbMask .hash, .eSeedMask .hash, .dSeedMask .hash, .dDbMask .hash, .dLhash]

section
variable {s : State}

theorem seqStep_hashRequest_silent (hans : s.env.hashAnswers = some 0) (hph : s.phase ∈ hashRequestPhases) : seqStep s = s := by
  simp only [hashRequestPhases, List.mem_cons, List.not_mem_nil, or_false] at hph
  obtain hph | hph | hph | hph | hph | hph | hph := hph <;> simp only [seqStep, hph]
  · exact mgfPhase_hash_silent hans
  · rw [phaseEDb, hashPort_of_silent hans]
  · exact mgfPhase_hash_silent hans
  · exact mgfPhase_hash_silent hans
  · exact mgfPhase_hash_silent hans
  · exact mgfPhase_hash_silent hans
  · rw [phaseDLhash, hashPort_of_silent hans]

theorem seqStep_eSeed_silent (hph : s.phase = .eSeed) (hans : s.env.delivers (hLen s) = false) : seqStep s = s := by
  simp only [seqStep, hph, phaseESeed, randPort_of_silent hans]

theorem seqStep_pDraw_silent (hph : s.phase = .pDraw)
    (hans : s.env.delivers (s.scratch.emLen - s.scratch.mLen - 2).toNat = false) : seqStep s = s := by
  simp only [seqStep, hph, phasePDraw, randPort_of_silent hans]

theorem seqStep_pFix_silent (hph : s.phase = .pFix) (hi : s.scratch.i < s.scratch.psLen) (hz : s.scratch.ps.getD s.scratch.i 0 = 0)
    (hans : s.env.delivers 1 = false) : seqStep s = s := by
  simp only [seqStep, hph, phasePFix, if_pos hi, if_pos hz, randPort_of_silent hans]

/-- Under the invariant P_DRAW asks for the octets that the operands give (43_pkcs1v15.md R150). -/
theorem Inv.pDraw_length (hI : Inv s) (hph : s.phase = .pDraw) :
    (s.scratch.emLen - s.scratch.mLen - 2).toNat = p15PsLen s := by
  have hP := hI.phase
  simp only [PhaseInv, hph] at hP
  obtain ⟨-, hem, hm, hfit⟩ := hP
  rw [hem, hm, emLength_sub_eq_p15PsLen hfit]

end

/-! ### A command whose first request is not answered -/

/-- Command `i`, started in `s`, gets no response and stays in phase `ph` for good. -/
def Hangs (i : Instr) (ph : Phase) (s : State) : Prop :=
  ∃ t, exec i s = .next t ∧ t.phase = ph ∧ t.bus = s.bus ∧ ∀ n, seqRun n t = t

/-- A command hangs where a few phases take it into one that changes nothing; `S` is the state it started in, latched or not. -/
theorem Hangs.of_running {i : Instr} {ph : Phase} {sc : Scratch} {e : Env} {s S : State} {k : Nat} (hk : k ≤ phaseBudget s)
    (hbus : S.bus = s.bus) (hrun : seqRun k (beginCommand i s) = running i ph sc e S)
    (hstay : seqStep (running i ph sc e S) = running i ph sc e S) : Hangs i ph s := by
  obtain ⟨d, hd⟩ := Nat.exists_eq_add_of_le hk
  have hfix := seqRun_of_seqStep_eq hstay
  refine ⟨_, exec_eq i s, ?_⟩
  rw [runCommand, hd, seqRun_add, hrun, hfix]
  exact ⟨rfl, hbus, hfix⟩

theorem le_phaseBudget {k : Nat} (hk : k ≤ 64) (s : State) : k ≤ phaseBudget s := by unfold phaseBudget; omega

/-- `mgf` makes its first request in its third phase, whatever its seed and length (41_mgf1.md R122). -/
theorem seqRun_mgf_request {i : Instr} {here : MgfPhase → Phase} {e : Env} {s : State}
    (hstep : ∀ m sc, ∃ seed length done,
      seqStep (running i (here m) sc e s) = mgfPhase i seed length here done m (running i (here m) sc e s)) (sc : Scratch) :
    ∃ sc', seqRun 2 (running i (here .init) sc e s) = running i (here .hash) sc' e s := by
  obtain ⟨_, length, _, hinit⟩ := hstep .init sc
  have hinit : seqStep (running i (here .init) sc e s) =
      running i (here .i2osp) { sc with c := 0, t := [], n := length / hLen s + 1 } e s := hinit
  obtain ⟨_, _, _, hconv⟩ := hstep .i2osp { sc with c := 0, t := [], n := length / hLen s + 1 }
  rw [seqRun_succ', hinit, seqRun_succ', hconv, seqRun_zero]
  exact ⟨_, rfl⟩

section
variable {s : State}

/-- OAEPENC comes to its Hash request on the label, where the message fits (42_oaep.md R130). -/
theorem seqRun_eCheck_request (hfit : (s.alen.toNat : Int) ≤ emLength s - 2 * hLen s - 1) (sc : Scratch) (e : Env) :
    ∃ sc', seqRun 2 (running .oaepenc .eCheck sc e s) = running .oaepenc .eDb sc' e s := by
  have hcheck : ¬ oaepTooLong s.alen.toNat (hLen s) (emLength s) = true := mt oaepTooLong_iff.mp (by omega)
  rw [seqRun_succ', running_eCheck, if_neg hcheck, seqRun_succ', running_ePs, seqRun_zero]
  exact ⟨_, rfl⟩

/-- The pipeline's seed is maskedDB and its length hLen (42_oaep.md R135). -/
theorem running_dSeedMask (m : MgfPhase) (sc : Scratch) (e : Env) : seqStep (running .oaepdec (.dSeedMask m) sc e s) =
    mgfPhase .oaepdec sc.maskedDb (hLen s) .dSeedMask
      (fun r t => { t with scratch := { t.scratch with seedMask := r }, phase := .dXorSeed }) m
      (running .oaepdec (.dSeedMask m) sc e s) := rfl

/-- OAEPDEC comes to the first Hash request inside D_SEEDMASK (42_oaep.md R135). -/
theorem seqRun_dCheck_request (ha : s.alen.toNat ≤ 4096) (hlong : 2 * hLen s + 1 ≤ s.alen.toNat) (sc : Scratch) (e : Env) :
    ∃ sc', seqRun 4 (running .oaepdec .dCheck sc e s) = running .oaepdec (.dSeedMask .hash) sc' e s := by
  rw [seqRun_succ', running_dCheck, if_neg (by omega), seqRun_succ', running_dSplit ha]
  exact seqRun_mgf_request (fun m sc => ⟨_, _, _, running_dSeedMask m sc e⟩) _

end

section
variable {s : State} (hcfg : s.cfg.wf = true) (hlatch : latchAgrees s) (hu : digestUsable s) (ha : s.alen.toNat ≤ s.cfg.cap)
include hu ha

theorem mgf1_hangs (hans : s.env.hashAnswers = some 0) (hm : s.mlen.toNat ≤ s.cfg.cap) : Hangs .mgf1 (.mgf1 .hash) s := by
  have hc : capacityFault .mgf1 s = false := Bool.eq_false_iff.mpr (mt capacityFault_mgf1_iff.mp (by omega))
  obtain ⟨sc, hrun⟩ := seqRun_mgf_request (i := .mgf1) (here := .mgf1) (e := (withLatch s).env) (s := withLatch s)
    (fun _ _ => ⟨_, _, _, rfl⟩) s.scratch
  exact .of_running (le_phaseBudget (by decide) s) (withLatch_bus s) ((congrArg _ (beginCommand_latched hc rfl hu)).trans hrun)
    (seqStep_hashRequest_silent (by rwa [running_env, withLatch_hashAnswers]) (by simp [hashRequestPhases]))

include hcfg hlatch

theorem oaepdec_hangs (hans : s.env.hashAnswers = some 0) (hl : s.llen.toNat ≤ s.cfg.cap)
    (hlong : 2 * s.env.hashLen + 1 ≤ s.alen.toNat) : Hangs .oaepdec (.dSeedMask .hash) s := by
  have hcap := Params.cap_le hcfg
  have hc : capacityFault .oaepdec s = false := Bool.eq_false_iff.mpr (mt capacityFault_oaepdec_iff.mp (by omega))
  obtain ⟨hh, -, -⟩ := hLen_withLatch hcfg hu hlatch
  obtain ⟨sc, hrun⟩ := seqRun_dCheck_request (s := withLatch s) (by rw [withLatch_alen]; omega) (by rwa [withLatch_alen, hh])
    s.scratch (withLatch s).env
  exact .of_running (le_phaseBudget (by decide) s) (withLatch_bus s) ((congrArg _ (beginCommand_latched hc rfl hu)).trans hrun)
    (seqStep_hashRequest_silent (by rwa [running_env, withLatch_hashAnswers]) (by simp [hashRequestPhases]))

section
variable (hl : s.llen.toNat ≤ s.cfg.cap) (hem : emLength s ≤ (s.cfg.cap : Int))
  (hfit : (s.alen.toNat : Int) ≤ emLength s - 2 * s.env.hashLen - 1)
include hl hem hfit

/-- OAEPENC past its checks comes to E_DB, with hLen latched. -/
theorem beginCommand_oaepenc_request :
    ∃ sc, seqRun 2 (beginCommand .oaepenc s) = running .oaepenc .eDb sc (withLatch s).env (withLatch s) := by
  have hc : capacityFault .oaepenc s = false := Bool.eq_false_iff.mpr (mt capacityFault_oaepenc_iff.mp (by omega))
  obtain ⟨hh, -, -⟩ := hLen_withLatch hcfg hu hlatch
  rw [beginCommand_latched hc rfl hu]
  exact seqRun_eCheck_request (by rwa [withLatch_alen, emLength_withLatch, hh]) _ _

theorem oaepenc_hangs_eDb (hans : s.env.hashAnswers = some 0) : Hangs .oaepenc .eDb s := by
  obtain ⟨sc, hrun⟩ := beginCommand_oaepenc_request hcfg hlatch hu ha hl hem hfit
  exact .of_running (le_phaseBudget (by decide) s) (withLatch_bus s) hrun
    (running_eDb_silent (by rwa [withLatch_hashAnswers]))

theorem oaepenc_hangs_eSeed (hans : s.env.hashAnswers = none) (hrand : s.env.delivers s.env.hashLen = false) :
    Hangs .oaepenc .eSeed s := by
  have hcap := Params.cap_le hcfg
  obtain ⟨hh, -, -⟩ := hLen_withLatch hcfg hu hlatch
  obtain ⟨sc, hrun⟩ := beginCommand_oaepenc_request hcfg hlatch hu ha hl hem hfit
  have hdb := running_eDb (sc := sc) (e := (withLatch s).env) (s := withLatch s) (by rw [withLatch_alen]; omega)
    (by rw [withLatch_llen]; omega) (by rwa [withLatch_hashAnswers])
  have hrand' : ((withLatch s).env.logged [.hash (label (withLatch s))]).delivers (hLen (withLatch s)) = false := by
    rw [hh, ← hrand]; simp [Env.delivers]
  exact .of_running (k := 2 + 1) (le_phaseBudget (by decide) s) (withLatch_bus s) (seqRun_trans hrun (n := 1) hdb rfl)
    (running_eSeed_silent hrand')

end

end

theorem p15enc_hangs {s : State} (ha : s.alen.toNat ≤ s.cfg.cap) (hem : emLength s ≤ (s.cfg.cap : Int))
    (hfit : (s.alen.toNat : Int) ≤ emLength s - 10) (hrand : s.env.delivers (p15PsLen s) = false) : Hangs .p15enc .pDraw s := by
  have hrun := (congrArg (seqRun 1) (beginCommand_p15enc ha hem)).trans (seqStep_pCheck_fits hfit)
  exact .of_running (le_phaseBudget (by decide) s) rfl hrun
    (running_pDraw_silent (by rwa [emLength_sub_eq_p15PsLen hfit]))

/-- Settles O45: an unanswered request changes nothing, and each command comes to its first one within a few phases. -/
theorem silentCollaboratorHangs : Obligations.SilentCollaboratorHangs := by
  refine ⟨fun s => ⟨?_, ?_, ?_, ?_⟩, fun s hcfg hlatch ha => ⟨?_, ?_, ?_, ?_, ?_⟩⟩
  · exact fun hans hph => seqRun_of_seqStep_eq (seqStep_hashRequest_silent hans hph)
  · exact fun hph hans => seqRun_of_seqStep_eq (seqStep_eSeed_silent hph hans)
  · exact fun hI hph hans => seqRun_of_seqStep_eq (seqStep_pDraw_silent hph (by rwa [hI.pDraw_length hph]))
  · exact fun hph hi hz hans => seqRun_of_seqStep_eq (seqStep_pFix_silent hph hi hz hans)
  · exact fun hans hu hm => mgf1_hangs hu ha hans hm
  · exact fun hans hu hl hem hfit => oaepenc_hangs_eDb hcfg hlatch hu ha hl hem hfit hans
  · exact fun hans hu hl hlong => oaepdec_hangs hcfg hlatch hu ha hans hl hlong
  · exact fun hans hrand hu hl hem hfit => oaepenc_hangs_eSeed hcfg hlatch hu ha hl hem hfit hans hrand
  · exact fun hrand hem hfit => p15enc_hangs ha hem hfit hrand

end Sys2Proof.Machine
end
